-- ==== Sys2Proof/Word.lean ====
section
/-! DEFINITION. The fixed-width values of the bitpacker CORE engine (spec/00_scope.md R5, R7): the 32-bit word
that one buffer location, one operand slot and one command word hold, the 8-bit byte of a byte block, the 64-bit
scratch accumulator and the 6-bit WIDTH field. -/

namespace Sys2Proof

/-- `W = 32` bits (R5): a buffer word, an operand slot `op[k]`, a command word, a response's `result`. -/
abbrev Word := BitVec 32

/-- One byte of a byte block (R73): one lane of a word. -/
abbrev Byte := BitVec 8

/-- `SW = 2×W = 64` bits (R5): the scratch accumulator. -/
abbrev Wide := BitVec 64

/-- The WIDTH field of a command word (R101, R105), 0 to 63. -/
abbrev Width := BitVec 6

end Sys2Proof
end

