-- ==== Sys2Proof/Config.lean ====
section
/-! DEFINITION. What an implementation fixes and what the spec leaves free (spec/00_scope.md R5,
spec/93_implementation_defined.md I1, I4, I5, I11). Every value here is an opaque constant: no proof can see it,
so a statement about it holds whatever it is. -/

namespace Sys2Proof

/-- The bound of R5 on the parameter `BUF_WORDS`: `2^27 − 1`. -/
abbrev Config.maxBufWords : Nat := 134217727

/-- The OPEN parameter `BUF_WORDS` (R5, D17, I11) of the engine that `State.reset` describes,
`0 ≤ BUF_WORDS ≤ 2^27 − 1`. Log entry 1. -/
opaque Config.bufWords : Fin (Config.maxBufWords + 1)

/-- What lane `a mod 4` of buffer word `a / 4` holds at power-on (R381, I4, I5): any value, one per byte, the same
at every read until something writes it (R79). Log entry 2. -/
opaque Config.powerOnByte : Nat → Byte

/-- The `result` of the `n`-th failing command whose result the spec leaves `any` (R342, D21, I1). Log entry 3. -/
opaque Config.failResult : Nat → Word

/-- Sign and payload of the NaN that a binary32 operation with no numeric answer gives (R11 names IEEE-754, which
leaves both open). Log entry 4: no command of the engine ever reaches such an operation. -/
opaque Config.nanBits : Word → Word → Word

end Sys2Proof
end

