-- ==== Sys2Proof/Syntax.lean ====
section
/-! DEFINITION. The syntax of BPK-CMD v1 (spec/30_encoding.md): a command as the host presents it (R100) and the
20 operations of spec/opcode_table.json with the fields and operand slots that each of them reads (R102, R106). -/

namespace Sys2Proof

/-- The direction a binding has and a directional command names (R34, R103): D = 0 writer, D = 1 reader. -/
inductive Dir where
  | writer
  | reader
deriving DecidableEq, Repr

/-- The S bit (R104): how BFR, WINT and RINT read their integer operands. -/
inductive Sign where
  | unsigned
  | signed
deriving DecidableEq, Repr

/-- A command as presented on the command port (R100): one command word, four operand words and the input byte
sequence `bin`. -/
structure Command where
  word : Word
  op0  : Word
  op1  : Word
  op2  : Word
  op3  : Word
  bin  : List Byte
deriving DecidableEq, Repr

/-- The 20 operations, in the order of spec/opcode_table.json. A constructor carries the fields and the operand
slots its operation reads (R106), in slot order; a slot it ignores is not part of the operation. -/
inductive Instr where
  /-- BIND (R316): `D` and `op[0]` = capacity in words. -/
  | bind (d : Dir) (capacity : Word)
  /-- WBITS (R141): `WIDTH` and `op[0]` = value. -/
  | wbits (width : Width) (value : Word)
  /-- RBITS (R171): `WIDTH`. -/
  | rbits (width : Width)
  /-- WCHK (R142): `WIDTH`. -/
  | wchk (width : Width)
  /-- RCHK (R172): `WIDTH`. -/
  | rchk (width : Width)
  /-- WFLUSH (R143). -/
  | wflush
  /-- RFLUSH (R173). -/
  | rflush
  /-- BFR (R202): `S`, `op[1]` = min, `op[2]` = max. -/
  | bfr (sg : Sign) (min max : Word)
  /-- WINT (R205): `S`, `op[0]` = value, `op[1]` = min, `op[2]` = max. -/
  | wint (sg : Sign) (value min max : Word)
  /-- RINT (R206): `S`, `op[1]` = min, `op[2]` = max. -/
  | rint (sg : Sign) (min max : Word)
  /-- WF32 (R234): `op[0]` = binary32 pattern. -/
  | wf32 (bits : Word)
  /-- RF32 (R235). -/
  | rf32
  /-- WQF (R236): `op[0]` = value, `op[1]` = min, `op[2]` = max, `op[3]` = resolution. -/
  | wqf (value min max res : Word)
  /-- RQF (R237): `op[1]` = min, `op[2]` = max, `op[3]` = resolution. -/
  | rqf (min max res : Word)
  /-- WALIGN (R271). -/
  | walign
  /-- RALIGN (R272). -/
  | ralign
  /-- WBYTES (R275): `op[0]` = length, `bin` = the bytes. -/
  | wbytes (len : Word) (bytes : List Byte)
  /-- RBYTES (R276): `op[0]` = length. -/
  | rbytes (len : Word)
  /-- WSTR (R277): `op[0]` = length, `bin` = the bytes. -/
  | wstr (len : Word) (bytes : List Byte)
  /-- RSTR (R278): `op[1]` = destination capacity. -/
  | rstr (dcap : Word)
deriving DecidableEq, Repr

/-- The side a directional operation belongs to (R103); BIND and BFR are not directional (R320). -/
def Instr.side : Instr → Option Dir
  | .bind _ _ => none
  | .wbits _ _ => some .writer
  | .rbits _ => some .reader
  | .wchk _ => some .writer
  | .rchk _ => some .reader
  | .wflush => some .writer
  | .rflush => some .reader
  | .bfr _ _ _ => none
  | .wint _ _ _ _ => some .writer
  | .rint _ _ _ => some .reader
  | .wf32 _ => some .writer
  | .rf32 => some .reader
  | .wqf _ _ _ _ => some .writer
  | .rqf _ _ _ => some .reader
  | .walign => some .writer
  | .ralign => some .reader
  | .wbytes _ _ => some .writer
  | .rbytes _ => some .reader
  | .wstr _ _ => some .writer
  | .rstr _ => some .reader

/-- The read form of a write form with the same fields and shared operands (R320); `dcap` is the `op[1]` of the
command, which WSTR ignores. Operations that are no write form stand for themselves. -/
def Instr.readForm (dcap : Word) : Instr → Instr
  | .wbits w _ => .rbits w
  | .wchk w => .rchk w
  | .wflush => .rflush
  | .wint sg _ lo hi => .rint sg lo hi
  | .wf32 _ => .rf32
  | .wqf _ lo hi res => .rqf lo hi res
  | .walign => .ralign
  | .wbytes len _ => .rbytes len
  | .wstr _ _ => .rstr dcap
  | .bind d c => .bind d c
  | .rbits w => .rbits w
  | .rchk w => .rchk w
  | .rflush => .rflush
  | .bfr sg lo hi => .bfr sg lo hi
  | .rint sg lo hi => .rint sg lo hi
  | .rf32 => .rf32
  | .rqf lo hi res => .rqf lo hi res
  | .ralign => .ralign
  | .rbytes len => .rbytes len
  | .rstr d => .rstr d

end Sys2Proof
end

