-- ==== Sys2Proof/Machine/State.lean ====
section
/-! DEFINITION. The state of the engine (spec/10_state.md R30 to R41, spec/20_memory.md R70), the events and replies
of its host-facing ports (spec/46_stream_control.md R310), the reasons a step can stop, and the state after reset
(spec/70_reset_and_hazards.md R380, R381). -/

namespace Sys2Proof.Machine

/-- The lifecycle state (R33). -/
inductive Phase where
  | unbound
  | active
  | done
  | failed
deriving DecidableEq, Repr

/-- The status codes (R340); codes 10 to 15 are reserved and never produced (I19). -/
inductive Status where
  | ok
  | bufferOverrun
  | budgetExhausted
  | invalidRange
  | outOfRange
  | alignmentFault
  | invalidWidth
  | stringCapacity
  | illegalCommand
  | notReady
deriving DecidableEq, Repr

/-- The buffer memory `BUF` (R70): the byte lanes written since power-on, as (lane address, byte) pairs in strictly
rising order of address. Lane `j mod 4` of word `j / 4` has address `j` (R73). Log entries 2 and 5. -/
abbrev Memory := List Host.Cell

/-- The response to a command (R108). -/
structure Response where
  status : Status
  result : Word
  bout   : List Byte
deriving DecidableEq, Repr

/-- What the host does at a port (R310): a command, a CSR read, a buffer read or write, a reset. -/
inductive HostEvent where
  /-- A command on the command port (R100). -/
  | command (c : Command)
  /-- `CsrRead(a)` on the CSR port (R317). -/
  | csrRead (a : Word)
  /-- `HostRead(i)` on the buffer port (R318); an index is any natural (log entry 10). -/
  | hostRead (i : Nat)
  /-- `HostWrite(i, v)` on the buffer port (R318, R319). -/
  | hostWrite (i : Nat) (v : Word)
  /-- The reset input asserted between commands (R380). -/
  | reset
deriving DecidableEq, Repr

/-- What a port answers (R310). -/
inductive Reply where
  /-- The response to a command (R108). -/
  | response (r : Response)
  /-- The value of a CSR (R317). -/
  | csrValue (v : Word)
  /-- A buffer read's value and whether it was accepted (R318). -/
  | bufferRead (v : Word) (accepted : Bool)
  /-- Whether a buffer write was accepted (R318, R319). -/
  | bufferWrite (accepted : Bool)
deriving DecidableEq, Repr

/-- The machine's state: the state record of R30, then what the model adds to it (the parameter of this engine, the
host's events still to come, the last reply, the count of free values drawn; log entries 1, 3, 6, 7). -/
structure State where
  /-- `PHASE` (R33). -/
  phase    : Phase
  /-- `DIR` (R34). -/
  dir      : Dir
  /-- `CAP`, the capacity of the binding in words (R35). -/
  cap      : Word
  /-- `CURSOR`, the next word to commit or refill (R36). -/
  cursor   : Word
  /-- `SCRATCH`, the 64-bit accumulator (R37). -/
  scratch  : Wide
  /-- `SBITS`, 7 bits, the count of live scratch bits (R38). -/
  sbits    : BitVec 7
  /-- `BUDGET`, the bits a reader may still take (R39). -/
  budget   : Word
  /-- `ERR`, the first failure of the binding (R40). -/
  err      : Status
  /-- `BUF`, the buffer memory (R70). -/
  buf      : Memory
  /-- The parameter `BUF_WORDS` of this engine (R5, R48); nothing writes it. -/
  bufWords : Fin (Config.maxBufWords + 1)
  /-- The host's events that have not reached the ports yet, next one first (R48, R83). -/
  port     : List HostEvent
  /-- What the engine last answered (R108); nothing reads it. -/
  reply    : Option Reply
  /-- How many values the spec leaves `any` have been drawn (R8). -/
  draws    : Nat
deriving DecidableEq, Repr

/-- Why a step stops with a fault. -/
inductive Fault where
  /-- A buffer access at a word index `≥ BUF_WORDS`, an index that does not exist (R70). Raised by `memRead` and
  `memWrite`. Safe: the rules never make such an access (R145 (3), R174 (3)); only a state that breaks the
  invariants of R42 and R43 can raise it (log entry 13). -/
  | noSuchWord (index : Nat)
deriving DecidableEq, Repr

/-- Why a step is refused. -/
inductive Refusal where
  /-- The instruction has no meaning in this model. Raised by `exec`'s rejected arms, of which none is left. Safe. -/
  | notModelled (mnemonic : String)
deriving DecidableEq, Repr

/-- The state after reset at power-on (R380, R381): `PHASE` UNBOUND, every register 0, `ERR` OK, every word of `BUF`
at its free power-on value; no event pending at a port and nothing answered yet. -/
def State.reset : State :=
  { phase := .unbound, dir := .writer, cap := 0, cursor := 0, scratch := 0, sbits := 0, budget := 0, err := .ok,
    buf := [], bufWords := Config.bufWords, port := [], reply := none, draws := 0 }

end Sys2Proof.Machine
end

