-- ==== Sys2Proof/Machine/Operands.lean ====
section
/-! DEFINITION. The operand forms: integer operands under S (spec/43_rangecodec.md R201, spec/30_encoding.md R104),
32-bit patterns of integers (spec/00_scope.md R7), field masks (spec/41_bitwriter.md R144), range widths
(spec/43_rangecodec.md R200), the bit position (spec/10_state.md R41) and the pad width (spec/45_byteblock.md R270). -/

namespace Sys2Proof.Machine

/-- `int(x)` (R201): `u32(x)` when S = 0, `s32(x)` when S = 1. -/
def intOperand (sg : Sign) (x : Word) : Int :=
  match sg with
  | .unsigned => (x.toNat : Int)
  | .signed => x.toInt

/-- `pat32(v)` (R7): the 32-bit two's-complement pattern of an integer. -/
def pat32 (v : Int) : Word := BitVec.ofInt 32 v

/-- `mask(n) = 2^n − 1` for `0 ≤ n ≤ 32` (R7, R144), exact at 32. -/
def mask (n : Nat) : Word := BitVec.ofNat 32 (2 ^ n - 1)

/-- `BitsForRange(lo, hi)` for `lo ≤ hi` (R200): 0 for a range of one value, else the index of the highest set bit
of `hi − lo`, plus 1. -/
def bitsForRange (lo hi : Int) : Nat :=
  if (hi - lo).toNat = 0 then 0 else Nat.log2 (hi - lo).toNat + 1

/-- `UINT32_MAX` (R277), the upper end of the range of a string's length prefix. -/
abbrev uint32Max : Int := 4294967295

/-- `POS` (R41): `32·CURSOR + SBITS` for a writer, `32·CURSOR − SBITS` for a reader. -/
def State.pos (s : State) : Int :=
  match s.dir with
  | .writer => 32 * (s.cursor.toNat : Int) + (s.sbits.toNat : Int)
  | .reader => 32 * (s.cursor.toNat : Int) - (s.sbits.toNat : Int)

/-- `pad(POS)` (R270): the bits to the next byte boundary, 0 at a boundary. -/
def padWidth (pos : Int) : Nat := ((8 - pos % 8) % 8).toNat

end Sys2Proof.Machine
end

