-- ==== Sys2Proof/Machine/Flags.lean ====
section
/-! DEFINITION. The engine has no flags register and no condition codes (spec/10_state.md R46). What it has in their
place are the two predicates of the source, answered in `result` (spec/41_bitwriter.md R142, spec/42_bitreader.md
R172), and the numbers of the status codes and phases that the CSRs show (spec/60_exceptions.md R340, R33). -/

namespace Sys2Proof.Machine

/-- `IsBufferOverrun(w)` (R142): a `w`-bit write would make the stream longer than `32·CAP` bits. -/
def State.overrun (s : State) (w : Nat) : Bool :=
  decide (32 * s.cap.toNat < 32 * s.cursor.toNat + s.sbits.toNat + w)

/-- `WouldReadPastEnd(w)` (R172): a `w`-bit read asks for more than `BUDGET` bits. -/
def State.pastEnd (s : State) (w : Nat) : Bool := decide (s.budget.toNat < w)

/-- A predicate's answer in `result` (R106): 1 if it holds, else 0. -/
def boolWord (b : Bool) : Word := if b then 1 else 0

/-- The 4-bit status codes (R340). -/
def Status.code : Status → BitVec 4
  | .ok => 0
  | .bufferOverrun => 1
  | .budgetExhausted => 2
  | .invalidRange => 3
  | .outOfRange => 4
  | .alignmentFault => 5
  | .invalidWidth => 6
  | .stringCapacity => 7
  | .illegalCommand => 8
  | .notReady => 9

/-- The 2-bit phase codes (R30, R33). -/
def Phase.code : Phase → BitVec 2
  | .unbound => 0
  | .active => 1
  | .done => 2
  | .failed => 3

end Sys2Proof.Machine
end

