-- ==== Sys2Proof/Machine/Memory.lean ====
section
/-! DEFINITION. The buffer memory (spec/20_memory.md R70 to R80): one canonical list of written byte lanes, the read
and write of one lane, and the whole-word read and write that every access of the engine and of the host is. -/

namespace Sys2Proof.Machine

/-- The canonical form: lane addresses strictly rise. A lane that is not listed was never written since power-on
(it has no value of its own, so no entry can repeat one), and a listed lane holds the byte last written to it. -/
def Memory.wf : Memory → Bool
  | [] => true
  | [_] => true
  | x :: y :: rest => decide (x.1 < y.1) && Memory.wf (y :: rest)

/-- Every listed lane lies in the `n` words that exist (R70). -/
def Memory.within (m : Memory) (n : Nat) : Bool := m.all fun x => decide (x.1 < 4 * n)

/-- The byte last written to lane `a`, none if nothing has written it since power-on. -/
def Memory.lookup : Memory → Nat → Option Byte
  | [], _ => none
  | x :: rest, a => if x.1 = a then some x.2 else Memory.lookup rest a

/-- The byte in lane `a`: what was last written to it, else its free power-on value (R79, R381). -/
def Memory.readByte (m : Memory) (a : Nat) : Byte := (m.lookup a).getD (Config.powerOnByte a)

/-- Write byte `b` to lane `a`, keeping the canonical form. -/
def Memory.writeByte : Memory → Nat → Byte → Memory
  | [], a, b => [(a, b)]
  | x :: rest, a, b =>
    if a < x.1 then (a, b) :: x :: rest
    else if a = x.1 then (a, b) :: rest
    else x :: Memory.writeByte rest a b

/-- The word at index `i` (R9, R73): lane 0 in bits [7:0] up to lane 3 in bits [31:24]. -/
def Memory.readWord (m : Memory) (i : Nat) : Word :=
  m.readByte (4 * i + 3) ++ m.readByte (4 * i + 2) ++ m.readByte (4 * i + 1) ++ m.readByte (4 * i)

/-- Lane `k` of a word (R73): bits `8k+7` to `8k`. -/
def lane (v : Word) (k : Nat) : Byte := v.extractLsb' (8 * k) 8

/-- Replace the whole word at index `i` (R9, R71, R79). -/
def Memory.writeWord (m : Memory) (i : Nat) (v : Word) : Memory :=
  (((m.writeByte (4 * i) (lane v 0)).writeByte (4 * i + 1) (lane v 1)).writeByte (4 * i + 2) (lane v 2)).writeByte
    (4 * i + 3) (lane v 3)

end Sys2Proof.Machine
end

