-- ==== Sys2Proof/Machine/Ops.lean ====
section
/-! DEFINITION. The shared operations: the memory primitives (spec/00_scope.md R9), responses and the failure entry
(spec/60_exceptions.md R341 to R344), the gates a stream command passes (spec/46_stream_control.md R312 to R314), and
the check-then-act primitives every command is built from: WB (R140), RB (R170), the alignment controller (R270 to
R272), WBLK (R273), RBLK (R274), ENCINT (R203) and DECINT (R204). -/

namespace Sys2Proof.Machine

/-! ### Responses and the failure entry -/

/-- Return a response (R108). Nothing but the answer at the command port changes. -/
def State.answer (s : State) (e : Status) (result : Word) (bout : List Byte) : State :=
  { s with reply := some (.response ⟨e, result, bout⟩) }

/-- A non-latching response (R344): `result = 0`, `bout` empty, no state change. -/
def State.respond (s : State) (e : Status) : State := s.answer e 0 []

/-- A response whose `result` is `any` (R342, D21): the next free value is drawn (log entry 3). -/
def State.answerAny (s : State) (e : Status) : State :=
  { s.answer e (Config.failResult s.draws) [] with draws := s.draws + 1 }

/-- `fail(E)`, the failure entry (R342): `ERR` takes the code if it holds OK, `PHASE` becomes FAILED, the response
carries the status, a free result and no bytes, and nothing else changes (R343). There is no return from it (R349):
BIND or reset starts over. -/
def State.fail (s : State) (e : Status) : State :=
  { s.answerAny e with err := if s.err = .ok then e else s.err, phase := .failed }

/-! ### Primitives -/

/-- What a primitive gives (R10): a value and the state after it, or a failure code and the state it leaves, which is
that of the last completed primitive (R343). `absent i` is an access to a buffer word that does not exist (R70). -/
inductive Res (α : Type) where
  | ok (a : α) (s : State)
  | raised (e : Status) (s : State)
  | absent (i : Nat)
deriving DecidableEq, Repr

/-- Go on with the next primitive of a command; a raise or an absent word ends it (R345). -/
def Res.bind {α β : Type} (r : Res α) (k : α → State → Res β) : Res β :=
  match r with
  | .ok a s => k a s
  | .raised e s => .raised e s
  | .absent i => .absent i

/-- `MemRead(i, 4)` (R9): the word at index `i`. -/
def memRead (i : Nat) (s : State) : Res Word :=
  if i < s.bufWords.val then .ok (s.buf.readWord i) s else .absent i

/-- `MemWrite(i, 4, v)` (R9): the whole word at index `i` becomes `v`. -/
def memWrite (i : Nat) (v : Word) (s : State) : Res Unit :=
  if i < s.bufWords.val then .ok () { s with buf := s.buf.writeWord i v } else .absent i

/-- The writer's commit (R140, R143, R71 (a)): the low word of the scratch goes to `BUF[CURSOR]` and `CURSOR`
advances. -/
def commit (s : State) : Res Unit :=
  (memWrite s.cursor.toNat (s.scratch.setWidth 32) s).bind fun _ t => .ok () { t with cursor := t.cursor + 1 }

/-- `WB(v, w)` (R140): append the low `w` bits of `v` to the stream. -/
def writeBits (v : Word) (w : Nat) (s : State) : Res Unit :=
  if 32 < w then .raised .invalidWidth s
  else if s.overrun w then .raised .bufferOverrun s
  else
    let n := s.sbits.toNat + w
    let filled := { s with scratch := s.scratch ||| ((v &&& mask w).setWidth 64 <<< s.sbits.toNat) }
    if 32 ≤ n then
      (commit filled).bind fun _ t => .ok () { t with scratch := t.scratch >>> 32, sbits := BitVec.ofNat 7 (n - 32) }
    else .ok () { filled with sbits := BitVec.ofNat 7 n }

/-- The reader's refill (R170, R71 (b)): when fewer than `w` bits are live, `BUF[CURSOR]` joins the scratch above
them and `CURSOR` advances. -/
def refill (w : Nat) (s : State) : Res Unit :=
  if s.sbits.toNat < w then
    (memRead s.cursor.toNat s).bind fun word t =>
      .ok () { t with scratch := t.scratch ||| (word.setWidth 64 <<< t.sbits.toNat),
                      sbits := BitVec.ofNat 7 (t.sbits.toNat + 32), cursor := t.cursor + 1 }
  else .ok () s

/-- `RB(w)` (R170): take the next `w` stream bits, the first of them as bit 0. -/
def readBits (w : Nat) (s : State) : Res Word :=
  if 32 < w then .raised .invalidWidth s
  else if s.pastEnd w then .raised .budgetExhausted s
  else
    (refill w s).bind fun _ t =>
      .ok (t.scratch.setWidth 32 &&& mask w)
        { t with scratch := t.scratch >>> w, sbits := BitVec.ofNat 7 (t.sbits.toNat - w),
                 budget := BitVec.ofNat 32 (t.budget.toNat - w) }

/-- The alignment controller, write side (R271): zero bits up to the next byte boundary. -/
def alignWrite (s : State) : Res Unit := writeBits 0 (padWidth s.pos) s

/-- The alignment controller, read side (R272): skip the pad; a pad that is not all zero raises AlignmentFault after
it is consumed. -/
def alignRead (s : State) : Res Unit :=
  (readBits (padWidth s.pos) s).bind fun skipped t =>
    if skipped = 0 then .ok () t else .raised .alignmentFault t

/-- The loop of WBLK (R273): each byte as an 8-bit WB, in order. -/
def writeBytes : List Byte → State → Res Unit
  | [], s => .ok () s
  | b :: bs, s => (writeBits (b.setWidth 32) 8 s).bind fun _ t => writeBytes bs t

/-- `WBLK(bs)` (R273): the whole block is checked before its first byte. -/
def writeBlock (bs : List Byte) (s : State) : Res Unit :=
  if 32 * (s.cap.toNat : Int) < s.pos + 8 * (bs.length : Int) then .raised .bufferOverrun s else writeBytes bs s

/-- The loop of RBLK (R274): `n` 8-bit RBs, in order. -/
def readBytes : Nat → State → Res (List Byte)
  | 0, s => .ok [] s
  | n + 1, s =>
    (readBits 8 s).bind fun v t => (readBytes n t).bind fun bs u => .ok (v.setWidth 8 :: bs) u

/-- `RBLK(L)` (R274): the whole block is checked before its first byte. -/
def readBlock (n : Nat) (s : State) : Res (List Byte) :=
  if s.pastEnd (8 * n) then .raised .budgetExhausted s else readBytes n s

/-- `ENCINT(v, lo, hi)` (R203): the code `v − lo` in `BitsForRange(lo, hi)` bits. -/
def encodeInt (v lo hi : Int) (s : State) : Res Unit :=
  if hi < lo then .raised .invalidRange s
  else if v < lo ∨ hi < v then .raised .outOfRange s
  else writeBits (pat32 (v - lo)) (bitsForRange lo hi) s

/-- `DECINT(lo, hi)` (R204): the code is read, then `code + lo` is checked against `hi`. -/
def decodeInt (lo hi : Int) (s : State) : Res Int :=
  if hi < lo then .raised .invalidRange s
  else if s.pastEnd (bitsForRange lo hi) then .raised .budgetExhausted s
  else
    (readBits (bitsForRange lo hi) s).bind fun code t =>
      if hi < (code.toNat : Int) + lo then .raised .outOfRange t else .ok ((code.toNat : Int) + lo) t

/-! ### Dispatch -/

/-- A command that decodes as Illegal (R312, D31): latching while ACTIVE, without effect otherwise. -/
def State.illegal (s : State) : State :=
  if s.phase = .active then s.fail .illegalCommand else s.respond .illegalCommand

/-- The end of a command's body (R312): OK with the body's `result` and `bout`, or `fail(E)` for what it raised. -/
def finish (r : Res (Word × List Byte)) : Host.Outcome State Fault Refusal :=
  match r with
  | .ok out s => .next (s.answer .ok out.1 out.2)
  | .raised e s => .next (s.fail e)
  | .absent i => .fault (.noSuchWord i)

/-- The gates of a stream command (R312): the phase gate (R313), then the direction gate (R314), then the body. -/
def stream (d : Dir) (body : State → Res (Word × List Byte)) (s : State) : Host.Outcome State Fault Refusal :=
  if s.phase ≠ .active then .next (s.respond .notReady)
  else if d ≠ s.dir then .next (s.fail .illegalCommand)
  else finish (body s)

end Sys2Proof.Machine
end

