-- ==== Sys2Proof/Machine/BitReader.lean ====
section
/-! DEFINITION. The BitReader commands of spec/42_bitreader.md: RBITS (R171), RCHK (R172), RFLUSH (R173). -/

namespace Sys2Proof.Machine

/-- RBITS (R171): `result <- RB(WIDTH)`. -/
def execRbits (width : Width) (s : State) : Host.Outcome State Fault Refusal :=
  stream .reader (fun s => (readBits width.toNat s).bind fun v t => .ok (v, []) t) s

/-- RCHK (R172): the budget predicate, for every width; no state changes. -/
def execRchk (width : Width) (s : State) : Host.Outcome State Fault Refusal :=
  stream .reader (fun s => .ok (boolWord (s.pastEnd width.toNat), []) s) s

/-- RFLUSH (R173): no effect; `PHASE` stays ACTIVE. -/
def execRflush (s : State) : Host.Outcome State Fault Refusal :=
  stream .reader (fun s => .ok (0, []) s) s

end Sys2Proof.Machine
end

