-- ==== Sys2Proof/Machine/BitWriter.lean ====
section
/-! DEFINITION. The BitWriter commands of spec/41_bitwriter.md: WBITS (R141), WCHK (R142), WFLUSH (R143). -/

namespace Sys2Proof.Machine

/-- WBITS (R141): `WB(u32(op[0]), WIDTH)`. -/
def execWbits (width : Width) (value : Word) (s : State) : Host.Outcome State Fault Refusal :=
  stream .writer (fun s => (writeBits value width.toNat s).bind fun _ t => .ok (0, []) t) s

/-- WCHK (R142): the overrun predicate, for every width; no state changes. -/
def execWchk (width : Width) (s : State) : Host.Outcome State Fault Refusal :=
  stream .writer (fun s => .ok (boolWord (s.overrun width.toNat), []) s) s

/-- The effect of WFLUSH (R143): a partial trailing word is committed and the scratch emptied, then `PHASE` is DONE. -/
def flush (s : State) : Res Unit :=
  (if s.sbits ≠ 0 then
    (commit s).bind fun _ t => .ok () { t with scratch := 0, sbits := 0 }
  else .ok () s).bind fun _ t => .ok () { t with phase := .done }

/-- WFLUSH (R143): the terminal flush. -/
def execWflush (s : State) : Host.Outcome State Fault Refusal :=
  stream .writer (fun s => (flush s).bind fun _ t => .ok (0, []) t) s

end Sys2Proof.Machine
end

