-- ==== Sys2Proof/Machine/ByteBlock.lean ====
section
/-! DEFINITION. The ByteBlockCodec commands of spec/45_byteblock.md: WALIGN (R271), RALIGN (R272), WBYTES (R275),
RBYTES (R276), WSTR (R277), RSTR (R278). -/

namespace Sys2Proof.Machine

/-- WALIGN (R271). -/
def execWalign (s : State) : Host.Outcome State Fault Refusal :=
  stream .writer (fun s => (alignWrite s).bind fun _ t => .ok (0, []) t) s

/-- RALIGN (R272). -/
def execRalign (s : State) : Host.Outcome State Fault Refusal :=
  stream .reader (fun s => (alignRead s).bind fun _ t => .ok (0, []) t) s

/-- WBYTES (R275): align, then the block. A legal command has `len(bin) = op[0]` (R107), so the length operand adds
nothing to the bytes (log entry 9). -/
def execWbytes (_len : Word) (bytes : List Byte) (s : State) : Host.Outcome State Fault Refusal :=
  stream .writer (fun s =>
    (alignWrite s).bind fun _ t => (writeBlock bytes t).bind fun _ u => .ok (0, []) u) s

/-- RBYTES (R276): align, then the block. -/
def execRbytes (len : Word) (s : State) : Host.Outcome State Fault Refusal :=
  stream .reader (fun s =>
    (alignRead s).bind fun _ t => (readBlock len.toNat t).bind fun bs u => .ok (0, bs) u) s

/-- WSTR (R277): the length as a 32-bit code at the current bit position, then align, then the block. -/
def execWstr (len : Word) (bytes : List Byte) (s : State) : Host.Outcome State Fault Refusal :=
  stream .writer (fun s =>
    (encodeInt (len.toNat : Int) 0 uint32Max s).bind fun _ t =>
      (alignWrite t).bind fun _ u => (writeBlock bytes u).bind fun _ w => .ok (0, []) w) s

/-- RSTR (R278): the length, the check against the destination capacity, align, the block, and the bytes with a
terminator 0x00. -/
def execRstr (dcap : Word) (s : State) : Host.Outcome State Fault Refusal :=
  stream .reader (fun s =>
    (decodeInt 0 uint32Max s).bind fun len t =>
      if (dcap.toNat : Int) ≤ len then .raised .stringCapacity t
      else
        (alignRead t).bind fun _ u =>
          (readBlock len.toNat u).bind fun bs w => .ok (pat32 len, bs ++ [0x00]) w) s

end Sys2Proof.Machine
end

