-- ==== Sys2Proof/Machine/Float.lean ====
section
/-! DEFINITION. The binary32 primitives of spec/00_scope.md R11, over bit patterns (spec/44_floatcodec.md R230: 1 sign
bit, 8 exponent bits with bias 127, 23 fraction bits). A finite value is exactly an integer number of units of
2^-149, the smallest subnormal; every operation computes its exact result as a quotient of two naturals in those
units and rounds once, to nearest with ties to even (log entry 11). -/

namespace Sys2Proof.Machine

/-- The sign bit. -/
def F32.sign (x : Word) : Bool := x.getLsbD 31

/-- The biased exponent. -/
def F32.expo (x : Word) : Nat := x.toNat / 2 ^ 23 % 2 ^ 8

/-- The fraction field. -/
def F32.frac (x : Word) : Nat := x.toNat % 2 ^ 23

/-- `isNaN` (R11). -/
def F32.isNaN (x : Word) : Bool := F32.expo x == 255 && F32.frac x != 0

/-- `isInf` (R11). -/
def F32.isInf (x : Word) : Bool := F32.expo x == 255 && F32.frac x == 0

/-- `isFinite` (R11). -/
def F32.isFinite (x : Word) : Bool := F32.expo x != 255

/-- The magnitude in units of 2^-149, subnormals kept. For an infinity it is 2^277, above every finite magnitude. -/
def F32.mag (x : Word) : Nat :=
  if F32.expo x = 0 then F32.frac x else (2 ^ 23 + F32.frac x) * 2 ^ (F32.expo x - 1)

/-- The signed value in units of 2^-149; −0 and +0 are both 0. -/
def F32.value (x : Word) : Int := if F32.sign x then -(F32.mag x : Int) else (F32.mag x : Int)

/-- The ordered comparison `x < y` (R11): false on NaN, `−0 = +0`. -/
def F32.lt (x y : Word) : Bool := !F32.isNaN x && !F32.isNaN y && decide (F32.value x < F32.value y)

/-- The ordered comparison `x ≤ y` (R11). -/
def F32.le (x y : Word) : Bool := !F32.isNaN x && !F32.isNaN y && decide (F32.value x ≤ F32.value y)

/-- `p / q` rounded to the nearest natural, ties to even. -/
def roundHalfEven (p q : Nat) : Nat :=
  if 2 * (p % q) < q then p / q
  else if q < 2 * (p % q) then p / q + 1
  else if p / q % 2 = 0 then p / q else p / q + 1

/-- The pattern, without sign, of the magnitude `p / q` in units of 2^-149 rounded to binary32 (R11). With `k` the
exponent step of `p / q`, the pattern of `m · 2^k` is `k · 2^23 + m`; a carry out of `m` raises the exponent by
itself, and what lies beyond the largest finite magnitude is the infinity 0x7F800000. -/
def F32.roundPattern (p q : Nat) : Nat :=
  let k := Nat.log2 (p / q) - 23
  min (k * 2 ^ 23 + roundHalfEven p (q * 2 ^ k)) 0x7F800000

/-- A pattern with a sign. -/
def F32.pack (neg : Bool) (pattern : Nat) : Word :=
  BitVec.ofNat 32 (if neg then 2 ^ 31 + pattern else pattern)

/-- The quiet NaN of an operation with no numeric answer; sign and payload are free (log entry 4). -/
def F32.nan (x y : Word) : Word := 0x7FC00000 ||| (Config.nanBits x y &&& 0x803FFFFF)

/-- The same value with the other sign. -/
def F32.neg (x : Word) : Word := x ^^^ 0x80000000

/-- `f32_add` (R11). An exact zero sum is −0 only when both operands are −0. -/
def F32.add (x y : Word) : Word :=
  if F32.isNaN x || F32.isNaN y then F32.nan x y
  else if F32.isInf x then (if F32.isInf y && F32.sign x != F32.sign y then F32.nan x y else x)
  else if F32.isInf y then y
  else if F32.value x + F32.value y = 0 then F32.pack (F32.sign x && F32.sign y) 0
  else F32.pack (decide (F32.value x + F32.value y < 0)) (F32.roundPattern (F32.value x + F32.value y).natAbs 1)

/-- `f32_sub` (R11). -/
def F32.sub (x y : Word) : Word :=
  if F32.isNaN x || F32.isNaN y then F32.nan x y else F32.add x (F32.neg y)

/-- `f32_mul` (R11). -/
def F32.mul (x y : Word) : Word :=
  let neg := F32.sign x != F32.sign y
  if F32.isNaN x || F32.isNaN y then F32.nan x y
  else if F32.isInf x || F32.isInf y then
    (if F32.mag x = 0 ∨ F32.mag y = 0 then F32.nan x y else F32.pack neg 0x7F800000)
  else F32.pack neg (F32.roundPattern (F32.mag x * F32.mag y) (2 ^ 149))

/-- `f32_div` (R11). -/
def F32.div (x y : Word) : Word :=
  let neg := F32.sign x != F32.sign y
  if F32.isNaN x || F32.isNaN y then F32.nan x y
  else if F32.isInf x then (if F32.isInf y then F32.nan x y else F32.pack neg 0x7F800000)
  else if F32.isInf y then F32.pack neg 0
  else if F32.mag y = 0 then (if F32.mag x = 0 then F32.nan x y else F32.pack neg 0x7F800000)
  else F32.pack neg (F32.roundPattern (F32.mag x * 2 ^ 149) (F32.mag y))

/-- `f32(n)` (R11): a non-negative integer converted to binary32. -/
def F32.ofNat (n : Nat) : Word := F32.pack false (F32.roundPattern (n * 2 ^ 149) 1)

/-- `floor(x)` of a finite value (R11). -/
def F32.floor (x : Word) : Int := F32.value x / 2 ^ 149

/-- `ceil(x)` of a finite value (R11). -/
def F32.ceil (x : Word) : Int := -(-(F32.value x) / 2 ^ 149)

/-- The constant `0.0` (R11). -/
abbrev F32.zero : Word := 0x00000000

/-- The constant `0.5` (R11). -/
abbrev F32.half : Word := 0x3F000000

/-- The constant `1.0` (R11). -/
abbrev F32.one : Word := 0x3F800000

end Sys2Proof.Machine
end

