-- ==== Sys2Proof/Machine/Quantizer.lean ====
section
/-! DEFINITION. The quantized float functions of spec/44_floatcodec.md: QParams (R231), QEncode (R232) and QDecode
(R233), all of it in binary32 (R230). -/

namespace Sys2Proof.Machine

/-- `QParams(mn, mx, res)` (R231): `delta` and `steps`, or none where the rule raises InvalidRange. -/
def qParams (mn mx res : Word) : Option (Word × Nat) :=
  let delta := F32.sub mx mn
  let q := F32.div delta res
  if !(F32.isFinite mn && F32.isFinite mx && F32.isFinite res) then none
  else if !F32.lt F32.zero res then none
  else if F32.lt mx mn then none
  else if F32.isInf delta then none
  else if F32.isInf q then none
  else if (4294967295 : Int) < F32.ceil q then none
  else some (delta, (F32.ceil q).toNat)

/-- The clamp of R232 to `[0, 1]`. -/
def clampUnit (n : Word) : Word :=
  let n := if F32.lt n F32.zero then F32.zero else n
  if F32.lt F32.one n then F32.one else n

/-- `QEncode` (R232) for a value that is no NaN and a spec with `delta` and `steps`: the code, in `[0, steps]`. -/
def qEncode (v mn delta : Word) (steps : Nat) : Nat :=
  if steps = 0 then 0
  else
    let n := clampUnit (F32.div (F32.sub v mn) delta)
    let t := F32.add (F32.mul n (F32.ofNat steps)) F32.half
    min (F32.floor t).toNat steps

/-- The clamp of R233 into `[mn, mx]`. -/
def clampInto (r mn mx : Word) : Word :=
  let r := if F32.lt r mn then mn else r
  if F32.lt mx r then mx else r

/-- `QDecode` (R233) of a code for a spec with `delta` and `steps`. -/
def qDecode (code : Nat) (mn mx delta : Word) (steps : Nat) : Word :=
  if steps = 0 then mn
  else clampInto (F32.add (F32.mul (F32.div (F32.ofNat code) (F32.ofNat steps)) delta) mn) mn mx

/-- The body of WQF (R236): QParams, then the NaN check, then ENCINT over `[0, steps]`. -/
def quantizeOut (v mn mx res : Word) (s : State) : Res Unit :=
  match qParams mn mx res with
  | none => .raised .invalidRange s
  | some (delta, steps) =>
    if F32.isNaN v then .raised .outOfRange s
    else encodeInt (qEncode v mn delta steps : Nat) 0 (steps : Nat) s

/-- The body of RQF (R237): QParams, then DECINT over `[0, steps]`, then QDecode. -/
def quantizeIn (mn mx res : Word) (s : State) : Res Word :=
  match qParams mn mx res with
  | none => .raised .invalidRange s
  | some (delta, steps) =>
    (decodeInt 0 (steps : Nat) s).bind fun code t => .ok (qDecode code.toNat mn mx delta steps) t

end Sys2Proof.Machine
end

