-- ==== Sys2Proof/Machine/FloatCodec.lean ====
section
/-! DEFINITION. The FloatCodec commands of spec/44_floatcodec.md: WF32 (R234), RF32 (R235), WQF (R236), RQF (R237). -/

namespace Sys2Proof.Machine

/-- WF32 (R234): the 32 bits of the operand, verbatim. -/
def execWf32 (bits : Word) (s : State) : Host.Outcome State Fault Refusal :=
  stream .writer (fun s => (writeBits bits 32 s).bind fun _ t => .ok (0, []) t) s

/-- RF32 (R235): the next 32 stream bits, verbatim. -/
def execRf32 (s : State) : Host.Outcome State Fault Refusal :=
  stream .reader (fun s => (readBits 32 s).bind fun v t => .ok (v, []) t) s

/-- WQF (R236): write a quantized float. -/
def execWqf (v mn mx res : Word) (s : State) : Host.Outcome State Fault Refusal :=
  stream .writer (fun s => (quantizeOut v mn mx res s).bind fun _ t => .ok (0, []) t) s

/-- RQF (R237): read a quantized float. -/
def execRqf (mn mx res : Word) (s : State) : Host.Outcome State Fault Refusal :=
  stream .reader (fun s => (quantizeIn mn mx res s).bind fun v t => .ok (v, []) t) s

end Sys2Proof.Machine
end

