-- ==== Sys2Proof/Machine/RangeCodec.lean ====
section
/-! DEFINITION. The RangeCodec commands of spec/43_rangecodec.md: BFR (R202), WINT (R205), RINT (R206). -/

namespace Sys2Proof.Machine

/-- BFR (R202): a pure calculator, run in every phase and direction. `min > max` is InvalidRange, not latched. -/
def execBfr (sg : Sign) (lo hi : Word) (s : State) : Host.Outcome State Fault Refusal :=
  if intOperand sg hi < intOperand sg lo then .next (s.respond .invalidRange)
  else .next (s.answer .ok (BitVec.ofNat 32 (bitsForRange (intOperand sg lo) (intOperand sg hi))) [])

/-- WINT (R205): ENCINT of the three operands read by S. -/
def execWint (sg : Sign) (value lo hi : Word) (s : State) : Host.Outcome State Fault Refusal :=
  stream .writer (fun s =>
    (encodeInt (intOperand sg value) (intOperand sg lo) (intOperand sg hi) s).bind fun _ t => .ok (0, []) t) s

/-- RINT (R206): DECINT of the two operands read by S, its value given as a 32-bit pattern. -/
def execRint (sg : Sign) (lo hi : Word) (s : State) : Host.Outcome State Fault Refusal :=
  stream .reader (fun s =>
    (decodeInt (intOperand sg lo) (intOperand sg hi) s).bind fun v t => .ok (pat32 v, []) t) s

end Sys2Proof.Machine
end

