-- ==== Sys2Proof/Machine/StreamControl.lean ====
section
/-! DEFINITION. BIND (spec/46_stream_control.md R316): the hardware form of constructing a Writer or a Reader. -/

namespace Sys2Proof.Machine

/-- `32·C`, the declared total bit budget of a reader bound with capacity `C`; 0 for a writer (R39, R316). -/
def initialBudget (d : Dir) (c : Word) : Word :=
  match d with
  | .writer => 0
  | .reader => BitVec.ofNat 32 (32 * c.toNat)

/-- BIND (R316). In every phase: a capacity over `BUF_WORDS` is IllegalCommand and leaves the binding FAILED with all
other state unchanged; else a new binding starts. `BUF` is not touched (D17). -/
def execBind (d : Dir) (c : Word) (s : State) : Host.Outcome State Fault Refusal :=
  if s.bufWords.val < c.toNat then
    .next { s.answerAny .illegalCommand with err := .illegalCommand, phase := .failed }
  else
    .next { s.answer .ok 0 [] with
      dir := d, cap := c, cursor := 0, scratch := 0, sbits := 0, budget := initialBudget d c, err := .ok,
      phase := .active }

end Sys2Proof.Machine
end

