-- ==== Sys2Proof/Machine/Dispatch.lean ====
section
/-! DEFINITION. One arm per operation of spec/opcode_table.json. -/

namespace Sys2Proof.Machine

/-- What a legal command does (R312): one meaning per row of the opcode table. -/
def exec (i : Instr) (s : State) : Host.Outcome State Fault Refusal :=
  match i with
  | .bind d c => Sys2Proof.Machine.execBind d c s
  | .wbits w v => Sys2Proof.Machine.execWbits w v s
  | .rbits w => Sys2Proof.Machine.execRbits w s
  | .wchk w => Sys2Proof.Machine.execWchk w s
  | .rchk w => Sys2Proof.Machine.execRchk w s
  | .wflush => Sys2Proof.Machine.execWflush s
  | .rflush => Sys2Proof.Machine.execRflush s
  | .bfr sg lo hi => Sys2Proof.Machine.execBfr sg lo hi s
  | .wint sg v lo hi => Sys2Proof.Machine.execWint sg v lo hi s
  | .rint sg lo hi => Sys2Proof.Machine.execRint sg lo hi s
  | .wf32 v => Sys2Proof.Machine.execWf32 v s
  | .rf32 => Sys2Proof.Machine.execRf32 s
  | .wqf v lo hi res => Sys2Proof.Machine.execWqf v lo hi res s
  | .rqf lo hi res => Sys2Proof.Machine.execRqf lo hi res s
  | .walign => Sys2Proof.Machine.execWalign s
  | .ralign => Sys2Proof.Machine.execRalign s
  | .wbytes len bs => Sys2Proof.Machine.execWbytes len bs s
  | .rbytes len => Sys2Proof.Machine.execRbytes len s
  | .wstr len bs => Sys2Proof.Machine.execWstr len bs s
  | .rstr dcap => Sys2Proof.Machine.execRstr dcap s

end Sys2Proof.Machine
end

