-- ==== Sys2Proof/WellFormed.lean ====
section
/-! DEFINITION. When a term of `Instr` is an operation that a legal command can carry (spec/30_encoding.md R107):
the byte sequence of WBYTES and WSTR has the length its operand names. Every other check of R109 to R111 is carried
by the types of the fields. -/

namespace Sys2Proof

/-- R107: for WBYTES and WSTR, `len(bin) = u32(op[0])`. -/
def Instr.wellFormed : Instr → Bool
  | .wbytes len bytes => bytes.length == len.toNat
  | .wstr len bytes => bytes.length == len.toNat
  | .bind _ _ | .wbits _ _ | .rbits _ | .wchk _ | .rchk _ | .wflush | .rflush | .bfr _ _ _ | .wint _ _ _ _
  | .rint _ _ _ | .wf32 _ | .rf32 | .wqf _ _ _ _ | .rqf _ _ _ | .walign | .ralign | .rbytes _ | .rstr _ => true

end Sys2Proof
end

