-- ==== Sys2Proof/Decode.lean ====
section
/-! DEFINITION. Decoding and encoding BPK-CMD v1 (spec/30_encoding.md): the fields of a command word (R101), the
opcode map (R102), the total decode function with its order of checks (R113), the encoder (R114) and the rows of
spec/opcode_table.json as mask and match. -/

namespace Sys2Proof

/-- The operations of the opcode map (R102), one for each listed OPC value; the D bit picks the write or the read
form. -/
inductive Operation where
  | bind | bits | chk | flush | bfr | int | f32 | qf | align | bytes | str
deriving DecidableEq, Repr

/-- Why a command is Illegal: the first check of R113 that fails. -/
inductive DecodeError where
  /-- Bit [7] or one of bits [31:14] is set (R109). -/
  | reservedBits
  /-- OPC is 0x00 or one of 0x0C to 0x1F (R111). -/
  | reservedOpcode
  /-- S, WIDTH or D is set where the operation has no use for it (R110). -/
  | unusedField
  /-- `len(bin)` is not what the operation takes (R107). -/
  | byteCount
deriving DecidableEq, Repr

/-- OPC, bits [4:0] (R101). -/
def Command.opc (c : Command) : BitVec 5 := c.word.extractLsb' 0 5

/-- D, bit [5] (R101). -/
def Command.dBit (c : Command) : Bool := c.word.getLsbD 5

/-- S, bit [6] (R101). -/
def Command.sBit (c : Command) : Bool := c.word.getLsbD 6

/-- WIDTH, bits [13:8] (R101, R105). -/
def Command.width (c : Command) : Width := c.word.extractLsb' 8 6

/-- Whether a reserved bit, [7] or [31:14], is set (R101, R109). -/
def Command.reservedSet (c : Command) : Bool := c.word.getLsbD 7 || c.word.extractLsb' 14 18 != 0

/-- The direction the D bit names (R103). -/
def Command.dir (c : Command) : Dir := if c.dBit then .reader else .writer

/-- The signedness the S bit names (R104). -/
def Command.sign (c : Command) : Sign := if c.sBit then .signed else .unsigned

/-- The opcode map (R102); every other OPC value is reserved (R111). -/
def Operation.ofOpc (opc : BitVec 5) : Option Operation :=
  match opc.toNat with
  | 0x01 => some .bind
  | 0x02 => some .bits
  | 0x03 => some .chk
  | 0x04 => some .flush
  | 0x05 => some .bfr
  | 0x06 => some .int
  | 0x07 => some .f32
  | 0x08 => some .qf
  | 0x09 => some .align
  | 0x0A => some .bytes
  | 0x0B => some .str
  | _ => none

/-- The operations that read S (R104). -/
def Operation.usesS (op : Operation) : Bool := op == .bfr || op == .int

/-- The operations that read WIDTH (R105). -/
def Operation.usesWidth (op : Operation) : Bool := op == .bits || op == .chk

/-- R110: a field is set that the operation has no use for. -/
def Command.unusedSet (c : Command) (op : Operation) : Bool :=
  (c.sBit && !op.usesS) || (c.width != 0 && !op.usesWidth) || (c.dBit && op == .bfr)

/-- R107: how many bytes `bin` must hold: `u32(op[0])` for WBYTES and WSTR, none for every other operation. -/
def Command.binLength (c : Command) (op : Operation) : Nat :=
  if (op == .bytes || op == .str) && !c.dBit then c.op0.toNat else 0

/-- The row of the opcode table that an operation and a direction select (R102), with the operands of R106. -/
def Command.instr (c : Command) (op : Operation) : Instr :=
  match op, c.dir with
  | .bind, d => .bind d c.op0
  | .bits, .writer => .wbits c.width c.op0
  | .bits, .reader => .rbits c.width
  | .chk, .writer => .wchk c.width
  | .chk, .reader => .rchk c.width
  | .flush, .writer => .wflush
  | .flush, .reader => .rflush
  | .bfr, _ => .bfr c.sign c.op1 c.op2
  | .int, .writer => .wint c.sign c.op0 c.op1 c.op2
  | .int, .reader => .rint c.sign c.op1 c.op2
  | .f32, .writer => .wf32 c.op0
  | .f32, .reader => .rf32
  | .qf, .writer => .wqf c.op0 c.op1 c.op2 c.op3
  | .qf, .reader => .rqf c.op1 c.op2 c.op3
  | .align, .writer => .walign
  | .align, .reader => .ralign
  | .bytes, .writer => .wbytes c.op0 c.bin
  | .bytes, .reader => .rbytes c.op0
  | .str, .writer => .wstr c.op0 c.bin
  | .str, .reader => .rstr c.op1

/-- `decode(cmd)` (R113): total, with the checks in the order of the rule. An error is `Illegal`. -/
def decode (c : Command) : Except DecodeError Instr :=
  if c.reservedSet then .error .reservedBits
  else
    match Operation.ofOpc c.opc with
    | none => .error .reservedOpcode
    | some op =>
      if c.unusedSet op then .error .unusedField
      else if c.bin.length ≠ c.binLength op then .error .byteCount
      else .ok (c.instr op)

/-! ### The encoder -/

/-- The D bit in place (R101). -/
def Dir.bit : Dir → Word
  | .writer => 0x00000000
  | .reader => 0x00000020

/-- The S bit in place (R101). -/
def Sign.bit : Sign → Word
  | .unsigned => 0x00000000
  | .signed => 0x00000040

/-- The WIDTH field in place (R101): `WIDTH << 8`. -/
def widthBits (w : Width) : Word := w.setWidth 32 <<< 8

/-- The command word of an operation (R114). -/
def Instr.word : Instr → Word
  | .bind d _ => 0x00000001 ||| d.bit
  | .wbits w _ => 0x00000002 ||| widthBits w
  | .rbits w => 0x00000022 ||| widthBits w
  | .wchk w => 0x00000003 ||| widthBits w
  | .rchk w => 0x00000023 ||| widthBits w
  | .wflush => 0x00000004
  | .rflush => 0x00000024
  | .bfr sg _ _ => 0x00000005 ||| sg.bit
  | .wint sg _ _ _ => 0x00000006 ||| sg.bit
  | .rint sg _ _ => 0x00000026 ||| sg.bit
  | .wf32 _ => 0x00000007
  | .rf32 => 0x00000027
  | .wqf _ _ _ _ => 0x00000008
  | .rqf _ _ _ => 0x00000028
  | .walign => 0x00000009
  | .ralign => 0x00000029
  | .wbytes _ _ => 0x0000000A
  | .rbytes _ => 0x0000002A
  | .wstr _ _ => 0x0000000B
  | .rstr _ => 0x0000002B

/-- The four operand words of an operation (R106), 0 in each slot it ignores. -/
def Instr.slots : Instr → Word × Word × Word × Word
  | .bind _ c => (c, 0, 0, 0)
  | .wbits _ v => (v, 0, 0, 0)
  | .rbits _ => (0, 0, 0, 0)
  | .wchk _ => (0, 0, 0, 0)
  | .rchk _ => (0, 0, 0, 0)
  | .wflush => (0, 0, 0, 0)
  | .rflush => (0, 0, 0, 0)
  | .bfr _ lo hi => (0, lo, hi, 0)
  | .wint _ v lo hi => (v, lo, hi, 0)
  | .rint _ lo hi => (0, lo, hi, 0)
  | .wf32 v => (v, 0, 0, 0)
  | .rf32 => (0, 0, 0, 0)
  | .wqf v lo hi res => (v, lo, hi, res)
  | .rqf lo hi res => (0, lo, hi, res)
  | .walign => (0, 0, 0, 0)
  | .ralign => (0, 0, 0, 0)
  | .wbytes l _ => (l, 0, 0, 0)
  | .rbytes l => (l, 0, 0, 0)
  | .wstr l _ => (l, 0, 0, 0)
  | .rstr d => (0, d, 0, 0)

/-- The input byte sequence of an operation (R106): empty except for WBYTES and WSTR (R100). -/
def Instr.bytes : Instr → List Byte
  | .wbytes _ bs => bs
  | .wstr _ bs => bs
  | .bind _ _ | .wbits _ _ | .rbits _ | .wchk _ | .rchk _ | .wflush | .rflush | .bfr _ _ _ | .wint _ _ _ _
  | .rint _ _ _ | .wf32 _ | .rf32 | .wqf _ _ _ _ | .rqf _ _ _ | .walign | .ralign | .rbytes _ | .rstr _ => []

/-- The command that carries an operation (R100, R106, R114). -/
def encode (i : Instr) : Command :=
  { word := i.word, op0 := i.slots.1, op1 := i.slots.2.1, op2 := i.slots.2.2.1, op3 := i.slots.2.2.2, bin := i.bytes }

/-! ### The rows of the opcode table -/

/-- One row of spec/opcode_table.json: a command word belongs to it when `word & mask = match` (R113). -/
structure Row where
  mnemonic : String
  pattern  : Word
  mask     : Word
deriving DecidableEq, Repr

/-- The row of an operation. -/
def Instr.row : Instr → Row
  | .bind _ _ => ⟨"BIND", 0x00000001, 0xFFFFFFDF⟩
  | .wbits _ _ => ⟨"WBITS", 0x00000002, 0xFFFFC0FF⟩
  | .rbits _ => ⟨"RBITS", 0x00000022, 0xFFFFC0FF⟩
  | .wchk _ => ⟨"WCHK", 0x00000003, 0xFFFFC0FF⟩
  | .rchk _ => ⟨"RCHK", 0x00000023, 0xFFFFC0FF⟩
  | .wflush => ⟨"WFLUSH", 0x00000004, 0xFFFFFFFF⟩
  | .rflush => ⟨"RFLUSH", 0x00000024, 0xFFFFFFFF⟩
  | .bfr _ _ _ => ⟨"BFR", 0x00000005, 0xFFFFFFBF⟩
  | .wint _ _ _ _ => ⟨"WINT", 0x00000006, 0xFFFFFFBF⟩
  | .rint _ _ _ => ⟨"RINT", 0x00000026, 0xFFFFFFBF⟩
  | .wf32 _ => ⟨"WF32", 0x00000007, 0xFFFFFFFF⟩
  | .rf32 => ⟨"RF32", 0x00000027, 0xFFFFFFFF⟩
  | .wqf _ _ _ _ => ⟨"WQF", 0x00000008, 0xFFFFFFFF⟩
  | .rqf _ _ _ => ⟨"RQF", 0x00000028, 0xFFFFFFFF⟩
  | .walign => ⟨"WALIGN", 0x00000009, 0xFFFFFFFF⟩
  | .ralign => ⟨"RALIGN", 0x00000029, 0xFFFFFFFF⟩
  | .wbytes _ _ => ⟨"WBYTES", 0x0000000A, 0xFFFFFFFF⟩
  | .rbytes _ => ⟨"RBYTES", 0x0000002A, 0xFFFFFFFF⟩
  | .wstr _ _ => ⟨"WSTR", 0x0000000B, 0xFFFFFFFF⟩
  | .rstr _ => ⟨"RSTR", 0x0000002B, 0xFFFFFFFF⟩

/-- The whole table, in its order. -/
def opcodeRows : List Row :=
  [ Instr.row (.bind .writer 0), Instr.row (.wbits 0 0), Instr.row (.rbits 0), Instr.row (.wchk 0),
    Instr.row (.rchk 0), Instr.row .wflush, Instr.row .rflush, Instr.row (.bfr .unsigned 0 0),
    Instr.row (.wint .unsigned 0 0 0), Instr.row (.rint .unsigned 0 0), Instr.row (.wf32 0), Instr.row .rf32,
    Instr.row (.wqf 0 0 0 0), Instr.row (.rqf 0 0 0), Instr.row .walign, Instr.row .ralign,
    Instr.row (.wbytes 0 []), Instr.row (.rbytes 0), Instr.row (.wstr 0 []), Instr.row (.rstr 0) ]

/-- Whether a command word belongs to a row. -/
def Row.accepts (r : Row) (w : Word) : Bool := w &&& r.mask == r.pattern

/-! ### A command from the bits of its table row -/

/-- The command whose 160 bits are `w`, numbered as the opcode table numbers them: bits [31:0] the command word,
then `op[0]` to `op[3]`; `bin` is empty. Bits from `nbits` on are 0. -/
def Command.ofBits (nbits w : Nat) : Command :=
  let v := w % 2 ^ nbits
  { word := BitVec.ofNat 32 v, op0 := BitVec.ofNat 32 (v / 2 ^ 32), op1 := BitVec.ofNat 32 (v / 2 ^ 64),
    op2 := BitVec.ofNat 32 (v / 2 ^ 96), op3 := BitVec.ofNat 32 (v / 2 ^ 128), bin := [] }

/-- The instruction that the decoder reads from the bits `w` of a table row `nbits` bits wide. -/
def decodeTableWord (nbits w : Nat) : Option Instr := (decode (Command.ofBits nbits w)).toOption

end Sys2Proof
end

