-- ==== Sys2Proof/Machine/Ports.lean ====
section
/-! DEFINITION. The host's other ports (spec/46_stream_control.md R317 to R319, spec/10_state.md R45) and the reset
input (spec/70_reset_and_hazards.md R380). -/

namespace Sys2Proof.Machine

/-- `CsrRead(a)` (R45, R317): the register map; reserved addresses and reserved bits read 0. -/
def State.csr (s : State) (a : Word) : Word :=
  match a.toNat with
  | 0x0 => s.phase.code.setWidth 32 ||| (match s.dir with | .writer => 0 | .reader => 0x00000004)
  | 0x1 => s.err.code.setWidth 32
  | 0x2 => s.cap
  | 0x3 => s.cursor
  | 0x4 => s.scratch.extractLsb' 0 32
  | 0x5 => s.scratch.extractLsb' 32 32
  | 0x6 => s.sbits.setWidth 32
  | 0x7 => s.budget
  | 0x8 => if s.phase = .unbound then 0 else pat32 s.pos
  | 0x9 => BitVec.ofNat 32 s.bufWords.val
  | _ => 0

/-- The CSR port (R317): no side effect on any register. -/
def State.csrRead (s : State) (a : Word) : State := { s with reply := some (.csrValue (s.csr a)) }

/-- `HostRead(i)` (R318): accepted in every phase; an index `≥ BUF_WORDS` reads 0 and is refused (D33). -/
def State.hostRead (s : State) (i : Nat) : State :=
  if i < s.bufWords.val then { s with reply := some (.bufferRead (s.buf.readWord i) true) }
  else { s with reply := some (.bufferRead 0 false) }

/-- `HostWrite(i, v)` (R318, R319): admitted when `i < BUF_WORDS` and `PHASE ≠ ACTIVE`, else refused without
effect. -/
def State.hostWrite (s : State) (i : Nat) (v : Word) : State :=
  if i < s.bufWords.val ∧ s.phase ≠ .active then
    { s with buf := s.buf.writeWord i v, reply := some (.bufferWrite true) }
  else { s with reply := some (.bufferWrite false) }

/-- The reset input (R380): UNBOUND, every register 0, `ERR` OK; `BUF` unchanged (R381). Reset has no answer, so the
last reply stays; so do the events the host has still to bring and the count of free values
(log entry 7). -/
def State.applyReset (s : State) : State :=
  { s with phase := .unbound, dir := .writer, cap := 0, cursor := 0, scratch := 0, sbits := 0, budget := 0,
           err := .ok }

end Sys2Proof.Machine
end

