-- ==== Sys2Proof/Machine/Step.lean ====
section
/-! DEFINITION. One step: the engine serves the host's next event to completion (spec/46_stream_control.md R310 to
R312), and idles when there is none (spec/60_exceptions.md R356). -/

namespace Sys2Proof.Machine

/-- Serve one event of the host (R310): a command is decoded and executed (R312), an access at another port is
answered (R317 to R319), the reset input resets (R380). -/
def serve (ev : HostEvent) (s : State) : Host.Outcome State Fault Refusal :=
  match ev with
  | .command c =>
    match decode c with
    | .ok i => exec i s
    | .error _ => .next s.illegal
  | .csrRead a => .next (s.csrRead a)
  | .hostRead i => .next (s.hostRead i)
  | .hostWrite i v => .next (s.hostWrite i v)
  | .reset => .next s.applyReset

/-- One step (R311): the next event leaves the host's side and is served; with none, nothing changes (R356). -/
def step (s : State) : Host.Outcome State Fault Refusal :=
  match s.port with
  | [] => .next s
  | ev :: rest => serve ev { s with port := rest }

/-- `s` with the command whose bits are `w` (numbered as the opcode table numbers them, `bin` empty) as the host's
next event, so that the next step decodes and runs it. -/
def State.withFetchWord (s : State) (nbits w : Nat) : State :=
  { s with port := .command (Command.ofBits nbits w) :: s.port }

end Sys2Proof.Machine
end

