-- ==== Sys2Proof/Safety.lean ====
section
/-! DEFINITION. The terms in which statements speak of the engine: its invariants (spec/10_state.md R42 to R44), the
bit stream a writer has written and a reader has still to read (spec/20_memory.md R72), what a command leaves
unchanged, how a command fails (spec/60_exceptions.md R342, R343), correct rounding (spec/00_scope.md R11), and a
host's conversation with the engine (spec/46_stream_control.md R321). -/

namespace Sys2Proof.Machine

/-! ### Invariants -/

/-- What holds of every state between commands (R30, R36, R38 to R40, R42 to R44). -/
structure Inv (s : State) : Prop where
  /-- `CAP ≤ BUF_WORDS` (R30). -/
  cap_le : s.cap.toNat ≤ s.bufWords.val
  /-- `SBITS ≤ 31` (R42 (1), R43 (1)). -/
  sbits_le : s.sbits.toNat ≤ 31
  /-- `SCRATCH < 2^SBITS` (R42 (2), R43 (2)). -/
  scratch_lt : s.scratch.toNat < 2 ^ s.sbits.toNat
  /-- A writer's bits fit its capacity (R42 (3)). -/
  writer_room : s.dir = .writer → 32 * s.cursor.toNat + s.sbits.toNat ≤ 32 * s.cap.toNat
  /-- A writer has no budget (R39). -/
  writer_budget : s.dir = .writer → s.budget = 0
  /-- `BUDGET = 32·CAP − 32·CURSOR + SBITS` for a reader (R43 (3)). -/
  reader_budget : s.dir = .reader → s.budget.toNat + 32 * s.cursor.toNat = 32 * s.cap.toNat + s.sbits.toNat
  /-- `CURSOR ≤ CAP` for a reader (R43 (4)). -/
  reader_cursor : s.dir = .reader → s.cursor.toNat ≤ s.cap.toNat
  /-- A reader's position is not negative (R41). -/
  reader_pos : s.dir = .reader → s.sbits.toNat ≤ 32 * s.cursor.toNat
  /-- DONE is a flushed writer (R33, R42 (5)). -/
  done_empty : s.phase = .done → s.dir = .writer ∧ s.sbits = 0 ∧ s.scratch = 0
  /-- UNBOUND has every register 0 (R33, R380). -/
  unbound_zero : s.phase = .unbound →
    s.dir = .writer ∧ s.cap = 0 ∧ s.cursor = 0 ∧ s.scratch = 0 ∧ s.sbits = 0 ∧ s.budget = 0
  /-- `ERR` holds a failure exactly in FAILED (R40, R342). -/
  err_ok : s.err = .ok ↔ s.phase ≠ .failed
  /-- NotReady is never latched (R313). -/
  err_latched : s.err ≠ .notReady
  /-- The memory is in its canonical form. -/
  buf_wf : s.buf.wf = true
  /-- Only words that exist are listed (R70). -/
  buf_within : s.buf.within s.bufWords.val = true

/-! ### The bit stream -/

/-- Stream bit `k` as the buffer holds it (R72): bit `k mod 32` of word `k / 32`. -/
def State.bufBit (s : State) (k : Nat) : Bool := (s.buf.readWord (k / 32)).getLsbD (k % 32)

/-- The bits of a `w`-bit field, first stream bit first (R72). -/
def fieldBits (v : Word) (w : Nat) : List Bool := (List.range w).map v.getLsbD

/-- The bits of one byte of a block (R73). -/
def byteBits (b : Byte) : List Bool := (List.range 8).map b.getLsbD

/-- `n` zero bits, the pad of an alignment (R271). -/
def zeroBits (n : Nat) : List Bool := List.replicate n false

/-- A writer's bit position as a natural (R41). -/
def State.writePos (s : State) : Nat := 32 * s.cursor.toNat + s.sbits.toNat

/-- The pad at the current position (R270), counted on naturals: the bits up to the next multiple of 8. -/
def State.padBits (s : State) : Nat := (8 - s.pos.toNat % 8) % 8

/-- Bit `k` of what a writer has written: in the buffer below `32·CURSOR`, in the scratch from there on (R47). -/
def State.writtenBit (s : State) (k : Nat) : Bool :=
  if k < 32 * s.cursor.toNat then s.bufBit k else s.scratch.getLsbD (k - 32 * s.cursor.toNat)

/-- Everything a writer has written since BIND, oldest bit first. -/
def State.written (s : State) : List Bool := (List.range s.writePos).map s.writtenBit

/-- Bit `k` of what a reader has still to read: the live scratch bits, then the buffer from `CURSOR` on (R37, R47). -/
def State.unreadBit (s : State) (k : Nat) : Bool :=
  if k < s.sbits.toNat then s.scratch.getLsbD k else s.bufBit (32 * s.cursor.toNat + (k - s.sbits.toNat))

/-- Everything a reader may still read, next bit first: `BUDGET` bits (R39). -/
def State.unread (s : State) : List Bool := (List.range s.budget.toNat).map s.unreadBit

/-- R43 (5): while ACTIVE, a reader's live scratch bits are the stream bits `POS .. POS + SBITS − 1` of the buffer. -/
def ScratchMirrors (s : State) : Prop :=
  s.phase = .active → s.dir = .reader → ∀ j < s.sbits.toNat,
    s.scratch.getLsbD j = s.bufBit (32 * s.cursor.toNat - s.sbits.toNat + j)

/-! ### What commands do and leave alone -/

/-- From `s` to `t` a writer appended exactly `bits` and changed nothing else: the stream grew by them, the words from
the old `CURSOR` up to the new one (R146) are the only memory stored to, and every other register is as it was. -/
structure Appended (s t : State) (bits : List Bool) : Prop where
  stream   : t.written = s.written ++ bits
  cursor   : t.cursor.toNat = (s.writePos + bits.length) / 32
  sbits    : t.sbits.toNat = (s.writePos + bits.length) % 32
  scratch  : t.scratch.toNat < 2 ^ t.sbits.toNat
  memory   : ∀ a, a < 4 * s.cursor.toNat ∨ 4 * ((s.writePos + bits.length) / 32) ≤ a →
    t.buf.readByte a = s.buf.readByte a
  phase    : t.phase = s.phase
  dir      : t.dir = s.dir
  cap      : t.cap = s.cap
  budget   : t.budget = s.budget
  err      : t.err = s.err
  bufWords : t.bufWords = s.bufWords
  port     : t.port = s.port
  draws    : t.draws = s.draws

/-- From `s` to `t` a reader consumed exactly `bits` and changed nothing else: they were the next bits to read, the
budget and the position moved by their number, and memory and every other register are as they were. -/
structure Consumed (s t : State) (bits : List Bool) : Prop where
  stream   : s.unread = bits ++ t.unread
  budget   : t.budget.toNat + bits.length = s.budget.toNat
  pos      : t.pos = s.pos + bits.length
  sbits    : t.sbits.toNat ≤ 31
  scratch  : t.scratch.toNat < 2 ^ t.sbits.toNat
  memory   : t.buf = s.buf
  phase    : t.phase = s.phase
  dir      : t.dir = s.dir
  cap      : t.cap = s.cap
  err      : t.err = s.err
  bufWords : t.bufWords = s.bufWords
  port     : t.port = s.port
  draws    : t.draws = s.draws

/-- `t` is `u` with an OK response. -/
def Answered (u t : State) (result : Word) (bout : List Byte) : Prop :=
  t = { u with reply := some (.response ⟨.ok, result, bout⟩) }

/-- The command completes with OK, having appended `bits`; `result` is 0 and `bout` empty (R106). -/
def CompletesAppending (o : Host.Outcome State Fault Refusal) (s : State) (bits : List Bool) : Prop :=
  ∃ u t, Appended s u bits ∧ Answered u t 0 [] ∧ o = .next t

/-- The command completes with OK, having consumed `bits`. -/
def CompletesConsuming (o : Host.Outcome State Fault Refusal) (s : State) (bits : List Bool) (result : Word)
    (bout : List Byte) : Prop :=
  ∃ u t, Consumed s u bits ∧ Answered u t result bout ∧ o = .next t

/-- The command fails with a latching code (R342), in the state `u` its completed primitives left (R343): `ERR` and
`PHASE` change, the response has a `result` that is not fixed and no bytes, and nothing else changes. -/
def FailsFrom (o : Host.Outcome State Fault Refusal) (u : State) (e : Status) : Prop :=
  ∃ result, o = .next { u with
    err := e, phase := .failed, reply := some (.response ⟨e, result, []⟩), draws := u.draws + 1 }

/-- The command answers a status that is not latched (R344): `result = 0`, `bout` empty, no state change. -/
def RefusesWith (o : Host.Outcome State Fault Refusal) (s : State) (e : Status) : Prop :=
  o = .next { s with reply := some (.response ⟨e, 0, []⟩) }

/-- A writer's stream command may run: the invariants hold, `PHASE` is ACTIVE and `DIR` is 0 (R312). -/
structure WriterReady (s : State) : Prop where
  inv   : Inv s
  phase : s.phase = .active
  dir   : s.dir = .writer

/-- A reader's stream command may run (R312). -/
structure ReaderReady (s : State) : Prop where
  inv   : Inv s
  phase : s.phase = .active
  dir   : s.dir = .reader

/-! ### Operand slots (R106) -/

/-- The command carries the operation: its word and bytes, and the value of every operand slot that the operation
reads; the other slots hold anything (R106, I17). -/
def Carries (c : Command) : Instr → Prop
  | .bind d cap => c.word = (Instr.bind d cap).word ∧ c.bin = [] ∧ c.op0 = cap
  | .wbits w v => c.word = (Instr.wbits w v).word ∧ c.bin = [] ∧ c.op0 = v
  | .rbits w => c.word = (Instr.rbits w).word ∧ c.bin = []
  | .wchk w => c.word = (Instr.wchk w).word ∧ c.bin = []
  | .rchk w => c.word = (Instr.rchk w).word ∧ c.bin = []
  | .wflush => c.word = Instr.wflush.word ∧ c.bin = []
  | .rflush => c.word = Instr.rflush.word ∧ c.bin = []
  | .bfr sg lo hi => c.word = (Instr.bfr sg lo hi).word ∧ c.bin = [] ∧ c.op1 = lo ∧ c.op2 = hi
  | .wint sg v lo hi => c.word = (Instr.wint sg v lo hi).word ∧ c.bin = [] ∧ c.op0 = v ∧ c.op1 = lo ∧ c.op2 = hi
  | .rint sg lo hi => c.word = (Instr.rint sg lo hi).word ∧ c.bin = [] ∧ c.op1 = lo ∧ c.op2 = hi
  | .wf32 v => c.word = (Instr.wf32 v).word ∧ c.bin = [] ∧ c.op0 = v
  | .rf32 => c.word = Instr.rf32.word ∧ c.bin = []
  | .wqf v lo hi res =>
    c.word = (Instr.wqf v lo hi res).word ∧ c.bin = [] ∧ c.op0 = v ∧ c.op1 = lo ∧ c.op2 = hi ∧ c.op3 = res
  | .rqf lo hi res => c.word = (Instr.rqf lo hi res).word ∧ c.bin = [] ∧ c.op1 = lo ∧ c.op2 = hi ∧ c.op3 = res
  | .walign => c.word = Instr.walign.word ∧ c.bin = []
  | .ralign => c.word = Instr.ralign.word ∧ c.bin = []
  | .wbytes len bs => c.word = (Instr.wbytes len bs).word ∧ c.bin = bs ∧ c.op0 = len
  | .rbytes len => c.word = (Instr.rbytes len).word ∧ c.bin = [] ∧ c.op0 = len
  | .wstr len bs => c.word = (Instr.wstr len bs).word ∧ c.bin = bs ∧ c.op0 = len
  | .rstr dcap => c.word = (Instr.rstr dcap).word ∧ c.bin = [] ∧ c.op1 = dcap

/-! ### Correct rounding (R11) -/

/-- `z` is the number `p / q` (in units of 2^-149, `q > 0`) rounded to binary32: from half an ulp above the largest
finite magnitude on it is the infinity of that sign; below, it is a finite value at least as near as every other, and
where another is as near, `z` is the even one. R11 states the rounding; the step to an infinity is presumed from
IEEE-754 (log entry 11). -/
def RoundedNearestEven (z : Word) (p : Int) (q : Nat) : Prop :=
  if (2 ^ 25 - 1) * 2 ^ 252 * q ≤ p.natAbs then z = F32.pack (decide (p < 0)) 0x7F800000
  else
    F32.isFinite z = true ∧
      ∀ u, F32.isFinite u = true →
        (F32.value z * q - p).natAbs ≤ (F32.value u * q - p).natAbs ∧
        ((F32.value z * q - p).natAbs = (F32.value u * q - p).natAbs → F32.value u ≠ F32.value z →
          F32.frac z % 2 = 0)

/-! ### Conversations -/

/-- The host brings events one after another (R311); the replies, in order, and the state at the end. None if a step
stops. -/
def converse : List HostEvent → State → Option (List (Option Reply) × State)
  | [], s => some ([], s)
  | ev :: evs, s =>
    match step { s with port := [ev] } with
    | .next t => (converse evs t).map fun (rs, u) => (t.reply :: rs, u)
    | .fault _ => none
    | .refused _ => none

/-- The event of issuing an operation. -/
def issue (i : Instr) : HostEvent := .command (encode i)

/-- The reply of a command that completes with OK. -/
def okReply (result : Word) (bout : List Byte) : Option Reply := some (.response ⟨.ok, result, bout⟩)

end Sys2Proof.Machine
end

