-- ==== Sys2Proof/Certificates/Slice0/Obligations.lean ====
section
/-! DEFINITION. The statements for the provers. Each docstring names the rules of spec/ it formalises; the terms are
those of Sys2Proof/Safety.lean. -/

open Sys2Proof Sys2Proof.Machine

/-! ### Encoding -/

/-- R106, R113, R114: decoding the command that carries a well-formed operation gives that operation, with every field
and operand at every value. -/
def Obligations.DecodeInvertsEncode : Prop :=
  ∀ i : Instr, i.wellFormed = true → decode (encode i) = .ok i

/-- R106, R113, I17: a command decodes to an operation exactly when its word is the operation's, the slots the operation
reads hold its operands and `bin` is what it takes; the slots it ignores hold anything. -/
def Obligations.DecodesExactlyWhatCarriesIt : Prop :=
  ∀ (c : Command) (i : Instr), decode c = .ok i ↔ (i.wellFormed = true ∧ Carries c i)

/-- R107, R109, R110, R111, in the order of R113: which commands are Illegal, and by which check. -/
def Obligations.IllegalByFirstFailingCheck : Prop :=
  ∀ c : Command,
    let w := c.word.toNat
    let opc := w % 32
    let reserved := w / 2 ^ 7 % 2 = 1 ∨ w / 2 ^ 14 ≠ 0
    let unlisted := opc = 0x00 ∨ 0x0C ≤ opc
    let unused := (w / 2 ^ 6 % 2 = 1 ∧ opc ≠ 0x05 ∧ opc ≠ 0x06) ∨
      (w / 2 ^ 8 % 64 ≠ 0 ∧ opc ≠ 0x02 ∧ opc ≠ 0x03) ∨ (w / 2 ^ 5 % 2 = 1 ∧ opc = 0x05)
    let miscounted := c.bin.length ≠
      if (opc = 0x0A ∨ opc = 0x0B) ∧ w / 2 ^ 5 % 2 = 0 then c.op0.toNat else 0
    (decode c = .error .reservedBits ↔ reserved) ∧
    (decode c = .error .reservedOpcode ↔ ¬ reserved ∧ unlisted) ∧
    (decode c = .error .unusedField ↔ ¬ reserved ∧ ¬ unlisted ∧ unused) ∧
    (decode c = .error .byteCount ↔ ¬ reserved ∧ ¬ unlisted ∧ ¬ unused ∧ miscounted)

/-- R113: exactly one row of the opcode table accepts the word of a command that decodes, and it is the row of the
operation decoded. -/
def Obligations.OneTableRowPerLegalWord : Prop :=
  ∀ (c : Command) (i : Instr), decode c = .ok i →
    opcodeRows.filter (fun r => r.accepts c.word) = [i.row]

/-- R114: the three command words the rule gives as examples, and a word of BIND, BFR, RINT, RQF and WSTR. -/
def Obligations.CommandWordSamplesDecode : Prop :=
  decode ⟨0x00000302, 5, 0, 0, 0, []⟩ = .ok (.wbits 3 5) ∧
  decode ⟨0x00002022, 0, 0, 0, 0, []⟩ = .ok (.rbits 32) ∧
  decode ⟨0x00002102, 7, 0, 0, 0, []⟩ = .ok (.wbits 33 7) ∧
  decode ⟨0x00000021, 2, 9, 9, 9, []⟩ = .ok (.bind .reader 2) ∧
  decode ⟨0x00000045, 0, 0xFFFFFFFF, 1, 0, []⟩ = .ok (.bfr .signed 0xFFFFFFFF 1) ∧
  decode ⟨0x00000066, 0, 0xFFFFFFFB, 5, 0, []⟩ = .ok (.rint .signed 0xFFFFFFFB 5) ∧
  decode ⟨0x00000028, 1, 2, 3, 4, []⟩ = .ok (.rqf 2 3 4) ∧
  decode ⟨0x0000000B, 2, 0, 0, 0, [0x48, 0x69]⟩ = .ok (.wstr 2 [0x48, 0x69])

/-- R103, R320: setting D in a legal write-side command and emptying `bin` gives the read form with the same fields and
shared operands. -/
def Obligations.SettingDGivesTheReadForm : Prop :=
  ∀ (c : Command) (i : Instr), decode c = .ok i → i.side = some .writer →
    decode { c with word := c.word ||| 0x00000020, bin := [] } = .ok (i.readForm c.op1) ∧
    (i.readForm c.op1).side = some .reader

/-! ### The command cycle and the ports -/

/-- R311, R312: when the host's next event is a command that decodes to an operation, the step takes the event and is
the operation's meaning. -/
def Obligations.StepRunsTheDecodedCommand : Prop :=
  ∀ (s : State) (c : Command) (rest : List HostEvent) (i : Instr),
    s.port = .command c :: rest → decode c = .ok i → step s = exec i { s with port := rest }

/-- R312, D31: a command that does not decode latches IllegalCommand while ACTIVE, and outside ACTIVE is answered
without any state change. -/
def Obligations.IllegalCommandByPhase : Prop :=
  ∀ (s : State) (c : Command) (rest : List HostEvent) (e : DecodeError),
    s.port = .command c :: rest → decode c = .error e →
    (s.phase = .active → s.err = .ok → FailsFrom (step s) { s with port := rest } .illegalCommand) ∧
    (s.phase ≠ .active → RefusesWith (step s) { s with port := rest } .illegalCommand)

/-- R317, R45, R33, R340: a CSR read answers the register map and changes nothing but the port. -/
def Obligations.CsrPortShowsTheRegisters : Prop :=
  ∀ (s : State) (a : Word) (rest : List HostEvent), s.port = .csrRead a :: rest → Inv s →
    ∃ v : Word, step s = .next { s with port := rest, reply := some (.csrValue v) } ∧
      (a.toNat = 0x0 → v.toNat =
        (match s.phase with | .unbound => 0 | .active => 1 | .done => 2 | .failed => 3) +
        (match s.dir with | .writer => 0 | .reader => 4)) ∧
      (a.toNat = 0x1 → v.toNat =
        match s.err with
        | .ok => 0 | .bufferOverrun => 1 | .budgetExhausted => 2 | .invalidRange => 3 | .outOfRange => 4
        | .alignmentFault => 5 | .invalidWidth => 6 | .stringCapacity => 7 | .illegalCommand => 8 | .notReady => 9) ∧
      (a.toNat = 0x2 → v = s.cap) ∧
      (a.toNat = 0x3 → v = s.cursor) ∧
      (a.toNat = 0x4 → v.toNat = s.scratch.toNat) ∧
      (a.toNat = 0x5 → v = 0 ∧ s.scratch.toNat / 2 ^ 32 = 0) ∧
      (a.toNat = 0x6 → v.toNat = s.sbits.toNat) ∧
      (a.toNat = 0x7 → v = s.budget) ∧
      (a.toNat = 0x8 → (v.toNat : Int) = s.pos ∧ (s.phase = .unbound → v = 0)) ∧
      (a.toNat = 0x9 → v.toNat = s.bufWords.val) ∧
      (0xA ≤ a.toNat → v = 0)

/-- R318, R319, D33: the buffer port. A read in range gives the word, in every phase; a write in range outside ACTIVE
replaces that whole word and no other byte; anything else is refused and changes nothing. -/
def Obligations.BufferPortReadsAndWrites : Prop :=
  ∀ (s : State) (i : Nat) (v : Word) (rest : List HostEvent),
    (s.port = .hostRead i :: rest →
      (i < s.bufWords.val →
        step s = .next { s with port := rest, reply := some (.bufferRead (s.buf.readWord i) true) }) ∧
      (s.bufWords.val ≤ i → step s = .next { s with port := rest, reply := some (.bufferRead 0 false) })) ∧
    (s.port = .hostWrite i v :: rest →
      (i < s.bufWords.val → s.phase ≠ .active →
        ∃ m : Memory, step s = .next { s with port := rest, buf := m, reply := some (.bufferWrite true) } ∧
          m.readWord i = v ∧ ∀ a, a < 4 * i ∨ 4 * i + 4 ≤ a → m.readByte a = s.buf.readByte a) ∧
      (s.bufWords.val ≤ i ∨ s.phase = .active →
        step s = .next { s with port := rest, reply := some (.bufferWrite false) }))

/-- R380, R381: the reset input, in any state: UNBOUND, every register 0, `ERR` OK, `BUF` unchanged; every CSR then reads
0 but BUFWORDS; with no further event the engine waits. -/
def Obligations.ResetInputClearsTheRegisters : Prop :=
  ∀ (s : State) (rest : List HostEvent), s.port = .reset :: rest →
    ∃ t, step s = .next t ∧
      t.phase = .unbound ∧ t.dir = .writer ∧ t.cap = 0 ∧ t.cursor = 0 ∧ t.scratch = 0 ∧ t.sbits = 0 ∧ t.budget = 0 ∧
      t.err = .ok ∧ t.buf = s.buf ∧ t.bufWords = s.bufWords ∧ t.port = rest ∧
      (∀ a : Word, a ≠ 0x9 → t.csr a = 0) ∧ (t.csr 0x9).toNat = s.bufWords.val ∧
      (rest = [] → step t = .next t)

/-- R313: outside ACTIVE every stream command is answered NotReady and changes nothing. -/
def Obligations.PhaseGateAnswersNotReady : Prop :=
  ∀ (i : Instr) (s : State), i.side ≠ none → s.phase ≠ .active → RefusesWith (exec i s) s .notReady

/-- R314: a stream command against the direction of the binding fails with IllegalCommand, and no body step runs. (While
ACTIVE, `ERR` is OK, R342: the premise leaves out only states that break the invariants.) -/
def Obligations.DirectionGateFails : Prop :=
  ∀ (i : Instr) (d : Dir) (s : State), i.side = some d → s.phase = .active → s.err = .ok → s.dir ≠ d →
    FailsFrom (exec i s) s .illegalCommand

/-! ### BIND -/

/-- R316, R39, D28: in every phase, BIND with a capacity the buffer has starts a binding at bit 0. A writer has written
nothing; a reader has the first `32·C` bits of the buffer to read. Nothing else changes, `BUF` included. -/
def Obligations.BindStartsABinding : Prop :=
  ∀ (d : Dir) (c : Word) (s : State), c.toNat ≤ s.bufWords.val →
    ∃ t, exec (.bind d c) s = .next t ∧
      t = { s with phase := .active, dir := d, cap := c, cursor := 0, scratch := 0, sbits := 0, budget := t.budget,
                   err := .ok, reply := okReply 0 [] } ∧
      (d = .writer → t.budget.toNat = 0 ∧ t.written = []) ∧
      (d = .reader → t.budget.toNat = 32 * c.toNat ∧ t.unread = (List.range (32 * c.toNat)).map s.bufBit)

/-- R316, R341: in every phase, BIND with a capacity over `BUF_WORDS` leaves a FAILED binding and changes nothing else. -/
def Obligations.BindOverCapacityFails : Prop :=
  ∀ (d : Dir) (c : Word) (s : State), s.bufWords.val < c.toNat → FailsFrom (exec (.bind d c) s) s .illegalCommand

/-! ### BitWriter and BitReader -/

/-- R140, R141, R146: WBITS of a width up to 32 that fits appends the low `WIDTH` bits of the value, lowest first. -/
def Obligations.WbitsAppendsItsField : Prop :=
  ∀ (s : State) (w : Width) (v : Word), WriterReady s → w.toNat ≤ 32 → s.writePos + w.toNat ≤ 32 * s.cap.toNat →
    CompletesAppending (exec (.wbits w v) s) s (fieldBits v w.toNat)

/-- R170, R171: RBITS of a width up to 32 within the budget takes the next `WIDTH` bits; its result is the field with
those bits, below `2^WIDTH`. -/
def Obligations.RbitsTakesTheNextField : Prop :=
  ∀ (s : State) (w : Width), ReaderReady s → w.toNat ≤ 32 → w.toNat ≤ s.budget.toNat →
    ∃ v : Word, v.toNat < 2 ^ w.toNat ∧ CompletesConsuming (exec (.rbits w) s) s (fieldBits v w.toNat) v []

/-- R141, R171, R346, D29: WBITS and RBITS fail with InvalidWidth on a width over 32, whatever the room; else with
BufferOverrun or BudgetExhausted when the bits do not fit. Nothing but the failure entry changes. -/
def Obligations.FieldCommandsFail : Prop :=
  ∀ (s : State) (w : Width) (v : Word),
    (WriterReady s →
      (32 < w.toNat → FailsFrom (exec (.wbits w v) s) s .invalidWidth) ∧
      (w.toNat ≤ 32 → 32 * s.cap.toNat < s.writePos + w.toNat → FailsFrom (exec (.wbits w v) s) s .bufferOverrun)) ∧
    (ReaderReady s →
      (32 < w.toNat → FailsFrom (exec (.rbits w) s) s .invalidWidth) ∧
      (w.toNat ≤ 32 → s.budget.toNat < w.toNat → FailsFrom (exec (.rbits w) s) s .budgetExhausted))

/-- R142, R172, D22: WCHK and RCHK answer their predicate for every width, with OK, and change nothing. -/
def Obligations.PredicatesAnswerEveryWidth : Prop :=
  ∀ (s : State) (w : Width), s.phase = .active →
    (s.dir = .writer → exec (.wchk w) s = .next { s with
      reply := okReply (if 32 * s.cap.toNat < s.writePos + w.toNat then 1 else 0) [] }) ∧
    (s.dir = .reader → exec (.rchk w) s = .next { s with
      reply := okReply (if s.budget.toNat < w.toNat then 1 else 0) [] })

/-- R143: WFLUSH always completes: the stream, padded with zeros to a whole word, is in the buffer; `CURSOR` counts its
words; the scratch is empty and `PHASE` DONE; the words at and after the new `CURSOR` and all else keep their values. -/
def Obligations.WflushCommitsThePartialWord : Prop :=
  ∀ s : State, WriterReady s →
    ∃ t, exec .wflush s = .next t ∧
      t = { s with phase := .done, cursor := t.cursor, scratch := 0, sbits := 0, buf := t.buf,
                   reply := okReply 0 [] } ∧
      t.cursor.toNat = (s.writePos + 31) / 32 ∧
      (∀ k < 32 * t.cursor.toNat, t.bufBit k = if k < s.writePos then s.writtenBit k else false) ∧
      (∀ a, a < 4 * s.cursor.toNat ∨ 4 * ((s.writePos + 31) / 32) ≤ a → t.buf.readByte a = s.buf.readByte a)

/-- R173: RFLUSH answers OK and changes nothing. -/
def Obligations.RflushChangesNothing : Prop :=
  ∀ s : State, s.phase = .active → s.dir = .reader → exec .rflush s = .next { s with reply := okReply 0 [] }

/-! ### RangeCodec -/

/-- R207 (and R200): the width of a range is the smallest that holds its largest code; the values the rule lists. -/
def Obligations.RangeWidthIsSmallest : Prop :=
  (∀ lo hi : Int, lo ≤ hi → hi - lo < 2 ^ 32 →
    bitsForRange lo hi ≤ 32 ∧ hi - lo ≤ 2 ^ bitsForRange lo hi - 1 ∧
    ∀ n : Nat, hi - lo ≤ 2 ^ n - 1 → bitsForRange lo hi ≤ n) ∧
  (∀ x : Int, bitsForRange x x = 0) ∧
  (∀ n ≤ 32, bitsForRange 0 (2 ^ n - 1) = n) ∧
  (∀ n : Nat, bitsForRange 0 (2 ^ n) = n + 1) ∧
  bitsForRange 0 256 = 9 ∧ bitsForRange 0 127 = 7 ∧ bitsForRange 5 127 = 7 ∧ bitsForRange 121 121 = 0 ∧
  bitsForRange 121 122 = 1

/-- R201, R202, D23: BFR answers the width of its range in every phase and direction; with `min > max` it answers
InvalidRange without latching. Either way nothing changes. -/
def Obligations.BfrCalculatesInEveryPhase : Prop :=
  ∀ (s : State) (sg : Sign) (lo hi : Word),
    let int (x : Word) : Int :=
      match sg with
      | .unsigned => x.toNat
      | .signed => if x.toNat < 2 ^ 31 then (x.toNat : Int) else (x.toNat : Int) - 2 ^ 32
    (int lo ≤ int hi →
      exec (.bfr sg lo hi) s =
        .next { s with reply := okReply (BitVec.ofNat 32 (bitsForRange (int lo) (int hi))) [] }) ∧
    (int hi < int lo → RefusesWith (exec (.bfr sg lo hi) s) s .invalidRange)

/-- R203, R205: WINT of a value in its range, when the code fits, appends `value − min` in the width of the range. -/
def Obligations.WintAppendsItsCode : Prop :=
  ∀ (s : State) (sg : Sign) (v lo hi : Word), WriterReady s →
    intOperand sg lo ≤ intOperand sg v → intOperand sg v ≤ intOperand sg hi →
    s.writePos + bitsForRange (intOperand sg lo) (intOperand sg hi) ≤ 32 * s.cap.toNat →
    ∃ code : Word, (code.toNat : Int) = intOperand sg v - intOperand sg lo ∧
      CompletesAppending (exec (.wint sg v lo hi) s) s
        (fieldBits code (bitsForRange (intOperand sg lo) (intOperand sg hi)))

/-- R204, R206: RINT, when the next bits are a code of a value in the range, takes them and answers that value. -/
def Obligations.RintTakesItsCode : Prop :=
  ∀ (s : State) (sg : Sign) (lo hi code : Word), ReaderReady s → intOperand sg lo ≤ intOperand sg hi →
    let n := bitsForRange (intOperand sg lo) (intOperand sg hi)
    code.toNat < 2 ^ n → s.unread.take n = fieldBits code n →
    intOperand sg lo + code.toNat ≤ intOperand sg hi →
    ∃ v : Word, intOperand sg v = intOperand sg lo + code.toNat ∧
      CompletesConsuming (exec (.rint sg lo hi) s) s (fieldBits code n) v []

/-- R205, R206, R343, R346, D34: the failures of WINT and RINT in their order; OutOfRange of RINT leaves the code
consumed, every other failure leaves all as it was. -/
def Obligations.IntegerCommandsFail : Prop :=
  ∀ (s : State) (sg : Sign) (v lo hi code : Word),
    let n := bitsForRange (intOperand sg lo) (intOperand sg hi)
    (WriterReady s →
      (intOperand sg hi < intOperand sg lo → FailsFrom (exec (.wint sg v lo hi) s) s .invalidRange) ∧
      (intOperand sg lo ≤ intOperand sg hi → intOperand sg v < intOperand sg lo ∨ intOperand sg hi < intOperand sg v →
        FailsFrom (exec (.wint sg v lo hi) s) s .outOfRange) ∧
      (intOperand sg lo ≤ intOperand sg v → intOperand sg v ≤ intOperand sg hi →
        32 * s.cap.toNat < s.writePos + n → FailsFrom (exec (.wint sg v lo hi) s) s .bufferOverrun)) ∧
    (ReaderReady s →
      (intOperand sg hi < intOperand sg lo → FailsFrom (exec (.rint sg lo hi) s) s .invalidRange) ∧
      (intOperand sg lo ≤ intOperand sg hi → s.budget.toNat < n →
        FailsFrom (exec (.rint sg lo hi) s) s .budgetExhausted) ∧
      (intOperand sg lo ≤ intOperand sg hi → code.toNat < 2 ^ n → s.unread.take n = fieldBits code n →
        intOperand sg hi < intOperand sg lo + code.toNat →
        ∃ u, Consumed s u (fieldBits code n) ∧
            FailsFrom (exec (.rint sg lo hi) s) u .outOfRange))

/-! ### FloatCodec -/

/-- R234, R235: WF32 and RF32 move 32 bits verbatim, whatever pattern they are. -/
def Obligations.FloatPassthroughIsVerbatim : Prop :=
  ∀ (s : State) (x : Word),
    (WriterReady s → s.writePos + 32 ≤ 32 * s.cap.toNat →
      CompletesAppending (exec (.wf32 x) s) s (fieldBits x 32)) ∧
    (ReaderReady s → s.unread.take 32 = fieldBits x 32 →
      CompletesConsuming (exec .rf32 s) s (fieldBits x 32) x [])

/-- R234, R235: WF32 and RF32 fail when 32 bits do not fit, with nothing changed. -/
def Obligations.FloatPassthroughFails : Prop :=
  ∀ (s : State) (x : Word),
    (WriterReady s → 32 * s.cap.toNat < s.writePos + 32 → FailsFrom (exec (.wf32 x) s) s .bufferOverrun) ∧
    (ReaderReady s → s.budget.toNat < 32 → FailsFrom (exec .rf32 s) s .budgetExhausted)

/-- R11: `f32_add` and `f32_sub` of finite values are the exact sum and difference rounded to nearest, ties to even.
Presumed from IEEE-754, which R11 only names (log entry 11): an exact zero is `−0` only for two operands that count as
`−0`, and a result too large for a finite value is an infinity. -/
def Obligations.SumsAreCorrectlyRounded : Prop :=
  ∀ x y : Word, F32.isFinite x = true → F32.isFinite y = true →
    RoundedNearestEven (F32.add x y) (F32.value x + F32.value y) 1 ∧
    RoundedNearestEven (F32.sub x y) (F32.value x - F32.value y) 1 ∧
    (F32.value x + F32.value y = 0 →
      F32.add x y = if F32.sign x && F32.sign y then 0x80000000 else 0x00000000) ∧
    (F32.value x - F32.value y = 0 →
      F32.sub x y = if F32.sign x && !F32.sign y then 0x80000000 else 0x00000000)

/-- R11: `f32_mul` of finite values is the exact product rounded to nearest, ties to even. Presumed from IEEE-754, which
R11 only names (log entry 11): the sign is that of the product, also of a zero, and a result too large for a finite
value is an infinity. -/
def Obligations.ProductsAreCorrectlyRounded : Prop :=
  ∀ x y : Word, F32.isFinite x = true → F32.isFinite y = true →
    RoundedNearestEven (F32.mul x y) (F32.value x * F32.value y) (2 ^ 149) ∧
    F32.sign (F32.mul x y) = (F32.sign x != F32.sign y)

/-- R11: `f32_div` of finite values by a value that is not zero is the exact quotient rounded to nearest, ties to even.
Presumed from IEEE-754, which R11 only names (log entry 11): the sign is that of the quotient, also of a zero, and a
result too large for a finite value is an infinity. A zero divisor is left out; QParams never passes one on (R231). -/
def Obligations.QuotientsAreCorrectlyRounded : Prop :=
  ∀ x y : Word, F32.isFinite x = true → F32.isFinite y = true → F32.value y ≠ 0 →
    RoundedNearestEven (F32.div x y) (F32.value x * 2 ^ 149 * (F32.value y).sign) (F32.value y).natAbs ∧
    F32.sign (F32.div x y) = (F32.sign x != F32.sign y)

/-- R11: `f32(n)` is the integer `n` rounded to nearest, ties to even. Presumed from IEEE-754, which R11 only names (log
entry 11): an `n` too large for a finite value becomes an infinity; no `steps` of R231 is that large. -/
def Obligations.ConversionsAreCorrectlyRounded : Prop :=
  ∀ n : Nat, RoundedNearestEven (F32.ofNat n) ((n : Int) * 2 ^ 149) 1

/-- R231: when QParams passes and what it gives: `delta` is 0 exactly when `min = max`, and then there are no steps; the
code of every spec that passes has at most 32 bits. -/
def Obligations.QuantizationSpecGivesItsSteps : Prop :=
  ∀ mn mx res : Word,
    (∀ delta steps, qParams mn mx res = some (delta, steps) ↔
      (F32.isFinite mn = true ∧ F32.isFinite mx = true ∧ F32.isFinite res = true ∧ F32.lt F32.zero res = true ∧
        F32.lt mx mn = false ∧ delta = F32.sub mx mn ∧ F32.isInf delta = false ∧
        F32.isInf (F32.div delta res) = false ∧ F32.ceil (F32.div delta res) ≤ 4294967295 ∧
        (steps : Int) = F32.ceil (F32.div delta res))) ∧
    (∀ delta steps, qParams mn mx res = some (delta, steps) →
      bitsForRange 0 steps ≤ 32 ∧ (F32.value delta = 0 ↔ F32.value mn = F32.value mx) ∧
      (F32.value mn = F32.value mx → steps = 0))

/-- R232, R236: the code lies in `[0, steps]`; a value below `min` has code 0 and a value above `max` code `steps`,
infinities included. That the difference of an infinite value and a finite one, and its quotient, are infinities of
their sign is presumed from IEEE-754, which R11 only names (log entry 11). -/
def Obligations.QuantizerClampsTheValue : Prop :=
  ∀ v mn mx res delta steps, qParams mn mx res = some (delta, steps) → F32.isNaN v = false →
    qEncode v mn delta steps ≤ steps ∧
    (F32.lt v mn = true → qEncode v mn delta steps = 0) ∧
    (F32.lt mx v = true → qEncode v mn delta steps = steps)

/-- R236: WQF of a number under a spec that passes, when the code fits, appends the code in the width of
`[0, steps]`. -/
def Obligations.WqfAppendsItsCode : Prop :=
  ∀ (s : State) (v mn mx res delta : Word) (steps : Nat), WriterReady s → qParams mn mx res = some (delta, steps) →
    F32.isNaN v = false → s.writePos + bitsForRange 0 steps ≤ 32 * s.cap.toNat →
    ∃ code : Word, code.toNat = qEncode v mn delta steps ∧ code.toNat ≤ steps ∧
      CompletesAppending (exec (.wqf v mn mx res) s) s (fieldBits code (bitsForRange 0 steps))

/-- R233, R237, R238: RQF under a spec that passes, when the next bits are a code in `[0, steps]`, takes them and answers
QDecode of the code, a value in `[min, max]`. -/
def Obligations.RqfTakesACodeIntoTheRange : Prop :=
  ∀ (s : State) (mn mx res delta code : Word) (steps : Nat), ReaderReady s → qParams mn mx res = some (delta, steps) →
    code.toNat ≤ steps → s.unread.take (bitsForRange 0 steps) = fieldBits code (bitsForRange 0 steps) →
    ∃ x : Word, x = qDecode code.toNat mn mx delta steps ∧ F32.le mn x = true ∧ F32.le x mx = true ∧
      CompletesConsuming (exec (.rqf mn mx res) s) s (fieldBits code (bitsForRange 0 steps)) x []

/-- R236, R237, R343, R346: the failures of WQF and RQF in their order; OutOfRange of RQF leaves the code consumed, every
other failure leaves all as it was. -/
def Obligations.QuantizedCommandsFail : Prop :=
  ∀ (s : State) (v mn mx res : Word),
    (WriterReady s →
      (qParams mn mx res = none → FailsFrom (exec (.wqf v mn mx res) s) s .invalidRange) ∧
      (∀ delta steps, qParams mn mx res = some (delta, steps) →
        (F32.isNaN v = true → FailsFrom (exec (.wqf v mn mx res) s) s .outOfRange) ∧
        (F32.isNaN v = false → 32 * s.cap.toNat < s.writePos + bitsForRange 0 steps →
          FailsFrom (exec (.wqf v mn mx res) s) s .bufferOverrun))) ∧
    (ReaderReady s →
      (qParams mn mx res = none → FailsFrom (exec (.rqf mn mx res) s) s .invalidRange) ∧
      (∀ delta steps, qParams mn mx res = some (delta, steps) →
        (s.budget.toNat < bitsForRange 0 steps → FailsFrom (exec (.rqf mn mx res) s) s .budgetExhausted) ∧
        (∀ code : Word, code.toNat < 2 ^ bitsForRange 0 steps → steps < code.toNat →
          s.unread.take (bitsForRange 0 steps) = fieldBits code (bitsForRange 0 steps) →
          ∃ u, Consumed s u (fieldBits code (bitsForRange 0 steps)) ∧
            FailsFrom (exec (.rqf mn mx res) s) u .outOfRange)))

/-! ### ByteBlockCodec -/

/-- R270, R271: WALIGN always completes; it appends zero bits up to the next multiple of 8, none at one. -/
def Obligations.WalignPadsToAByte : Prop :=
  ∀ s : State, WriterReady s →
    CompletesAppending (exec .walign s) s (zeroBits s.padBits) ∧ s.padBits < 8 ∧ (s.writePos + s.padBits) % 8 = 0

/-- R270, R272: the pad of a reader always lies within its budget and ends at a multiple of 8; RALIGN over a pad of
zeros takes it and answers OK. -/
def Obligations.RalignSkipsAZeroPad : Prop :=
  ∀ s : State, ReaderReady s →
    s.padBits ≤ s.budget.toNat ∧ (s.pos + s.padBits) % 8 = 0 ∧
    (s.unread.take s.padBits = zeroBits s.padBits →
      CompletesConsuming (exec .ralign s) s (zeroBits s.padBits) 0 [])

/-- R272, R343: RALIGN over a pad with a 1 in it consumes the pad and fails with AlignmentFault. -/
def Obligations.RalignFailsOnANonzeroPad : Prop :=
  ∀ s : State, ReaderReady s → s.unread.take s.padBits ≠ zeroBits s.padBits →
    ∃ u, Consumed s u (s.unread.take s.padBits) ∧ FailsFrom (exec .ralign s) u .alignmentFault

/-- R273, R275: WBYTES of as many bytes as its length operand says (R107), when pad and bytes fit, appends the pad and
then every byte, in order, its bit 0 first. -/
def Obligations.WbytesAppendsItsBytes : Prop :=
  ∀ (s : State) (len : Word) (bs : List Byte), WriterReady s → bs.length = len.toNat →
    s.writePos + s.padBits + 8 * bs.length ≤ 32 * s.cap.toNat →
    CompletesAppending (exec (.wbytes len bs) s) s (zeroBits s.padBits ++ bs.flatMap byteBits)

/-- R274, R276: RBYTES, when the next bits are a zero pad and the bits of `L` bytes, takes them and delivers the
bytes. -/
def Obligations.RbytesDeliversItsBytes : Prop :=
  ∀ (s : State) (len : Word) (bs : List Byte), ReaderReady s → bs.length = len.toNat →
    s.unread.take (s.padBits + 8 * len.toNat) = zeroBits s.padBits ++ bs.flatMap byteBits →
    CompletesConsuming (exec (.rbytes len) s) s (zeroBits s.padBits ++ bs.flatMap byteBits) 0 bs

/-- R275, R276, R343: a block that does not fit moves no byte, but the pad before it stays written or consumed; a pad
with a 1 in it fails first. -/
def Obligations.ByteCommandsFail : Prop :=
  ∀ (s : State) (len : Word) (bs : List Byte),
    (WriterReady s → bs.length = len.toNat → 32 * s.cap.toNat < s.writePos + s.padBits + 8 * bs.length →
      ∃ u, Appended s u (zeroBits s.padBits) ∧
            FailsFrom (exec (.wbytes len bs) s) u .bufferOverrun) ∧
    (ReaderReady s →
      (s.unread.take s.padBits ≠ zeroBits s.padBits →
        ∃ u, Consumed s u (s.unread.take s.padBits) ∧
            FailsFrom (exec (.rbytes len) s) u .alignmentFault) ∧
      (s.unread.take s.padBits = zeroBits s.padBits → s.budget.toNat < s.padBits + 8 * len.toNat →
        ∃ u, Consumed s u (zeroBits s.padBits) ∧
            FailsFrom (exec (.rbytes len) s) u .budgetExhausted))

/-- R277: WSTR of a string whose length is its operand, when all of it fits, appends the 32-bit length at the current
position, the pad, and the bytes. -/
def Obligations.WstrAppendsLengthAndBytes : Prop :=
  ∀ (s : State) (len : Word) (bs : List Byte), WriterReady s → bs.length = len.toNat →
    s.writePos + 32 + s.padBits + 8 * bs.length ≤ 32 * s.cap.toNat →
    CompletesAppending (exec (.wstr len bs) s) s (fieldBits len 32 ++ zeroBits s.padBits ++ bs.flatMap byteBits)

/-- R277, R343: WSTR fails with nothing written when the length does not fit, and with length and pad written when the
bytes do not. -/
def Obligations.WstrFails : Prop :=
  ∀ (s : State) (len : Word) (bs : List Byte), WriterReady s → bs.length = len.toNat →
    (32 * s.cap.toNat < s.writePos + 32 → FailsFrom (exec (.wstr len bs) s) s .bufferOverrun) ∧
    (s.writePos + 32 ≤ 32 * s.cap.toNat → 32 * s.cap.toNat < s.writePos + 32 + s.padBits + 8 * bs.length →
      ∃ u, Appended s u (fieldBits len 32 ++ zeroBits s.padBits) ∧
            FailsFrom (exec (.wstr len bs) s) u .bufferOverrun)

/-- R278: RSTR, when the next bits are a length below the destination capacity, a zero pad and that many bytes, takes
them, answers the length and delivers the bytes and a terminator 0x00. -/
def Obligations.RstrDeliversStringAndTerminator : Prop :=
  ∀ (s : State) (dcap len : Word) (bs : List Byte), ReaderReady s → bs.length = len.toNat → len.toNat < dcap.toNat →
    s.unread.take (32 + s.padBits + 8 * len.toNat) =
      fieldBits len 32 ++ zeroBits s.padBits ++ bs.flatMap byteBits →
    CompletesConsuming (exec (.rstr dcap) s) s (fieldBits len 32 ++ zeroBits s.padBits ++ bs.flatMap byteBits) len
      (bs ++ [0x00])

/-- R278, R343: the failures of RSTR in their order, each with what it leaves consumed. -/
def Obligations.RstrFails : Prop :=
  ∀ (s : State) (dcap len : Word), ReaderReady s →
    (s.budget.toNat < 32 → FailsFrom (exec (.rstr dcap) s) s .budgetExhausted) ∧
    (s.unread.take 32 = fieldBits len 32 →
      (dcap.toNat ≤ len.toNat →
        ∃ u, Consumed s u (fieldBits len 32) ∧
            FailsFrom (exec (.rstr dcap) s) u .stringCapacity) ∧
      (len.toNat < dcap.toNat → (s.unread.drop 32).take s.padBits ≠ zeroBits s.padBits →
        ∃ u, Consumed s u (fieldBits len 32 ++ (s.unread.drop 32).take s.padBits) ∧
            FailsFrom (exec (.rstr dcap) s) u .alignmentFault) ∧
      (len.toNat < dcap.toNat → (s.unread.drop 32).take s.padBits = zeroBits s.padBits →
        s.budget.toNat < 32 + s.padBits + 8 * len.toNat →
        ∃ u, Consumed s u (fieldBits len 32 ++ zeroBits s.padBits) ∧
            FailsFrom (exec (.rstr dcap) s) u .budgetExhausted))

/-- R280, R73: at a word boundary, four bytes become one committed word, the first byte in bits [7:0]. -/
def Obligations.FourBytesMakeOneWord : Prop :=
  ∀ (s : State) (b0 b1 b2 b3 : Byte), WriterReady s → s.sbits = 0 → s.cursor.toNat < s.cap.toNat →
    ∃ t, exec (.wbytes 4 [b0, b1, b2, b3]) s = .next t ∧ t.buf.readWord s.cursor.toNat = b3 ++ b2 ++ b1 ++ b0 ∧
      t.cursor.toNat = s.cursor.toNat + 1 ∧ t.sbits = 0 ∧
      ∀ a, a < 4 * s.cursor.toNat ∨ 4 * s.cursor.toNat + 4 ≤ a → t.buf.readByte a = s.buf.readByte a

/-! ### The whole machine -/

/-- R30, R36 to R44, R145, R174: every step keeps the invariants. -/
def Obligations.EveryStepKeepsTheInvariants : Prop :=
  ∀ s t : State, Inv s → step s = .next t → Inv t

/-- R380: the state after reset satisfies the invariants. -/
def Obligations.ResetSatisfiesTheInvariants : Prop :=
  Inv State.reset ∧ ScratchMirrors State.reset

/-- R145 (3), R174 (3), R83, R356: from a state with the invariants no step ever stops: every event the host can bring is
served, and no access leaves the buffer. -/
def Obligations.NoStepStops : Prop :=
  ∀ s : State, Inv s → ∃ t, step s = .next t

/-- R43 (5): every step keeps a reader's live scratch bits equal to the buffer's bits at its position. -/
def Obligations.EveryStepKeepsTheScratchMirrored : Prop :=
  ∀ s t : State, Inv s → ScratchMirrors s → step s = .next t → ScratchMirrors t

/-- R33, R34, R35: only BIND and reset write `DIR` and `CAP`; the only changes of `PHASE` are BIND to ACTIVE or FAILED, a
completed WFLUSH from ACTIVE to DONE, a failure from ACTIVE to FAILED, and reset to UNBOUND. -/
def Obligations.ControlStateChangesOnlyAsListed : Prop :=
  ∀ s t : State, step s = .next t → t.phase ≠ s.phase ∨ t.dir ≠ s.dir ∨ t.cap ≠ s.cap →
    ∃ ev rest, s.port = ev :: rest ∧
      ((ev = .reset ∧ t.phase = .unbound ∧ t.dir = .writer ∧ t.cap = 0) ∨
       (∃ c d cap, ev = .command c ∧ decode c = .ok (.bind d cap) ∧ (t.phase = .active ∨ t.phase = .failed)) ∨
       (∃ c, ev = .command c ∧ decode c = .ok .wflush ∧ s.phase = .active ∧ t.phase = .done ∧ t.dir = s.dir ∧
        t.cap = s.cap) ∨
       (∃ c, ev = .command c ∧ s.phase = .active ∧ t.phase = .failed ∧ t.err ≠ .ok ∧ t.dir = s.dir ∧
        t.cap = s.cap))

/-- R313, R344, R349, R40: outside ACTIVE, whatever the host brings but BIND, reset and a buffer write, nothing changes
but the port and its answer; so `ERR` keeps the first failure. -/
def Obligations.InactiveEngineKeepsItsState : Prop :=
  ∀ (s t : State) (ev : HostEvent) (rest : List HostEvent), s.phase ≠ .active → s.port = ev :: rest →
    ev ≠ .reset → (∀ i v, ev ≠ .hostWrite i v) →
    (∀ c d cap, ev = .command c → decode c ≠ .ok (.bind d cap)) →
    step s = .next t → t = { s with port := rest, reply := t.reply }

/-- R71, R80: whatever the state, a command that completes or fails changes no byte of the buffer outside the words from
the old `CURSOR` up to the new one; while `DIR` is reader it changes none at all. -/
def Obligations.CommandsStoreOnlyBetweenCursors : Prop :=
  ∀ (i : Instr) (s t : State), exec i s = .next t →
    (∀ a, a < 4 * s.cursor.toNat ∨ 4 * t.cursor.toNat ≤ a → t.buf.readByte a = s.buf.readByte a) ∧
    (s.dir = .reader → t.buf = s.buf)

/-! ### Round trips -/

/-- R175, R146, R384: the host writes any list of fields that fits a binding, flushes, binds a reader over the same
capacity and reads the same widths in the same order: every command answers OK, and every read gives the value it wrote,
cut to its width. -/
def Obligations.FieldsReadBackAsWritten : Prop :=
  ∀ (s : State) (c : Word) (fields : List (Width × Word)), Inv s → c.toNat ≤ s.bufWords.val →
    (∀ f ∈ fields, f.1.toNat ≤ 32) → (fields.map fun f => f.1.toNat).sum ≤ 32 * c.toNat →
    ∃ t, converse
        ([issue (.bind .writer c)] ++ fields.map (fun f => issue (.wbits f.1 f.2)) ++
          [issue .wflush, issue (.bind .reader c)] ++ fields.map (fun f => issue (.rbits f.1))) s =
      some ([okReply 0 []] ++ fields.map (fun _ => okReply 0 []) ++ [okReply 0 [], okReply 0 []] ++
        fields.map (fun f => okReply (f.2 &&& mask f.1.toNat) []), t)

/-- R208: an integer in its range, written after a field of any width, reads back as itself. -/
def Obligations.IntegersReadBackAsWritten : Prop :=
  ∀ (s : State) (c x : Word) (w : Width) (sg : Sign) (v lo hi : Word), Inv s → c.toNat ≤ s.bufWords.val →
    w.toNat ≤ 32 → intOperand sg lo ≤ intOperand sg v → intOperand sg v ≤ intOperand sg hi →
    w.toNat + bitsForRange (intOperand sg lo) (intOperand sg hi) ≤ 32 * c.toNat →
    ∃ t, converse [issue (.bind .writer c), issue (.wbits w x), issue (.wint sg v lo hi), issue .wflush,
        issue (.bind .reader c), issue (.rbits w), issue (.rint sg lo hi)] s =
      some ([okReply 0 [], okReply 0 [], okReply 0 [], okReply 0 [], okReply 0 [],
        okReply (x &&& mask w.toNat) [], okReply v []], t)

/-- R279: a string written after a field of any width reads back, with its terminator, into every destination with a
capacity above its length. -/
def Obligations.StringsReadBackAsWritten : Prop :=
  ∀ (s : State) (c x : Word) (w : Width) (len dcap : Word) (bs : List Byte), Inv s → c.toNat ≤ s.bufWords.val →
    w.toNat ≤ 32 → bs.length = len.toNat → len.toNat < dcap.toNat →
    w.toNat + 32 + (8 - w.toNat % 8) % 8 + 8 * len.toNat ≤ 32 * c.toNat →
    ∃ t, converse [issue (.bind .writer c), issue (.wbits w x), issue (.wstr len bs), issue .wflush,
        issue (.bind .reader c), issue (.rbits w), issue (.rstr dcap)] s =
      some ([okReply 0 [], okReply 0 [], okReply 0 [], okReply 0 [], okReply 0 [],
        okReply (x &&& mask w.toNat) [], okReply len (bs ++ [0x00])], t)
end

