-- ==== Sys2Proof/Laws/Decode.lean ====
section
/-! SUPPORT. The fields of command words as arithmetic on the word's number, the numbers of the encoder's words, and
what `decode` answers by its four checks (spec/30_encoding.md R101, R113, R114). -/

namespace Sys2Proof

/-! ### The fields of a word -/

theorem Command.toNat_opc (c : Command) : c.opc.toNat = c.word.toNat % 32 := by
  simp [Command.opc, BitVec.extractLsb'_toNat]

theorem Command.toNat_width (c : Command) : c.width.toNat = c.word.toNat / 2 ^ 8 % 64 := by
  simp [Command.width, BitVec.extractLsb'_toNat, Nat.shiftRight_eq_div_pow]

theorem Command.dBit_eq (c : Command) : c.dBit = decide (c.word.toNat / 2 ^ 5 % 2 = 1) :=
  Nat.testBit_eq_decide_div_mod_eq

theorem Command.sBit_eq (c : Command) : c.sBit = decide (c.word.toNat / 2 ^ 6 % 2 = 1) :=
  Nat.testBit_eq_decide_div_mod_eq

theorem Command.reservedSet_iff (c : Command) :
    c.reservedSet = true ↔ c.word.toNat / 2 ^ 7 % 2 = 1 ∨ c.word.toNat / 2 ^ 14 ≠ 0 := by
  have h7 : c.word.getLsbD 7 = decide (c.word.toNat / 2 ^ 7 % 2 = 1) := Nat.testBit_eq_decide_div_mod_eq
  have hlt := c.word.isLt
  have h14 : c.word.extractLsb' 14 18 = 0 ↔ c.word.toNat / 2 ^ 14 = 0 := by
    rw [← BitVec.toNat_inj, BitVec.extractLsb'_toNat, Nat.shiftRight_eq_div_pow]
    simp only [BitVec.ofNat_eq_ofNat, BitVec.toNat_ofNat, Nat.zero_mod]; omega
  simp only [Command.reservedSet, h7, Bool.or_eq_true, decide_eq_true_eq, bne_iff_ne, ne_eq, h14]

/-- A command word without reserved bits is its four fields (R101). -/
theorem Command.toNat_word {c : Command} (h : c.reservedSet = false) :
    c.word.toNat = c.opc.toNat + 2 ^ 5 * c.dBit.toNat + 2 ^ 6 * c.sBit.toNat + 2 ^ 8 * c.width.toNat := by
  have hr := mt c.reservedSet_iff.mpr (by simp [h])
  rw [c.toNat_opc, c.toNat_width, c.dBit_eq, c.sBit_eq]
  simp only [Bool.toNat, cond_eq_ite, decide_eq_true_eq] at *
  split <;> split <;> omega

/-- The word of an opcode below 2^8 with a WIDTH field (R114). -/
theorem toNat_or_widthBits {k : Word} (hk : k.toNat < 2 ^ 8) (w : Width) :
    (k ||| widthBits w).toNat = k.toNat + 2 ^ 8 * w.toNat := by
  have hw := w.isLt
  have h : (widthBits w).toNat = w.toNat <<< 8 := by
    simp only [widthBits, BitVec.toNat_shiftLeft, BitVec.toNat_setWidth, Nat.shiftLeft_eq]; omega
  rw [BitVec.toNat_or, h, Nat.or_comm, ← Nat.shiftLeft_add_eq_or_of_lt hk, Nat.shiftLeft_eq]; omega

/-! ### The checks of `decode` (R113) -/

/-- The number of an entry of the opcode map (R102). -/
def Operation.code : Operation → Nat
  | .bind => 0x01
  | .bits => 0x02
  | .chk => 0x03
  | .flush => 0x04
  | .bfr => 0x05
  | .int => 0x06
  | .f32 => 0x07
  | .qf => 0x08
  | .align => 0x09
  | .bytes => 0x0A
  | .str => 0x0B

/-- Every entry of the opcode map, by its number. -/
theorem Operation.ofOpc_eq_some {opc : BitVec 5} {op : Operation} :
    Operation.ofOpc opc = some op ↔ opc.toNat = op.code := by
  have h : ∀ opc : BitVec 5, Operation.ofOpc opc = some op ↔ opc.toNat = op.code := by cases op <;> decide
  exact h opc

/-- The reserved opcodes (R111). -/
theorem Operation.ofOpc_eq_none {opc : BitVec 5} :
    Operation.ofOpc opc = none ↔ opc.toNat = 0x00 ∨ 0x0C ≤ opc.toNat := by
  have h : ∀ opc : BitVec 5, Operation.ofOpc opc = none ↔ opc.toNat = 0x00 ∨ 0x0C ≤ opc.toNat := by decide
  exact h opc

/-- The fields of a word given by its number. -/
theorem Command.fields_of_toNat {c : Command} {op : Operation} {d s : Bool} {w : Width}
    (h : c.word.toNat = op.code + 2 ^ 5 * d.toNat + 2 ^ 6 * s.toNat + 2 ^ 8 * w.toNat) :
    c.reservedSet = false ∧ Operation.ofOpc c.opc = some op ∧ c.dBit = d ∧ c.sBit = s ∧ c.width = w := by
  have hc : op.code < 32 := by cases op <;> decide
  have hw := w.isLt
  have hd : d.toNat ≤ 1 := by cases d <;> decide
  have hs : s.toNat ≤ 1 := by cases s <;> decide
  refine ⟨?_, ?_, ?_, ?_, ?_⟩
  · rw [Bool.eq_false_iff, ne_eq, c.reservedSet_iff]; omega
  · rw [Operation.ofOpc_eq_some, c.toNat_opc]; omega
  · rw [c.dBit_eq]; cases d <;> simp at * <;> omega
  · rw [c.sBit_eq]; cases s <;> simp at * <;> omega
  · apply BitVec.eq_of_toNat_eq; rw [c.toNat_width]; omega

/-- A command decodes to an operation when, and only when, it passes the four checks. -/
theorem decode_eq_ok {c : Command} {i : Instr} :
    decode c = .ok i ↔ c.reservedSet = false ∧ ∃ op, Operation.ofOpc c.opc = some op ∧ c.unusedSet op = false ∧
      c.bin.length = c.binLength op ∧ c.instr op = i := by
  unfold decode
  split
  · simp_all
  · cases hop : Operation.ofOpc c.opc with
    | none => simp_all
    | some op =>
      simp only [Option.some.injEq, exists_eq_left']
      split
      · simp_all
      · split <;> simp_all

end Sys2Proof
end

