-- ==== Sys2Proof/Laws/Memory.lean ====
section
/-! SUPPORT. The laws of the buffer memory: a read after a write, every write keeps the canonical form, equal
memories are equal data, and a word is its four lanes (spec/20_memory.md R73, R79). -/

namespace Sys2Proof.Machine

/-! ### One lane -/

theorem Memory.lookup_writeByte (m : Memory) (a : Nat) (b : Byte) (c : Nat) :
    (m.writeByte a b).lookup c = if c = a then some b else m.lookup c := by
  induction m with
  | nil =>
    by_cases h : a = c
    · simp [writeByte, lookup, h]
    · simp [writeByte, lookup, h, Ne.symm h]
  | cons x rest ih =>
    unfold writeByte
    split
    · by_cases h : a = c
      · simp [lookup, h]
      · simp [lookup, h, Ne.symm h]
    · split
      · rename_i h
        by_cases hc : a = c
        · simp [lookup, hc]
        · have : x.1 ≠ c := h ▸ hc
          simp [lookup, hc, Ne.symm hc, this]
      · rename_i h
        by_cases hx : x.1 = c
        · have : c ≠ a := fun e => h (e ▸ hx.symm)
          simp [lookup, hx, this]
        · simp only [lookup, if_neg hx, ih]

theorem Memory.readByte_writeByte (m : Memory) (a : Nat) (b : Byte) (c : Nat) :
    (m.writeByte a b).readByte c = if c = a then b else m.readByte c := by
  unfold readByte
  rw [lookup_writeByte]
  split <;> rfl

@[simp] theorem Memory.readByte_writeByte_same (m : Memory) (a : Nat) (b : Byte) :
    (m.writeByte a b).readByte a = b := by
  rw [readByte_writeByte, if_pos rfl]

theorem Memory.readByte_writeByte_other (m : Memory) {a c : Nat} (b : Byte) (h : c ≠ a) :
    (m.writeByte a b).readByte c = m.readByte c := by
  rw [readByte_writeByte, if_neg h]

/-! ### The canonical form -/

theorem Memory.wf_cons {x : Host.Cell} {m : Memory} :
    Memory.wf (x :: m) = true ↔ (∀ y ∈ m.head?, x.1 < y.1) ∧ m.wf = true := by
  cases m with
  | nil => simp [wf]
  | cons y rest => simp [wf]

theorem Memory.head_writeByte {m : Memory} {a : Nat} {b : Byte} {y : Host.Cell}
    (h : y ∈ (m.writeByte a b).head?) : y.1 = a ∨ y ∈ m.head? := by
  cases m with
  | nil => simp [writeByte] at h; exact .inl (h ▸ rfl)
  | cons x rest =>
    unfold writeByte at h
    split at h
    · simp at h; exact .inl (h ▸ rfl)
    · split at h
      · simp at h; exact .inl (h ▸ rfl)
      · simp at h; exact .inr (by simp [h])

theorem Memory.wf_writeByte {m : Memory} (a : Nat) (b : Byte) (h : m.wf = true) : (m.writeByte a b).wf = true := by
  induction m with
  | nil => rfl
  | cons x rest ih =>
    obtain ⟨hx, hrest⟩ := wf_cons.mp h
    unfold writeByte
    split
    · rename_i hlt
      exact wf_cons.mpr ⟨by simpa using hlt, h⟩
    · split
      · rename_i he
        exact wf_cons.mpr ⟨fun y hy => he ▸ hx y hy, hrest⟩
      · rename_i hnlt hne
        refine wf_cons.mpr ⟨fun y hy => ?_, ih hrest⟩
        rcases head_writeByte hy with rfl | hy
        · omega
        · exact hx y hy

theorem Memory.mem_writeByte {m : Memory} {a : Nat} {b : Byte} {y : Host.Cell} (h : y ∈ m.writeByte a b) :
    y.1 = a ∨ y ∈ m := by
  induction m with
  | nil => simp [writeByte] at h; exact .inl (h ▸ rfl)
  | cons x rest ih =>
    unfold writeByte at h
    split at h
    · rcases List.mem_cons.mp h with rfl | h
      · exact .inl rfl
      · exact .inr h
    · split at h
      · rcases List.mem_cons.mp h with rfl | h
        · exact .inl rfl
        · exact .inr (List.mem_cons_of_mem _ h)
      · rcases List.mem_cons.mp h with rfl | h
        · exact .inr List.mem_cons_self
        · exact (ih h).imp id (List.mem_cons_of_mem _)

theorem Memory.within_writeByte {m : Memory} {n a : Nat} (b : Byte) (h : m.within n = true) (ha : a < 4 * n) :
    (m.writeByte a b).within n = true := by
  simp only [within, List.all_eq_true, decide_eq_true_eq] at h ⊢
  intro y hy
  rcases mem_writeByte hy with rfl | hy
  · exact ha
  · exact h y hy

theorem Memory.lookup_none_of_lt {m : Memory} {a : Nat} (h : m.wf = true) (ha : ∀ y ∈ m.head?, a < y.1) :
    m.lookup a = none := by
  induction m with
  | nil => rfl
  | cons x rest ih =>
    obtain ⟨hx, hrest⟩ := wf_cons.mp h
    have hax : a < x.1 := ha x (by simp)
    have : x.1 ≠ a := by omega
    rw [lookup, if_neg this]
    exact ih hrest fun y hy => lt_trans hax (hx y hy)

/-- Two canonical memories with the same lanes are the same list. -/
theorem Memory.eq_of_lookup {m₁ m₂ : Memory} (h₁ : m₁.wf = true) (h₂ : m₂.wf = true)
    (h : ∀ a, m₁.lookup a = m₂.lookup a) : m₁ = m₂ := by
  induction m₁ generalizing m₂ with
  | nil =>
    cases m₂ with
    | nil => rfl
    | cons y rest => have := h y.1; simp [lookup] at this
  | cons x rest₁ ih =>
    cases m₂ with
    | nil => have := h x.1; simp [lookup] at this
    | cons y rest₂ =>
      obtain ⟨hx, hr₁⟩ := wf_cons.mp h₁
      obtain ⟨hy, hr₂⟩ := wf_cons.mp h₂
      have hxy : x.1 = y.1 := by
        rcases lt_trichotomy x.1 y.1 with hlt | he | hlt
        · have := h x.1
          rw [lookup, if_pos rfl, lookup_none_of_lt h₂ (by simpa using hlt)] at this
          cases this
        · exact he
        · have := h y.1
          rw [lookup_none_of_lt h₁ (by simpa using hlt), lookup, if_pos rfl] at this
          cases this
      have hb : x.2 = y.2 := by
        have := h x.1
        simpa [lookup, hxy] using this
      have hrest : rest₁ = rest₂ := by
        refine ih hr₁ hr₂ fun a => ?_
        by_cases ha : x.1 = a
        · rw [lookup_none_of_lt hr₁ (ha ▸ hx), lookup_none_of_lt hr₂ (by rw [← ha, hxy]; exact hy)]
        · have := h a
          rw [lookup, lookup, if_neg ha, if_neg (hxy ▸ ha)] at this
          exact this
      rw [hrest, Prod.ext hxy hb]

/-! ### One word -/

theorem Memory.wf_writeWord {m : Memory} (i : Nat) (v : Word) (h : m.wf = true) : (m.writeWord i v).wf = true :=
  wf_writeByte _ _ (wf_writeByte _ _ (wf_writeByte _ _ (wf_writeByte _ _ h)))

theorem Memory.within_writeWord {m : Memory} {n i : Nat} (v : Word) (h : m.within n = true) (hi : i < n) :
    (m.writeWord i v).within n = true :=
  within_writeByte _ (within_writeByte _ (within_writeByte _ (within_writeByte _ h (by omega)) (by omega)) (by omega))
    (by omega)

/-- A lane outside the written word reads as before. -/
theorem Memory.readByte_writeWord_other (m : Memory) {i a : Nat} (v : Word) (h : a < 4 * i ∨ 4 * (i + 1) ≤ a) :
    (m.writeWord i v).readByte a = m.readByte a := by
  unfold writeWord
  rw [readByte_writeByte_other _ _ (by omega), readByte_writeByte_other _ _ (by omega),
    readByte_writeByte_other _ _ (by omega), readByte_writeByte_other _ _ (by omega)]

/-- Lane `k` of the written word holds lane `k` of the value (R73). -/
theorem Memory.readByte_writeWord_lane (m : Memory) (i : Nat) (v : Word) {k : Nat} (hk : k < 4) :
    (m.writeWord i v).readByte (4 * i + k) = lane v k := by
  unfold writeWord
  simp only [readByte_writeByte]
  interval_cases k <;> simp

/-- A word is its four lanes, lane 0 lowest (R73). -/
theorem lanes_eq_word (v : Word) : lane v 3 ++ lane v 2 ++ lane v 1 ++ lane v 0 = v := by
  refine BitVec.eq_of_getLsbD_eq fun j hj => ?_
  simp only [lane, BitVec.getLsbD_append, BitVec.getLsbD_extractLsb']
  grind

/-- A read of the word just written gives its value (R79). -/
@[simp] theorem Memory.readWord_writeWord_same (m : Memory) (i : Nat) (v : Word) :
    (m.writeWord i v).readWord i = v := by
  unfold readWord
  rw [readByte_writeWord_lane m i v (k := 3) (by omega), readByte_writeWord_lane m i v (k := 2) (by omega),
    readByte_writeWord_lane m i v (k := 1) (by omega),
    show (m.writeWord i v).readByte (4 * i) = lane v 0 from readByte_writeWord_lane m i v (k := 0) (by omega)]
  exact lanes_eq_word v

/-- Every other word reads as before (R79). -/
theorem Memory.readWord_writeWord_other (m : Memory) {i j : Nat} (v : Word) (h : j ≠ i) :
    (m.writeWord i v).readWord j = m.readWord j := by
  unfold readWord
  rw [readByte_writeWord_other, readByte_writeWord_other, readByte_writeWord_other, readByte_writeWord_other] <;> omega

/-- Memories that agree on the lanes of a word agree on the word. -/
theorem Memory.readWord_congr {m₁ m₂ : Memory} {i : Nat}
    (h : ∀ a, 4 * i ≤ a → a < 4 * (i + 1) → m₁.readByte a = m₂.readByte a) : m₁.readWord i = m₂.readWord i := by
  unfold readWord
  rw [h _ (by omega) (by omega), h (4 * i + 2) (by omega) (by omega), h (4 * i + 1) (by omega) (by omega),
    h (4 * i) (by omega) (by omega)]

end Sys2Proof.Machine
end

