-- ==== Sys2Proof/Laws/State.lean ====
section
/-! SUPPORT. One lemma per field and update of the state, each true by definition, so that no proof unfolds a record
update. -/

namespace Sys2Proof.Machine

variable (s : State)

/-! ### `State.answer` -/

@[simp] theorem State.answer_phase (e : Status) (r : Word) (b : List Byte) : (s.answer e r b).phase = s.phase := rfl
@[simp] theorem State.answer_dir (e : Status) (r : Word) (b : List Byte) : (s.answer e r b).dir = s.dir := rfl
@[simp] theorem State.answer_cap (e : Status) (r : Word) (b : List Byte) : (s.answer e r b).cap = s.cap := rfl
@[simp] theorem State.answer_cursor (e : Status) (r : Word) (b : List Byte) : (s.answer e r b).cursor = s.cursor := rfl
@[simp] theorem State.answer_scratch (e : Status) (r : Word) (b : List Byte) : (s.answer e r b).scratch = s.scratch := rfl
@[simp] theorem State.answer_sbits (e : Status) (r : Word) (b : List Byte) : (s.answer e r b).sbits = s.sbits := rfl
@[simp] theorem State.answer_budget (e : Status) (r : Word) (b : List Byte) : (s.answer e r b).budget = s.budget := rfl
@[simp] theorem State.answer_err (e : Status) (r : Word) (b : List Byte) : (s.answer e r b).err = s.err := rfl
@[simp] theorem State.answer_buf (e : Status) (r : Word) (b : List Byte) : (s.answer e r b).buf = s.buf := rfl
@[simp] theorem State.answer_bufWords (e : Status) (r : Word) (b : List Byte) : (s.answer e r b).bufWords = s.bufWords := rfl
@[simp] theorem State.answer_port (e : Status) (r : Word) (b : List Byte) : (s.answer e r b).port = s.port := rfl
@[simp] theorem State.answer_reply (e : Status) (r : Word) (b : List Byte) : (s.answer e r b).reply = some (.response ⟨e, r, b⟩) := rfl
@[simp] theorem State.answer_draws (e : Status) (r : Word) (b : List Byte) : (s.answer e r b).draws = s.draws := rfl

/-! ### `State.respond` -/

@[simp] theorem State.respond_phase (e : Status) : (s.respond e).phase = s.phase := rfl
@[simp] theorem State.respond_dir (e : Status) : (s.respond e).dir = s.dir := rfl
@[simp] theorem State.respond_cap (e : Status) : (s.respond e).cap = s.cap := rfl
@[simp] theorem State.respond_cursor (e : Status) : (s.respond e).cursor = s.cursor := rfl
@[simp] theorem State.respond_scratch (e : Status) : (s.respond e).scratch = s.scratch := rfl
@[simp] theorem State.respond_sbits (e : Status) : (s.respond e).sbits = s.sbits := rfl
@[simp] theorem State.respond_budget (e : Status) : (s.respond e).budget = s.budget := rfl
@[simp] theorem State.respond_err (e : Status) : (s.respond e).err = s.err := rfl
@[simp] theorem State.respond_buf (e : Status) : (s.respond e).buf = s.buf := rfl
@[simp] theorem State.respond_bufWords (e : Status) : (s.respond e).bufWords = s.bufWords := rfl
@[simp] theorem State.respond_port (e : Status) : (s.respond e).port = s.port := rfl
@[simp] theorem State.respond_reply (e : Status) : (s.respond e).reply = some (.response ⟨e, 0, []⟩) := rfl
@[simp] theorem State.respond_draws (e : Status) : (s.respond e).draws = s.draws := rfl

/-! ### `State.answerAny` -/

@[simp] theorem State.answerAny_phase (e : Status) : (s.answerAny e).phase = s.phase := rfl
@[simp] theorem State.answerAny_dir (e : Status) : (s.answerAny e).dir = s.dir := rfl
@[simp] theorem State.answerAny_cap (e : Status) : (s.answerAny e).cap = s.cap := rfl
@[simp] theorem State.answerAny_cursor (e : Status) : (s.answerAny e).cursor = s.cursor := rfl
@[simp] theorem State.answerAny_scratch (e : Status) : (s.answerAny e).scratch = s.scratch := rfl
@[simp] theorem State.answerAny_sbits (e : Status) : (s.answerAny e).sbits = s.sbits := rfl
@[simp] theorem State.answerAny_budget (e : Status) : (s.answerAny e).budget = s.budget := rfl
@[simp] theorem State.answerAny_err (e : Status) : (s.answerAny e).err = s.err := rfl
@[simp] theorem State.answerAny_buf (e : Status) : (s.answerAny e).buf = s.buf := rfl
@[simp] theorem State.answerAny_bufWords (e : Status) : (s.answerAny e).bufWords = s.bufWords := rfl
@[simp] theorem State.answerAny_port (e : Status) : (s.answerAny e).port = s.port := rfl
@[simp] theorem State.answerAny_reply (e : Status) : (s.answerAny e).reply = some (.response ⟨e, Config.failResult s.draws, []⟩) := rfl
@[simp] theorem State.answerAny_draws (e : Status) : (s.answerAny e).draws = s.draws + 1 := rfl

/-! ### `State.fail` -/

@[simp] theorem State.fail_phase (e : Status) : (s.fail e).phase = .failed := rfl
@[simp] theorem State.fail_dir (e : Status) : (s.fail e).dir = s.dir := rfl
@[simp] theorem State.fail_cap (e : Status) : (s.fail e).cap = s.cap := rfl
@[simp] theorem State.fail_cursor (e : Status) : (s.fail e).cursor = s.cursor := rfl
@[simp] theorem State.fail_scratch (e : Status) : (s.fail e).scratch = s.scratch := rfl
@[simp] theorem State.fail_sbits (e : Status) : (s.fail e).sbits = s.sbits := rfl
@[simp] theorem State.fail_budget (e : Status) : (s.fail e).budget = s.budget := rfl
@[simp] theorem State.fail_err (e : Status) : (s.fail e).err = if s.err = .ok then e else s.err := rfl
@[simp] theorem State.fail_buf (e : Status) : (s.fail e).buf = s.buf := rfl
@[simp] theorem State.fail_bufWords (e : Status) : (s.fail e).bufWords = s.bufWords := rfl
@[simp] theorem State.fail_port (e : Status) : (s.fail e).port = s.port := rfl
@[simp] theorem State.fail_reply (e : Status) : (s.fail e).reply = some (.response ⟨e, Config.failResult s.draws, []⟩) := rfl
@[simp] theorem State.fail_draws (e : Status) : (s.fail e).draws = s.draws + 1 := rfl

/-! ### `State.csrRead` -/

@[simp] theorem State.csrRead_phase (a : Word) : (s.csrRead a).phase = s.phase := rfl
@[simp] theorem State.csrRead_dir (a : Word) : (s.csrRead a).dir = s.dir := rfl
@[simp] theorem State.csrRead_cap (a : Word) : (s.csrRead a).cap = s.cap := rfl
@[simp] theorem State.csrRead_cursor (a : Word) : (s.csrRead a).cursor = s.cursor := rfl
@[simp] theorem State.csrRead_scratch (a : Word) : (s.csrRead a).scratch = s.scratch := rfl
@[simp] theorem State.csrRead_sbits (a : Word) : (s.csrRead a).sbits = s.sbits := rfl
@[simp] theorem State.csrRead_budget (a : Word) : (s.csrRead a).budget = s.budget := rfl
@[simp] theorem State.csrRead_err (a : Word) : (s.csrRead a).err = s.err := rfl
@[simp] theorem State.csrRead_buf (a : Word) : (s.csrRead a).buf = s.buf := rfl
@[simp] theorem State.csrRead_bufWords (a : Word) : (s.csrRead a).bufWords = s.bufWords := rfl
@[simp] theorem State.csrRead_port (a : Word) : (s.csrRead a).port = s.port := rfl
@[simp] theorem State.csrRead_reply (a : Word) : (s.csrRead a).reply = some (.csrValue (s.csr a)) := rfl
@[simp] theorem State.csrRead_draws (a : Word) : (s.csrRead a).draws = s.draws := rfl

/-! ### `State.applyReset` -/

@[simp] theorem State.applyReset_phase : (s.applyReset).phase = .unbound := rfl
@[simp] theorem State.applyReset_dir : (s.applyReset).dir = .writer := rfl
@[simp] theorem State.applyReset_cap : (s.applyReset).cap = 0 := rfl
@[simp] theorem State.applyReset_cursor : (s.applyReset).cursor = 0 := rfl
@[simp] theorem State.applyReset_scratch : (s.applyReset).scratch = 0 := rfl
@[simp] theorem State.applyReset_sbits : (s.applyReset).sbits = 0 := rfl
@[simp] theorem State.applyReset_budget : (s.applyReset).budget = 0 := rfl
@[simp] theorem State.applyReset_err : (s.applyReset).err = .ok := rfl
@[simp] theorem State.applyReset_buf : (s.applyReset).buf = s.buf := rfl
@[simp] theorem State.applyReset_bufWords : (s.applyReset).bufWords = s.bufWords := rfl
@[simp] theorem State.applyReset_port : (s.applyReset).port = s.port := rfl
@[simp] theorem State.applyReset_reply : (s.applyReset).reply = s.reply := rfl
@[simp] theorem State.applyReset_draws : (s.applyReset).draws = s.draws := rfl

/-! ### `State.withFetchWord` -/

@[simp] theorem State.withFetchWord_phase (n w : Nat) : (s.withFetchWord n w).phase = s.phase := rfl
@[simp] theorem State.withFetchWord_dir (n w : Nat) : (s.withFetchWord n w).dir = s.dir := rfl
@[simp] theorem State.withFetchWord_cap (n w : Nat) : (s.withFetchWord n w).cap = s.cap := rfl
@[simp] theorem State.withFetchWord_cursor (n w : Nat) : (s.withFetchWord n w).cursor = s.cursor := rfl
@[simp] theorem State.withFetchWord_scratch (n w : Nat) : (s.withFetchWord n w).scratch = s.scratch := rfl
@[simp] theorem State.withFetchWord_sbits (n w : Nat) : (s.withFetchWord n w).sbits = s.sbits := rfl
@[simp] theorem State.withFetchWord_budget (n w : Nat) : (s.withFetchWord n w).budget = s.budget := rfl
@[simp] theorem State.withFetchWord_err (n w : Nat) : (s.withFetchWord n w).err = s.err := rfl
@[simp] theorem State.withFetchWord_buf (n w : Nat) : (s.withFetchWord n w).buf = s.buf := rfl
@[simp] theorem State.withFetchWord_bufWords (n w : Nat) : (s.withFetchWord n w).bufWords = s.bufWords := rfl
@[simp] theorem State.withFetchWord_port (n w : Nat) : (s.withFetchWord n w).port = .command (Command.ofBits n w) :: s.port := rfl
@[simp] theorem State.withFetchWord_reply (n w : Nat) : (s.withFetchWord n w).reply = s.reply := rfl
@[simp] theorem State.withFetchWord_draws (n w : Nat) : (s.withFetchWord n w).draws = s.draws := rfl

/-! ### `State.hostRead` and `State.hostWrite` -/

@[simp] theorem State.hostRead_phase (i : Nat) : (s.hostRead i).phase = s.phase := by
  unfold State.hostRead; split <;> rfl
@[simp] theorem State.hostRead_dir (i : Nat) : (s.hostRead i).dir = s.dir := by
  unfold State.hostRead; split <;> rfl
@[simp] theorem State.hostRead_cap (i : Nat) : (s.hostRead i).cap = s.cap := by
  unfold State.hostRead; split <;> rfl
@[simp] theorem State.hostRead_cursor (i : Nat) : (s.hostRead i).cursor = s.cursor := by
  unfold State.hostRead; split <;> rfl
@[simp] theorem State.hostRead_scratch (i : Nat) : (s.hostRead i).scratch = s.scratch := by
  unfold State.hostRead; split <;> rfl
@[simp] theorem State.hostRead_sbits (i : Nat) : (s.hostRead i).sbits = s.sbits := by
  unfold State.hostRead; split <;> rfl
@[simp] theorem State.hostRead_budget (i : Nat) : (s.hostRead i).budget = s.budget := by
  unfold State.hostRead; split <;> rfl
@[simp] theorem State.hostRead_err (i : Nat) : (s.hostRead i).err = s.err := by
  unfold State.hostRead; split <;> rfl
@[simp] theorem State.hostRead_buf (i : Nat) : (s.hostRead i).buf = s.buf := by
  unfold State.hostRead; split <;> rfl
@[simp] theorem State.hostRead_bufWords (i : Nat) : (s.hostRead i).bufWords = s.bufWords := by
  unfold State.hostRead; split <;> rfl
@[simp] theorem State.hostRead_port (i : Nat) : (s.hostRead i).port = s.port := by
  unfold State.hostRead; split <;> rfl
@[simp] theorem State.hostRead_draws (i : Nat) : (s.hostRead i).draws = s.draws := by
  unfold State.hostRead; split <;> rfl
@[simp] theorem State.hostWrite_phase (i : Nat) (v : Word) : (s.hostWrite i v).phase = s.phase := by
  unfold State.hostWrite; split <;> rfl
@[simp] theorem State.hostWrite_dir (i : Nat) (v : Word) : (s.hostWrite i v).dir = s.dir := by
  unfold State.hostWrite; split <;> rfl
@[simp] theorem State.hostWrite_cap (i : Nat) (v : Word) : (s.hostWrite i v).cap = s.cap := by
  unfold State.hostWrite; split <;> rfl
@[simp] theorem State.hostWrite_cursor (i : Nat) (v : Word) : (s.hostWrite i v).cursor = s.cursor := by
  unfold State.hostWrite; split <;> rfl
@[simp] theorem State.hostWrite_scratch (i : Nat) (v : Word) : (s.hostWrite i v).scratch = s.scratch := by
  unfold State.hostWrite; split <;> rfl
@[simp] theorem State.hostWrite_sbits (i : Nat) (v : Word) : (s.hostWrite i v).sbits = s.sbits := by
  unfold State.hostWrite; split <;> rfl
@[simp] theorem State.hostWrite_budget (i : Nat) (v : Word) : (s.hostWrite i v).budget = s.budget := by
  unfold State.hostWrite; split <;> rfl
@[simp] theorem State.hostWrite_err (i : Nat) (v : Word) : (s.hostWrite i v).err = s.err := by
  unfold State.hostWrite; split <;> rfl
@[simp] theorem State.hostWrite_bufWords (i : Nat) (v : Word) : (s.hostWrite i v).bufWords = s.bufWords := by
  unfold State.hostWrite; split <;> rfl
@[simp] theorem State.hostWrite_port (i : Nat) (v : Word) : (s.hostWrite i v).port = s.port := by
  unfold State.hostWrite; split <;> rfl
@[simp] theorem State.hostWrite_draws (i : Nat) (v : Word) : (s.hostWrite i v).draws = s.draws := by
  unfold State.hostWrite; split <;> rfl

theorem State.hostRead_accepted {i : Nat} (h : i < s.bufWords.val) :
    (s.hostRead i).reply = some (.bufferRead (s.buf.readWord i) true) := by
  unfold State.hostRead; rw [if_pos h]

theorem State.hostRead_refused {i : Nat} (h : ¬ i < s.bufWords.val) :
    (s.hostRead i).reply = some (.bufferRead 0 false) := by
  unfold State.hostRead; rw [if_neg h]

theorem State.hostWrite_admitted {i : Nat} (v : Word) (h : i < s.bufWords.val) (hp : s.phase ≠ .active) :
    s.hostWrite i v = { s with buf := s.buf.writeWord i v, reply := some (.bufferWrite true) } := by
  unfold State.hostWrite; rw [if_pos ⟨h, hp⟩]

theorem State.hostWrite_refused {i : Nat} (v : Word) (h : ¬ (i < s.bufWords.val ∧ s.phase ≠ .active)) :
    s.hostWrite i v = { s with reply := some (.bufferWrite false) } := by
  unfold State.hostWrite; rw [if_neg h]

/-! ### `State.illegal` -/

theorem State.illegal_active (h : s.phase = .active) : s.illegal = s.fail .illegalCommand := by
  unfold State.illegal; rw [if_pos h]

theorem State.illegal_inactive (h : s.phase ≠ .active) : s.illegal = s.respond .illegalCommand := by
  unfold State.illegal; rw [if_neg h]

/-! ### Serving one event -/

theorem serve_legal {c : Command} {i : Instr} (h : decode c = .ok i) : serve (.command c) s = exec i s := by
  unfold serve; simp only [h]

theorem serve_illegal {c : Command} {e : DecodeError} (h : decode c = .error e) :
    serve (.command c) s = .next s.illegal := by
  unfold serve; simp only [h]

@[simp] theorem serve_csrRead (a : Word) : serve (.csrRead a) s = .next (s.csrRead a) := rfl
@[simp] theorem serve_hostRead (i : Nat) : serve (.hostRead i) s = .next (s.hostRead i) := rfl
@[simp] theorem serve_hostWrite (i : Nat) (v : Word) : serve (.hostWrite i v) s = .next (s.hostWrite i v) := rfl
@[simp] theorem serve_reset : serve .reset s = .next s.applyReset := rfl

theorem step_idle (h : s.port = []) : step s = .next s := by unfold step; rw [h]

theorem step_event {ev : HostEvent} {rest : List HostEvent} (h : s.port = ev :: rest) :
    step s = serve ev { s with port := rest } := by
  unfold step; rw [h]

/-! ### Primitives in sequence -/

@[simp] theorem Res.bind_ok {α β : Type} (a : α) (t : State) (k : α → State → Res β) :
    (Res.ok a t).bind k = k a t := rfl
@[simp] theorem Res.bind_raised {α β : Type} (e : Status) (t : State) (k : α → State → Res β) :
    (Res.raised e t : Res α).bind k = .raised e t := rfl
@[simp] theorem Res.bind_absent {α β : Type} (i : Nat) (k : α → State → Res β) :
    (Res.absent i : Res α).bind k = .absent i := rfl

/-- A sequence that ends well ran its first primitive well, and the rest from where that one ended. -/
theorem Res.bind_eq_ok {α β : Type} {r : Res α} {k : α → State → Res β} {b : β} {u : State}
    (h : r.bind k = .ok b u) : ∃ a t, r = .ok a t ∧ k a t = .ok b u := by
  cases r with
  | ok a t => exact ⟨a, t, rfl, h⟩
  | raised e t => cases h
  | absent i => cases h

@[simp] theorem finish_ok (out : Word × List Byte) (t : State) :
    finish (.ok out t) = .next (t.answer .ok out.1 out.2) := rfl
@[simp] theorem finish_raised (e : Status) (t : State) : finish (.raised e t) = .next (t.fail e) := rfl
@[simp] theorem finish_absent (i : Nat) : finish (.absent i) = .fault (.noSuchWord i) := rfl

/-! ### The gates -/

/-- R313: outside ACTIVE a stream command is answered NotReady. -/
theorem stream_inactive {d : Dir} {body : State → Res (Word × List Byte)} (h : s.phase ≠ .active) :
    stream d body s = .next (s.respond .notReady) := by
  unfold stream; rw [if_pos h]

/-- R314: against the direction of the binding a stream command fails with IllegalCommand. -/
theorem stream_misdirected {d : Dir} {body : State → Res (Word × List Byte)} (h : s.phase = .active)
    (hd : d ≠ s.dir) : stream d body s = .next (s.fail .illegalCommand) := by
  unfold stream; rw [if_neg (not_not_intro h), if_pos hd]

/-- R312: an admitted stream command runs its body. -/
theorem stream_admitted {d : Dir} {body : State → Res (Word × List Byte)} (h : s.phase = .active)
    (hd : s.dir = d) : stream d body s = finish (body s) := by
  unfold stream; rw [if_neg (not_not_intro h), if_neg (not_not_intro hd.symm)]

end Sys2Proof.Machine
end

