-- ==== Sys2Proof/Laws/Stream.lean ====
section
/-! SUPPORT. The laws of the bit stream: fields as lists of bits, what WB appends and what RB takes, stated once, and
how such steps compose (spec/41_bitwriter.md R140, R145, R146, spec/42_bitreader.md R170, R174). -/

namespace Sys2Proof.Machine

/-! ### Bits of a value -/

theorem getLsbD_of_lt_two_pow {n w j : Nat} {x : BitVec n} (h : x.toNat < 2 ^ w) (hj : w ≤ j) :
    x.getLsbD j = false :=
  Nat.testBit_lt_two_pow (lt_of_lt_of_le h (Nat.pow_le_pow_right (by decide) hj))

theorem lt_two_pow_of_getLsbD {n w : Nat} {x : BitVec n} (h : ∀ j, w ≤ j → x.getLsbD j = false) :
    x.toNat < 2 ^ w :=
  Nat.lt_pow_two_of_testBit _ fun j hj => h j hj

theorem getLsbD_mask {w : Nat} (hw : w ≤ 32) (j : Nat) : (mask w).getLsbD j = decide (j < w) := by
  unfold mask
  rw [BitVec.getLsbD_ofNat, Nat.testBit_two_pow_sub_one]
  by_cases h : j < w
  · simp [h]; omega
  · simp [h]

@[simp] theorem length_fieldBits (v : Word) (w : Nat) : (fieldBits v w).length = w := by simp [fieldBits]
@[simp] theorem getElem_fieldBits (v : Word) (w k : Nat) (h : k < (fieldBits v w).length) :
    (fieldBits v w)[k] = v.getLsbD k := by simp [fieldBits]
@[simp] theorem length_byteBits (b : Byte) : (byteBits b).length = 8 := by simp [byteBits]
@[simp] theorem length_zeroBits (n : Nat) : (zeroBits n).length = n := by simp [zeroBits]
@[simp] theorem fieldBits_zero_width (v : Word) : fieldBits v 0 = [] := rfl

theorem fieldBits_zero (w : Nat) : fieldBits 0 w = zeroBits w :=
  List.ext_getElem (by simp) fun k h₁ h₂ => by simp [zeroBits]

theorem byteBits_eq_fieldBits (b : Byte) : fieldBits (b.setWidth 32) 8 = byteBits b := by
  refine List.ext_getElem (by simp) fun k h₁ h₂ => ?_
  simp only [length_byteBits] at h₂
  simp [byteBits]
  omega

/-- A field is determined by its bits, below its width. -/
theorem eq_of_fieldBits {v v' : Word} {w : Nat} (hv : v.toNat < 2 ^ w) (hv' : v'.toNat < 2 ^ w)
    (h : fieldBits v w = fieldBits v' w) : v = v' := by
  refine BitVec.eq_of_getLsbD_eq fun j _ => ?_
  by_cases hj : j < w
  · have h₁ : (fieldBits v w)[j]'(by simpa using hj) = (fieldBits v' w)[j]'(by simpa using hj) := by simp [h]
    simpa using h₁
  · rw [getLsbD_of_lt_two_pow hv (by omega), getLsbD_of_lt_two_pow hv' (by omega)]

/-- Masking a value to the width of its field keeps the field. -/
theorem fieldBits_mask (v : Word) {w : Nat} (hw : w ≤ 32) : fieldBits (v &&& mask w) w = fieldBits v w := by
  refine List.ext_getElem (by simp) fun k h₁ h₂ => ?_
  simp only [length_fieldBits] at h₁
  simp [getLsbD_mask hw, h₁]

/-! ### Streams as lists -/

@[simp] theorem State.length_written (s : State) : s.written.length = s.writePos := by simp [written]
@[simp] theorem State.getElem_written (s : State) (k : Nat) (h : k < s.written.length) :
    s.written[k] = s.writtenBit k := by simp [written]
@[simp] theorem State.length_unread (s : State) : s.unread.length = s.budget.toNat := by simp [unread]
@[simp] theorem State.getElem_unread (s : State) (k : Nat) (h : k < s.unread.length) :
    s.unread[k] = s.unreadBit k := by simp [unread]

theorem State.pos_writer {s : State} (h : s.dir = .writer) : s.pos = s.writePos := by
  unfold State.pos State.writePos; rw [h]; push_cast; rfl

theorem State.pos_reader {s : State} (h : s.dir = .reader) :
    s.pos = 32 * (s.cursor.toNat : Int) - s.sbits.toNat := by
  unfold State.pos; rw [h]

/-! ### Appending -/

theorem Appended.writePos {s t : State} {bits : List Bool} (h : Appended s t bits) :
    t.writePos = s.writePos + bits.length := by
  have h₁ := h.cursor; have h₂ := h.sbits
  unfold State.writePos at *; omega

theorem Appended.cursor_le {s t : State} {bits : List Bool} (h : Appended s t bits) (hs : s.sbits.toNat ≤ 31) :
    s.cursor.toNat ≤ t.cursor.toNat := by
  have h₁ := h.cursor; unfold State.writePos at h₁; omega

theorem Appended.refl {s : State} (h : Inv s) : Appended s s [] := by
  have := h.sbits_le
  refine ⟨by simp, ?_, ?_, h.scratch_lt, fun _ _ => rfl, rfl, rfl, rfl, rfl, rfl, rfl, rfl, rfl⟩ <;>
    simp only [State.writePos, List.length_nil] <;> omega

theorem Appended.trans {s t u : State} {a b : List Bool} (hs : s.sbits.toNat ≤ 31) (h₁ : Appended s t a)
    (h₂ : Appended t u b) : Appended s u (a ++ b) := by
  have hp := h₁.writePos
  have hc := h₁.cursor
  have hw : s.cursor.toNat ≤ t.cursor.toNat := h₁.cursor_le hs
  refine ⟨?_, ?_, ?_, h₂.scratch, fun x hx => ?_, h₂.phase.trans h₁.phase, h₂.dir.trans h₁.dir, h₂.cap.trans h₁.cap,
    h₂.budget.trans h₁.budget, h₂.err.trans h₁.err, h₂.bufWords.trans h₁.bufWords, h₂.port.trans h₁.port,
    h₂.draws.trans h₁.draws⟩
  · rw [h₂.stream, h₁.stream, List.append_assoc]
  · rw [h₂.cursor, hp, List.length_append, Nat.add_assoc]
  · rw [h₂.sbits, hp, List.length_append, Nat.add_assoc]
  · rw [List.length_append, ← Nat.add_assoc, ← hp] at hx
    rw [h₂.memory x (by omega), h₁.memory x (by
      rcases hx with hx | hx
      · exact .inl hx
      · refine .inr (le_trans ?_ hx)
        rw [← hp]
        omega)]

/-- What a completed write-side primitive gives: the bits are appended, the writer can go on, and the answer at the
port is still the old one. -/
structure Wrote (s t : State) (bits : List Bool) : Prop where
  app   : Appended s t bits
  ready : WriterReady t
  reply : t.reply = s.reply

theorem Wrote.refl {s : State} (h : WriterReady s) : Wrote s s [] := ⟨.refl h.inv, h, rfl⟩

theorem Wrote.trans {s t u : State} {a b : List Bool} (hs : WriterReady s) (h₁ : Wrote s t a) (h₂ : Wrote t u b) :
    Wrote s u (a ++ b) :=
  ⟨h₁.app.trans hs.inv.sbits_le h₂.app, h₂.ready, h₂.reply.trans h₁.reply⟩

/-- A writer that appended bits within its capacity still satisfies the invariants. -/
theorem WriterReady.of_appended {s t : State} {bits : List Bool} (hs : WriterReady s) (h : Appended s t bits)
    (hroom : s.writePos + bits.length ≤ 32 * s.cap.toNat) (hwf : t.buf.wf = true)
    (hin : t.buf.within t.bufWords.val = true) : WriterReady t := by
  have hd : t.dir = .writer := h.dir.trans hs.dir
  have hph : t.phase = .active := h.phase.trans hs.phase
  have hpos := h.writePos
  unfold State.writePos at hpos
  refine ⟨⟨?_, ?_, h.scratch, fun _ => ?_, fun _ => h.budget.trans (hs.inv.writer_budget hs.dir), ?_, ?_, ?_, ?_, ?_, ?_,
    ?_, hwf, hin⟩, hph, hd⟩
  · rw [h.cap, h.bufWords]; exact hs.inv.cap_le
  · rw [h.sbits]; omega
  · rw [h.cap]; unfold State.writePos at hroom; omega
  · rw [hd]; intro hr; cases hr
  · rw [hd]; intro hr; cases hr
  · rw [hd]; intro hr; cases hr
  · rw [hph]; intro hr; cases hr
  · rw [hph]; intro hr; cases hr
  · rw [h.err, h.phase]; exact hs.inv.err_ok
  · rw [h.err]; exact hs.inv.err_latched

theorem Wrote.of_appended {s t : State} {bits : List Bool} (hs : WriterReady s)
    (hroom : s.writePos + bits.length ≤ 32 * s.cap.toNat) (hwf : t.buf.wf = true)
    (hin : t.buf.within t.bufWords.val = true) (hr : t.reply = s.reply) (h : Appended s t bits) : Wrote s t bits :=
  ⟨h, hs.of_appended h hroom hwf hin, hr⟩

/-- The scratch once a field has joined it: the old bits, then the field's. -/
theorem getLsbD_filled {s : State} (h : Inv s) (v : Word) {w : Nat} (hw : w ≤ 32) (j : Nat) :
    (s.scratch ||| ((v &&& mask w).setWidth 64 <<< s.sbits.toNat)).getLsbD j =
      if j < s.sbits.toNat then s.scratch.getLsbD j
      else decide (j - s.sbits.toNat < w) && v.getLsbD (j - s.sbits.toNat) := by
  have hs := h.sbits_le
  by_cases hj : j < s.sbits.toNat
  · simp [hj]
  · rw [if_neg hj]
    have h0 : s.scratch.getLsbD j = false := getLsbD_of_lt_two_pow h.scratch_lt (by omega)
    simp only [BitVec.getLsbD_or, h0, Bool.false_or, BitVec.getLsbD_shiftLeft, BitVec.getLsbD_setWidth,
      BitVec.getLsbD_and, getLsbD_mask hw, hj]
    by_cases hjw : j - s.sbits.toNat < w
    · have h1 : j < 64 := by omega
      have h2 : j - s.sbits.toNat < 64 := by omega
      simp [hjw, h1, h2]
    · simp [hjw]

/-- R140, R145, R146: a WB that fits appends its field, and nothing else happens. -/
theorem writeBits_appends {s : State} (h : WriterReady s) (v : Word) {w : Nat} (hw : w ≤ 32)
    (hroom : s.writePos + w ≤ 32 * s.cap.toNat) :
    ∃ t, writeBits v w s = .ok () t ∧ Wrote s t (fieldBits v w) := by
  have hs := h.inv.sbits_le
  have hcap := h.inv.cap_le
  have hbw := s.bufWords.isLt
  have hfill := getLsbD_filled h.inv v hw
  have hov : s.overrun w = false := by
    unfold State.overrun; unfold State.writePos at hroom; simpa using hroom
  unfold writeBits
  rw [if_neg (by omega), hov]
  simp only [Bool.false_eq_true, if_false]
  by_cases hn : 32 ≤ s.sbits.toNat + w
  · rw [if_pos hn]
    unfold State.writePos at hroom
    have hcur : s.cursor.toNat < s.bufWords.val := by omega
    unfold commit memWrite
    simp only [if_pos hcur, Res.bind_ok]
    refine ⟨_, rfl, ?_⟩
    have hc1 : (s.cursor + 1).toNat = s.cursor.toNat + 1 := by
      rw [BitVec.toNat_add]; simp only [Config.maxBufWords] at hbw; simp; omega
    have hsb : (BitVec.ofNat 7 (s.sbits.toNat + w - 32)).toNat = s.sbits.toNat + w - 32 := by
      rw [BitVec.toNat_ofNat]; omega
    refine .of_appended h (by simpa [State.writePos] using hroom) (Memory.wf_writeWord _ _ h.inv.buf_wf)
      (Memory.within_writeWord _ h.inv.buf_within hcur) rfl ?_
    · refine ⟨?_, ?_, ?_, ?_, ?_, rfl, rfl, rfl, rfl, rfl, rfl, rfl, rfl⟩
      rotate_left
      · simp only [hc1, State.writePos, length_fieldBits]; omega
      · simp only [hsb, State.writePos, length_fieldBits]; omega
      · refine lt_two_pow_of_getLsbD fun j hj => ?_
        simp only [hsb] at hj
        rw [BitVec.getLsbD_ushiftRight, hfill, if_neg (by omega)]
        simp; intro; omega
      · intro a ha
        simp only [State.writePos, length_fieldBits] at ha
        exact Memory.readByte_writeWord_other _ _ (by omega)
      · refine List.ext_getElem ?_ fun k h₁ h₂ => ?_
        · simp only [State.length_written, List.length_append, length_fieldBits, State.writePos, hc1, hsb]; omega
        · simp only [State.length_written, State.writePos, hc1, hsb] at h₁
          rw [List.getElem_append]
          simp only [State.getElem_written, getElem_fieldBits, State.length_written, State.writtenBit, State.bufBit,
            State.writePos, hc1]
          by_cases hk : k < 32 * s.cursor.toNat
          · rw [if_pos (by omega), dif_pos (by omega), if_pos hk,
              Memory.readWord_writeWord_other _ _ (by omega)]
          · by_cases hk2 : k < 32 * (s.cursor.toNat + 1)
            · have hdiv : k / 32 = s.cursor.toNat := by omega
              have hmod : k % 32 = k - 32 * s.cursor.toNat := by omega
              rw [if_pos hk2, hdiv, Memory.readWord_writeWord_same, BitVec.getLsbD_setWidth, hfill, hmod]
              have h32 : k - 32 * s.cursor.toNat < 32 := by omega
              by_cases hk3 : k - 32 * s.cursor.toNat < s.sbits.toNat
              · rw [if_pos hk3, dif_pos (by omega), if_neg hk]; simp [h32]
              · have hwk : k - 32 * s.cursor.toNat - s.sbits.toNat < w := by omega
                rw [if_neg hk3, dif_neg (by omega)]
                simp only [h32, decide_eq_true hwk, decide_true, Bool.true_and, ← Nat.sub_sub]
            · rw [if_neg hk2, BitVec.getLsbD_ushiftRight, hfill, if_neg (by omega), dif_neg (by omega)]
              have hwk : 32 + (k - 32 * (s.cursor.toNat + 1)) - s.sbits.toNat < w := by omega
              simp only [hwk, decide_true, Bool.true_and]
              congr 1
              omega
  · rw [if_neg hn]
    refine ⟨_, rfl, ?_⟩
    have hsb : (BitVec.ofNat 7 (s.sbits.toNat + w)).toNat = s.sbits.toNat + w := by
      rw [BitVec.toNat_ofNat]; omega
    refine .of_appended h (by simpa using hroom) h.inv.buf_wf h.inv.buf_within rfl ?_
    · refine ⟨?_, ?_, ?_, ?_, fun _ _ => rfl, rfl, rfl, rfl, rfl, rfl, rfl, rfl, rfl⟩
      rotate_left
      · simp only [State.writePos, length_fieldBits]; omega
      · simp only [hsb, State.writePos, length_fieldBits]; omega
      · refine lt_two_pow_of_getLsbD fun j hj => ?_
        simp only [hsb] at hj
        rw [hfill, if_neg (by omega)]
        simp; intro; omega
      · refine List.ext_getElem ?_ fun k h₁ h₂ => ?_
        · simp only [State.length_written, List.length_append, length_fieldBits, State.writePos, hsb]; omega
        · simp only [State.length_written, State.writePos, hsb] at h₁
          rw [List.getElem_append]
          simp only [State.getElem_written, getElem_fieldBits, State.length_written, State.writtenBit, State.bufBit,
            State.writePos, hfill]
          by_cases hk : k < 32 * s.cursor.toNat
          · rw [if_pos hk, dif_pos (by omega), if_pos hk]
          · rw [if_neg hk]
            by_cases hk3 : k - 32 * s.cursor.toNat < s.sbits.toNat
            · rw [if_pos hk3, dif_pos (by omega), if_neg hk]
            · have hwk : k - 32 * s.cursor.toNat - s.sbits.toNat < w := by omega
              rw [if_neg hk3, dif_neg (by omega)]
              simp only [decide_eq_true hwk, Bool.true_and, ← Nat.sub_sub]

/-! ### Consuming -/

theorem Consumed.refl {s : State} (h : Inv s) : Consumed s s [] :=
  ⟨rfl, rfl, by simp, h.sbits_le, h.scratch_lt, rfl, rfl, rfl, rfl, rfl, rfl, rfl, rfl⟩

theorem Consumed.trans {s t u : State} {a b : List Bool} (h₁ : Consumed s t a) (h₂ : Consumed t u b) :
    Consumed s u (a ++ b) := by
  refine ⟨?_, ?_, ?_, h₂.sbits, h₂.scratch, h₂.memory.trans h₁.memory, h₂.phase.trans h₁.phase, h₂.dir.trans h₁.dir,
    h₂.cap.trans h₁.cap, h₂.err.trans h₁.err, h₂.bufWords.trans h₁.bufWords, h₂.port.trans h₁.port,
    h₂.draws.trans h₁.draws⟩
  · rw [h₁.stream, h₂.stream, List.append_assoc]
  · have := h₁.budget; have := h₂.budget; rw [List.length_append]; omega
  · have := h₁.pos; have := h₂.pos; rw [List.length_append]; push_cast; omega

/-- What a completed read-side primitive gives: the bits are consumed, the reader can go on, and the answer at the
port is still the old one. -/
structure Took (s t : State) (bits : List Bool) : Prop where
  con   : Consumed s t bits
  ready : ReaderReady t
  reply : t.reply = s.reply

theorem Took.refl {s : State} (h : ReaderReady s) : Took s s [] := ⟨.refl h.inv, h, rfl⟩

theorem Took.trans {s t u : State} {a b : List Bool} (h₁ : Took s t a) (h₂ : Took t u b) : Took s u (a ++ b) :=
  ⟨h₁.con.trans h₂.con, h₂.ready, h₂.reply.trans h₁.reply⟩

/-- A reader that consumed bits still satisfies the invariants. -/
theorem ReaderReady.of_consumed {s t : State} {bits : List Bool} (hs : ReaderReady s) (h : Consumed s t bits) :
    ReaderReady t := by
  have hd : t.dir = .reader := h.dir.trans hs.dir
  have hph : t.phase = .active := h.phase.trans hs.phase
  have hp := h.pos
  rw [State.pos_reader hd, State.pos_reader hs.dir] at hp
  have hb := h.budget
  have hsb := hs.inv.reader_budget hs.dir
  have hsp := hs.inv.reader_pos hs.dir
  have h31 := h.sbits
  refine ⟨⟨?_, h31, h.scratch, ?_, ?_, fun _ => ?_, fun _ => ?_, fun _ => ?_, ?_, ?_, ?_, ?_, ?_, ?_⟩, hph, hd⟩
  · rw [h.cap, h.bufWords]; exact hs.inv.cap_le
  · rw [hd]; intro hr; cases hr
  · rw [hd]; intro hr; cases hr
  · rw [h.cap]; omega
  · rw [h.cap]; omega
  · omega
  · rw [hph]; intro hr; cases hr
  · rw [hph]; intro hr; cases hr
  · rw [h.err, h.phase]; exact hs.inv.err_ok
  · rw [h.err]; exact hs.inv.err_latched
  · rw [h.memory]; exact hs.inv.buf_wf
  · rw [h.memory, h.bufWords]; exact hs.inv.buf_within

theorem Took.of_consumed {s t : State} {bits : List Bool} (hs : ReaderReady s) (hr : t.reply = s.reply)
    (h : Consumed s t bits) : Took s t bits :=
  ⟨h, hs.of_consumed h, hr⟩

/-- The scratch and the bits after a refill: the unread stream is the same, with at least `w` live bits. -/
theorem refill_keeps_stream {s : State} (h : ReaderReady s) {w : Nat} (hw : w ≤ 32) (hb : w ≤ s.budget.toNat) :
    ∃ t, refill w s = .ok () t ∧ w ≤ t.sbits.toNat ∧ t.sbits.toNat - w ≤ 31 ∧
      (∀ j, t.sbits.toNat ≤ j → t.scratch.getLsbD j = false) ∧ (∀ k, t.unreadBit k = s.unreadBit k) ∧
      t.pos = s.pos ∧
      t = { s with scratch := t.scratch, sbits := t.sbits, cursor := t.cursor } := by
  have hs := h.inv.sbits_le
  have hcap := h.inv.cap_le
  have hbw := s.bufWords.isLt
  have hbud := h.inv.reader_budget h.dir
  have hhigh : ∀ j, s.sbits.toNat ≤ j → s.scratch.getLsbD j = false :=
    fun j hj => getLsbD_of_lt_two_pow h.inv.scratch_lt hj
  unfold refill
  by_cases hlt : s.sbits.toNat < w
  · have hcur : s.cursor.toNat < s.bufWords.val := by omega
    unfold memRead
    simp only [if_pos hlt, if_pos hcur, Res.bind_ok]
    have hc1 : (s.cursor + 1).toNat = s.cursor.toNat + 1 := by
      rw [BitVec.toNat_add]; simp only [Config.maxBufWords] at hbw; simp; omega
    have hsb : (BitVec.ofNat 7 (s.sbits.toNat + 32)).toNat = s.sbits.toNat + 32 := by
      rw [BitVec.toNat_ofNat]; omega
    have hbit : ∀ j, (s.scratch ||| ((s.buf.readWord s.cursor.toNat).setWidth 64 <<< s.sbits.toNat)).getLsbD j =
        if j < s.sbits.toNat then s.scratch.getLsbD j
        else (s.buf.readWord s.cursor.toNat).getLsbD (j - s.sbits.toNat) := by
      intro j
      by_cases hj : j < s.sbits.toNat
      · simp [hj]
      · rw [if_neg hj]
        simp only [BitVec.getLsbD_or, hhigh j (by omega), Bool.false_or, BitVec.getLsbD_shiftLeft,
          BitVec.getLsbD_setWidth, hj]
        by_cases h64 : j - s.sbits.toNat < 32
        · have h1 : j < 64 := by omega
          have h2 : j - s.sbits.toNat < 64 := by omega
          simp [h1, h2]
        · rw [BitVec.getLsbD_of_ge _ (j - s.sbits.toNat) (by omega)]; simp
    refine ⟨_, rfl, ?_, ?_, ?_, ?_, ?_, rfl⟩
    · simp only [hsb]; omega
    · simp only [hsb]; omega
    · intro j hj
      simp only [hsb] at hj
      rw [hbit, if_neg (by omega), BitVec.getLsbD_of_ge _ _ (by omega)]
    · intro k
      unfold State.unreadBit State.bufBit
      simp only [hsb, hbit, hc1]
      by_cases hk : k < s.sbits.toNat
      · rw [if_pos (by omega), if_pos hk, if_pos hk]
      · rw [if_neg hk]
        by_cases hk2 : k < s.sbits.toNat + 32
        · rw [if_pos hk2, if_neg hk, show (32 * s.cursor.toNat + (k - s.sbits.toNat)) / 32 = s.cursor.toNat by omega,
            show (32 * s.cursor.toNat + (k - s.sbits.toNat)) % 32 = k - s.sbits.toNat by omega]
        · rw [if_neg hk2, show 32 * (s.cursor.toNat + 1) + (k - (s.sbits.toNat + 32)) =
            32 * s.cursor.toNat + (k - s.sbits.toNat) by omega, if_neg hk]
    · rw [State.pos_reader h.dir, State.pos_reader (by exact h.dir)]
      simp only [hsb, hc1]
      push_cast
      omega
  · refine ⟨s, by rw [if_neg hlt], by omega, by omega, hhigh, fun _ => rfl, rfl, rfl⟩

/-- R170, R174: an RB within the budget takes the next field, whose value is below `2^w`, and nothing else happens. -/
theorem readBits_consumes {s : State} (h : ReaderReady s) {w : Nat} (hw : w ≤ 32) (hb : w ≤ s.budget.toNat) :
    ∃ v t, readBits w s = .ok v t ∧ v.toNat < 2 ^ w ∧ Took s t (fieldBits v w) := by
  obtain ⟨m, hm, hmw, hm31, hhigh, hun, hpos, heq⟩ := refill_keeps_stream h hw hb
  have hpe : s.pastEnd w = false := by unfold State.pastEnd; simpa using hb
  have hmd : m.dir = .reader := by rw [heq]; exact h.dir
  have hmb : m.budget = s.budget := by rw [heq]
  have hsb : (BitVec.ofNat 7 (m.sbits.toNat - w)).toNat = m.sbits.toNat - w := by
    rw [BitVec.toNat_ofNat]; omega
  have hbt : (BitVec.ofNat 32 (m.budget.toNat - w)).toNat = s.budget.toNat - w := by
    rw [BitVec.toNat_ofNat, hmb]; have := s.budget.isLt; omega
  have hv : ∀ j, (m.scratch.setWidth 32 &&& mask w).getLsbD j = (decide (j < w) && m.scratch.getLsbD j) := by
    intro j
    rw [BitVec.getLsbD_and, BitVec.getLsbD_setWidth, getLsbD_mask hw]
    by_cases hj : j < w
    · have : j < 32 := by omega
      simp [hj, this]
    · simp [hj]
  unfold readBits
  rw [if_neg (by omega), hpe]
  simp only [Bool.false_eq_true, if_false, hm, Res.bind_ok]
  refine ⟨_, _, rfl, ?_, ?_⟩
  · refine lt_two_pow_of_getLsbD fun j hj => ?_
    rw [hv]; simp; intro; omega
  · refine .of_consumed h (by show m.reply = s.reply; rw [heq]) ?_
    · refine ⟨?_, ?_, ?_, ?_, ?_, ?_, ?_, ?_, ?_, ?_, ?_, ?_, ?_⟩
      rotate_left
      · simp only [hbt, length_fieldBits]; omega
      · rw [← hpos, State.pos_reader (by exact hmd), State.pos_reader hmd]
        simp only [hsb, length_fieldBits]
        push_cast [hmw]
        omega
      · simp only [hsb]; exact hm31
      · refine lt_two_pow_of_getLsbD fun j hj => ?_
        simp only [hsb] at hj
        rw [BitVec.getLsbD_ushiftRight, hhigh _ (by omega)]
      · show m.buf = s.buf; rw [heq]
      · show m.phase = s.phase; rw [heq]
      · show m.dir = s.dir; rw [heq]
      · show m.cap = s.cap; rw [heq]
      · show m.err = s.err; rw [heq]
      · show m.bufWords = s.bufWords; rw [heq]
      · show m.port = s.port; rw [heq]
      · show m.draws = s.draws; rw [heq]
      · refine List.ext_getElem ?_ fun k h₁ h₂ => ?_
        · simp only [State.length_unread, List.length_append, length_fieldBits, hbt]; omega
        · rw [State.getElem_unread, ← hun, List.getElem_append]
          simp only [State.getElem_unread, getElem_fieldBits, length_fieldBits, hv]
          by_cases hk : k < w
          · rw [dif_pos hk]
            simp [State.unreadBit, hk, show k < m.sbits.toNat by omega]
          · rw [dif_neg hk]
            unfold State.unreadBit State.bufBit
            simp only [hsb, BitVec.getLsbD_ushiftRight]
            by_cases hk2 : k < m.sbits.toNat
            · rw [if_pos hk2, if_pos (by omega), show w + (k - w) = k by omega]
            · rw [if_neg hk2, if_neg (by omega), show k - w - (m.sbits.toNat - w) = k - m.sbits.toNat by omega]

end Sys2Proof.Machine
end

