-- ==== Sys2Proof/Laws/Ops.lean ====
section
/-! SUPPORT. For each shared operation, one lemma that says what it can do in a state that is ready for it: the outcome
in every case, the bits it moves, the state it leaves. -/

namespace Sys2Proof.Machine

/-! ### Room, budget and pad -/

theorem WriterReady.pos_le {s : State} (h : WriterReady s) : s.writePos ≤ 32 * s.cap.toNat :=
  h.inv.writer_room h.dir

theorem WriterReady.pad_eq {s : State} (h : WriterReady s) : s.padBits = (8 - s.writePos % 8) % 8 := by
  unfold State.padBits; rw [State.pos_writer h.dir, Int.toNat_natCast]

theorem WriterReady.padWidth_eq {s : State} (h : WriterReady s) : padWidth s.pos = s.padBits := by
  rw [h.pad_eq, State.pos_writer h.dir]; unfold padWidth; omega

theorem WriterReady.pad_fits {s : State} (h : WriterReady s) : s.writePos + s.padBits ≤ 32 * s.cap.toNat := by
  have := h.pos_le; rw [h.pad_eq]; omega

theorem ReaderReady.pos_eq {s : State} (h : ReaderReady s) :
    s.pos = 32 * (s.cap.toNat : Int) - s.budget.toNat := by
  have := h.inv.reader_budget h.dir; rw [State.pos_reader h.dir]; omega

theorem ReaderReady.budget_le {s : State} (h : ReaderReady s) : s.budget.toNat ≤ 32 * s.cap.toNat := by
  have := h.inv.reader_budget h.dir; have := h.inv.reader_pos h.dir; omega

theorem ReaderReady.padWidth_eq {s : State} (h : ReaderReady s) : padWidth s.pos = s.padBits := by
  have := h.budget_le
  unfold State.padBits padWidth; rw [h.pos_eq]; omega

theorem ReaderReady.pad_le {s : State} (h : ReaderReady s) : s.padBits ≤ s.budget.toNat := by
  have := h.budget_le
  unfold State.padBits; rw [h.pos_eq]; omega

theorem State.padBits_lt (s : State) : s.padBits < 8 := by unfold State.padBits; omega

theorem Wrote.padBits_eq {s t : State} {bits : List Bool} (hw : Wrote s t bits) :
    t.padBits = (8 - (s.writePos + bits.length) % 8) % 8 := by
  rw [hw.ready.pad_eq, hw.app.writePos]

theorem Took.padBits_eq {s t : State} {bits : List Bool} (h : ReaderReady s) (ht : Took s t bits) :
    t.padBits = (8 - (s.pos.toNat + bits.length) % 8) % 8 := by
  have h0 : 0 ≤ s.pos := by rw [h.pos_eq]; have := h.budget_le; omega
  unfold State.padBits; rw [ht.con.pos]; omega

theorem Took.unread_eq {s t : State} {bits : List Bool} (ht : Took s t bits) : t.unread = s.unread.drop bits.length := by
  rw [ht.con.stream, List.drop_left]

/-! ### WB and RB -/

theorem State.overrun_iff (s : State) (w : Nat) : s.overrun w = true ↔ 32 * s.cap.toNat < s.writePos + w := by
  unfold State.overrun State.writePos; simp

theorem State.pastEnd_iff (s : State) (w : Nat) : s.pastEnd w = true ↔ s.budget.toNat < w := by
  unfold State.pastEnd; simp

theorem writeBits_too_wide (v : Word) {w : Nat} (s : State) (hw : 32 < w) :
    writeBits v w s = .raised .invalidWidth s := by
  unfold writeBits; rw [if_pos hw]

theorem writeBits_overrun (v : Word) {w : Nat} {s : State} (hw : w ≤ 32) (h : 32 * s.cap.toNat < s.writePos + w) :
    writeBits v w s = .raised .bufferOverrun s := by
  unfold writeBits; rw [if_neg (by omega), if_pos ((s.overrun_iff w).mpr h)]

theorem readBits_too_wide {w : Nat} (s : State) (hw : 32 < w) : readBits w s = .raised .invalidWidth s := by
  unfold readBits; rw [if_pos hw]

theorem readBits_past_end {w : Nat} {s : State} (hw : w ≤ 32) (h : s.budget.toNat < w) :
    readBits w s = .raised .budgetExhausted s := by
  unfold readBits; rw [if_neg (by omega), if_pos ((s.pastEnd_iff w).mpr h)]

/-- R140: all that a WB can do. -/
theorem writeBits_cases {s : State} (h : WriterReady s) (v : Word) (w : Nat) :
    (32 < w ∧ writeBits v w s = .raised .invalidWidth s) ∨
    (w ≤ 32 ∧ 32 * s.cap.toNat < s.writePos + w ∧ writeBits v w s = .raised .bufferOverrun s) ∨
    (w ≤ 32 ∧ s.writePos + w ≤ 32 * s.cap.toNat ∧
      ∃ t, writeBits v w s = .ok () t ∧ Wrote s t (fieldBits v w)) := by
  rcases Nat.lt_or_ge 32 w with hw | hw
  · exact .inl ⟨hw, writeBits_too_wide v s hw⟩
  · rcases Nat.lt_or_ge (32 * s.cap.toNat) (s.writePos + w) with hr | hr
    · exact .inr (.inl ⟨hw, hr, writeBits_overrun v hw hr⟩)
    · exact .inr (.inr ⟨hw, hr, writeBits_appends h v hw hr⟩)

/-- R170: all that an RB can do. -/
theorem readBits_cases {s : State} (h : ReaderReady s) (w : Nat) :
    (32 < w ∧ readBits w s = .raised .invalidWidth s) ∨
    (w ≤ 32 ∧ s.budget.toNat < w ∧ readBits w s = .raised .budgetExhausted s) ∨
    (w ≤ 32 ∧ w ≤ s.budget.toNat ∧
      ∃ v t, readBits w s = .ok v t ∧ v.toNat < 2 ^ w ∧ Took s t (fieldBits v w)) := by
  rcases Nat.lt_or_ge 32 w with hw | hw
  · exact .inl ⟨hw, readBits_too_wide s hw⟩
  · rcases Nat.lt_or_ge s.budget.toNat w with hr | hr
    · exact .inr (.inl ⟨hw, hr, readBits_past_end hw hr⟩)
    · exact .inr (.inr ⟨hw, hr, readBits_consumes h hw hr⟩)

/-- Bits that can be taken from the stream are within the budget. -/
theorem le_budget_of_take {s : State} {n : Nat} {bits : List Bool} (hn : bits.length = n)
    (h : s.unread.take n = bits) : n ≤ s.budget.toNat := by
  have := congrArg List.length h
  rw [List.length_take, State.length_unread, hn] at this
  omega

/-- An RB whose field is known from the stream answers it. -/
theorem readBits_of_take {s : State} (h : ReaderReady s) {v : Word} {w : Nat} (hw : w ≤ 32) (hv : v.toNat < 2 ^ w)
    (ht : s.unread.take w = fieldBits v w) : ∃ t, readBits w s = .ok v t ∧ Took s t (fieldBits v w) := by
  obtain ⟨v', t, hr, hv', htk⟩ := readBits_consumes h hw (le_budget_of_take (by simp) ht)
  have : fieldBits v' w = fieldBits v w := by
    rw [← ht, htk.con.stream, List.take_left' (by simp)]
  obtain rfl := eq_of_fieldBits hv' hv this
  exact ⟨t, hr, htk⟩

/-! ### Alignment -/

/-- R271: WALIGN's primitive always completes and appends the pad. -/
theorem alignWrite_pads {s : State} (h : WriterReady s) :
    ∃ t, alignWrite s = .ok () t ∧ Wrote s t (zeroBits s.padBits) := by
  have := s.padBits_lt
  unfold alignWrite
  rw [h.padWidth_eq, ← fieldBits_zero]
  exact writeBits_appends h 0 (by omega) h.pad_fits

/-- A value of a field of zeros is 0, and the other way round. -/
theorem fieldBits_eq_zeroBits {v : Word} {w : Nat} (hv : v.toNat < 2 ^ w) : fieldBits v w = zeroBits w ↔ v = 0 := by
  constructor
  · intro h
    refine eq_of_fieldBits hv (by simp) (h.trans (fieldBits_zero w).symm)
  · rintro rfl; exact fieldBits_zero w

/-- R272: RALIGN's primitive takes the pad and completes exactly when it is all zero. -/
theorem alignRead_cases {s : State} (h : ReaderReady s) :
    ∃ t, Took s t (s.unread.take s.padBits) ∧
      alignRead s = if s.unread.take s.padBits = zeroBits s.padBits then .ok () t else .raised .alignmentFault t := by
  have hp := s.padBits_lt
  obtain ⟨v, t, hr, hv, ht⟩ := readBits_consumes h (w := s.padBits) (by omega) h.pad_le
  have htake : s.unread.take s.padBits = fieldBits v s.padBits := by
    rw [ht.con.stream, List.take_left' (by simp)]
  refine ⟨t, htake ▸ ht, ?_⟩
  unfold alignRead
  rw [h.padWidth_eq, hr, Res.bind_ok, htake]
  simp only [fieldBits_eq_zeroBits hv]

/-! ### Byte blocks -/

theorem length_flatMap_byteBits (bs : List Byte) : (bs.flatMap byteBits).length = 8 * bs.length := by
  induction bs with
  | nil => rfl
  | cons b bs ih => rw [List.flatMap_cons, List.length_append, ih, length_byteBits, List.length_cons]; omega

/-- R273: the loop of WBLK appends the bits of its bytes. -/
theorem writeBytes_appends (bs : List Byte) {s : State} (h : WriterReady s)
    (hroom : s.writePos + 8 * bs.length ≤ 32 * s.cap.toNat) :
    ∃ t, writeBytes bs s = .ok () t ∧ Wrote s t (bs.flatMap byteBits) := by
  induction bs generalizing s with
  | nil => exact ⟨s, rfl, .refl h⟩
  | cons b bs ih =>
    rw [List.length_cons] at hroom
    obtain ⟨t, ht, hw⟩ := writeBits_appends h (b.setWidth 32) (w := 8) (by omega) (by omega)
    obtain ⟨u, hu, hw'⟩ := ih hw.ready (by rw [hw.app.writePos, hw.app.cap, length_fieldBits]; omega)
    refine ⟨u, by rw [writeBytes, ht, Res.bind_ok, hu], ?_⟩
    rw [List.flatMap_cons, ← byteBits_eq_fieldBits]
    exact hw.trans h hw'

/-- R273: WBLK writes the whole block or nothing. -/
theorem writeBlock_cases (bs : List Byte) {s : State} (h : WriterReady s) :
    (32 * s.cap.toNat < s.writePos + 8 * bs.length ∧ writeBlock bs s = .raised .bufferOverrun s) ∨
    (s.writePos + 8 * bs.length ≤ 32 * s.cap.toNat ∧
      ∃ t, writeBlock bs s = .ok () t ∧ Wrote s t (bs.flatMap byteBits)) := by
  unfold writeBlock
  rw [State.pos_writer h.dir]
  rcases Nat.lt_or_ge (32 * s.cap.toNat) (s.writePos + 8 * bs.length) with hr | hr
  · exact .inl ⟨hr, by rw [if_pos (by omega)]⟩
  · refine .inr ⟨hr, ?_⟩
    rw [if_neg (by omega)]
    exact writeBytes_appends bs h hr

/-- R274: the loop of RBLK takes the bits of the bytes it gives. -/
theorem readBytes_consumes (n : Nat) {s : State} (h : ReaderReady s) (hb : 8 * n ≤ s.budget.toNat) :
    ∃ bs t, readBytes n s = .ok bs t ∧ bs.length = n ∧ Took s t (bs.flatMap byteBits) := by
  induction n generalizing s with
  | zero => exact ⟨[], s, rfl, rfl, .refl h⟩
  | succ n ih =>
    obtain ⟨v, t, hr, hv, ht⟩ := readBits_consumes h (w := 8) (by omega) (by omega)
    have hbt := ht.con.budget
    rw [length_fieldBits] at hbt
    obtain ⟨bs, u, hu, hl, hw⟩ := ih ht.ready (by omega)
    refine ⟨v.setWidth 8 :: bs, u, by rw [readBytes, hr, Res.bind_ok, hu]; rfl, by simp [hl], ?_⟩
    have hvb : (v.setWidth 8).setWidth 32 = v :=
      BitVec.eq_of_toNat_eq (by rw [BitVec.toNat_setWidth, BitVec.toNat_setWidth]; omega)
    rw [List.flatMap_cons, ← byteBits_eq_fieldBits, hvb]
    exact ht.trans hw

/-- R274: RBLK takes the whole block or nothing. -/
theorem readBlock_cases (n : Nat) {s : State} (h : ReaderReady s) :
    (s.budget.toNat < 8 * n ∧ readBlock n s = .raised .budgetExhausted s) ∨
    (8 * n ≤ s.budget.toNat ∧
      ∃ bs t, readBlock n s = .ok bs t ∧ bs.length = n ∧ Took s t (bs.flatMap byteBits)) := by
  unfold readBlock
  rcases Nat.lt_or_ge s.budget.toNat (8 * n) with hr | hr
  · exact .inl ⟨hr, by rw [if_pos ((s.pastEnd_iff _).mpr hr)]⟩
  · refine .inr ⟨hr, ?_⟩
    rw [if_neg (by rw [s.pastEnd_iff]; omega)]
    exact readBytes_consumes n h hr

theorem byteBits_injective {a b : Byte} (h : byteBits a = byteBits b) : a = b := by
  refine BitVec.eq_of_getLsbD_eq fun j hj => ?_
  have h₁ : (byteBits a)[j]'(by simpa using hj) = (byteBits b)[j]'(by simpa using hj) := by simp [h]
  simpa [byteBits] using h₁

/-- Byte sequences with the same bits are the same. -/
theorem bytes_eq_of_bits {as bs : List Byte} (h : as.flatMap byteBits = bs.flatMap byteBits) : as = bs := by
  induction as generalizing bs with
  | nil =>
    have := congrArg List.length h
    rw [length_flatMap_byteBits, length_flatMap_byteBits] at this
    exact (List.eq_nil_of_length_eq_zero (by rw [List.length_nil] at this; omega)).symm
  | cons a as ih =>
    cases bs with
    | nil =>
      have := congrArg List.length h
      rw [length_flatMap_byteBits, length_flatMap_byteBits] at this
      simp at this
    | cons b bs =>
      rw [List.flatMap_cons, List.flatMap_cons] at h
      obtain ⟨h₁, h₂⟩ := List.append_inj h (by simp)
      rw [byteBits_injective h₁, ih h₂]

/-! ### The range codec -/

theorem bitsForRange_spec {lo hi : Int} (h : lo ≤ hi) : hi - lo < 2 ^ bitsForRange lo hi := by
  unfold bitsForRange
  split
  · omega
  · rename_i hd
    have := Nat.lt_log2_self (n := (hi - lo).toNat)
    have h2 : ((hi - lo).toNat : Int) < ((2 ^ ((hi - lo).toNat.log2 + 1) : Nat) : Int) := by exact_mod_cast this
    push_cast at h2 ⊢
    omega

theorem bitsForRange_le_of_lt {lo hi : Int} {n : Nat} (h : hi - lo < 2 ^ n) : bitsForRange lo hi ≤ n := by
  unfold bitsForRange
  split
  · omega
  · rename_i hd
    have : (hi - lo).toNat < 2 ^ n := by
      have : ((2 ^ n : Nat) : Int) = 2 ^ n := by push_cast; rfl
      omega
    have := (Nat.log2_lt hd).mpr this
    omega

/-- R104: an integer operand lies in 32 bits' worth of integers. -/
theorem intOperand_bounds (sg : Sign) (x y : Word) : intOperand sg x - intOperand sg y < 2 ^ 32 := by
  have hx := x.isLt; have hy := y.isLt
  cases sg
  · simp only [intOperand]; omega
  · simp only [intOperand]
    have := BitVec.toInt_lt (x := x); have := BitVec.le_toInt (x := y)
    omega

theorem pat32_toNat {v : Int} (h₀ : 0 ≤ v) (h₁ : v < 2 ^ 32) : ((pat32 v).toNat : Int) = v := by
  unfold pat32; rw [BitVec.toNat_ofInt]; omega

theorem pat32_intOperand (sg : Sign) (x : Word) : pat32 (intOperand sg x) = x := by
  cases sg
  · exact BitVec.eq_of_toNat_eq (by simp only [intOperand, pat32, BitVec.toNat_ofInt]; have := x.isLt; omega)
  · exact BitVec.ofInt_toInt

/-- R203: all that ENCINT can do, for bounds less than `2^32` apart. -/
theorem encodeInt_cases {s : State} (h : WriterReady s) {v lo hi : Int} (hd : hi - lo < 2 ^ 32) :
    (hi < lo ∧ encodeInt v lo hi s = .raised .invalidRange s) ∨
    (lo ≤ hi ∧ (v < lo ∨ hi < v) ∧ encodeInt v lo hi s = .raised .outOfRange s) ∨
    (lo ≤ v ∧ v ≤ hi ∧ 32 * s.cap.toNat < s.writePos + bitsForRange lo hi ∧
      encodeInt v lo hi s = .raised .bufferOverrun s) ∨
    (lo ≤ v ∧ v ≤ hi ∧ s.writePos + bitsForRange lo hi ≤ 32 * s.cap.toNat ∧
      ∃ t, encodeInt v lo hi s = .ok () t ∧ Wrote s t (fieldBits (pat32 (v - lo)) (bitsForRange lo hi))) := by
  unfold encodeInt
  rcases lt_or_ge hi lo with h₁ | h₁
  · exact .inl ⟨h₁, by rw [if_pos h₁]⟩
  rw [if_neg (by omega)]
  by_cases h₂ : v < lo ∨ hi < v
  · exact .inr (.inl ⟨h₁, h₂, by rw [if_pos h₂]⟩)
  rw [if_neg h₂]
  have hb : bitsForRange lo hi ≤ 32 := bitsForRange_le_of_lt hd
  rcases writeBits_cases h (pat32 (v - lo)) (bitsForRange lo hi) with ⟨hw, -⟩ | ⟨-, hr, he⟩ | ⟨-, hr, he⟩
  · omega
  · exact .inr (.inr (.inl ⟨by omega, by omega, hr, he⟩))
  · exact .inr (.inr (.inr ⟨by omega, by omega, hr, he⟩))

/-- R204: all that DECINT can do, for bounds less than `2^32` apart. -/
theorem decodeInt_cases {s : State} (h : ReaderReady s) {lo hi : Int} (hd : hi - lo < 2 ^ 32) :
    (hi < lo ∧ decodeInt lo hi s = .raised .invalidRange s) ∨
    (lo ≤ hi ∧ s.budget.toNat < bitsForRange lo hi ∧ decodeInt lo hi s = .raised .budgetExhausted s) ∨
    (lo ≤ hi ∧ bitsForRange lo hi ≤ s.budget.toNat ∧
      ∃ (code : Word) (t : State), code.toNat < 2 ^ bitsForRange lo hi ∧ Took s t (fieldBits code (bitsForRange lo hi)) ∧
        decodeInt lo hi s =
          if hi < (code.toNat : Int) + lo then .raised .outOfRange t else .ok ((code.toNat : Int) + lo) t) := by
  unfold decodeInt
  rcases lt_or_ge hi lo with h₁ | h₁
  · exact .inl ⟨h₁, by rw [if_pos h₁]⟩
  rw [if_neg (by omega)]
  have hb : bitsForRange lo hi ≤ 32 := bitsForRange_le_of_lt hd
  rcases Nat.lt_or_ge s.budget.toNat (bitsForRange lo hi) with h₂ | h₂
  · exact .inr (.inl ⟨h₁, h₂, by rw [if_pos ((s.pastEnd_iff _).mpr h₂)]⟩)
  rw [if_neg (by rw [s.pastEnd_iff]; omega)]
  obtain ⟨v, t, hr, hv, ht⟩ := readBits_consumes h hb h₂
  exact .inr (.inr ⟨h₁, h₂, v, t, hv, ht, by rw [hr, Res.bind_ok]⟩)

/-- A DECINT whose code is known from the stream decodes it. -/
theorem decodeInt_of_take {s : State} (h : ReaderReady s) {lo hi : Int} (hd : hi - lo < 2 ^ 32) (hle : lo ≤ hi)
    {code : Word} (hc : code.toNat < 2 ^ bitsForRange lo hi)
    (ht : s.unread.take (bitsForRange lo hi) = fieldBits code (bitsForRange lo hi)) :
    ∃ t, Took s t (fieldBits code (bitsForRange lo hi)) ∧
      decodeInt lo hi s =
        if hi < (code.toNat : Int) + lo then .raised .outOfRange t else .ok ((code.toNat : Int) + lo) t := by
  rcases decodeInt_cases h hd with ⟨h₁, -⟩ | ⟨-, h₂, -⟩ | ⟨-, -, code', t, hc', htk, he⟩
  · omega
  · have := le_budget_of_take (by simp) ht; omega
  · have : fieldBits code' (bitsForRange lo hi) = fieldBits code (bitsForRange lo hi) := by
      rw [← ht, htk.con.stream, List.take_left' (by simp)]
    obtain rfl := eq_of_fieldBits hc' hc this
    exact ⟨t, htk, he⟩

/-! ### Outcomes of a stream command -/

theorem Inv.err_of_active {s : State} (h : Inv s) (hp : s.phase = .active) : s.err = .ok :=
  h.err_ok.mpr (by rw [hp]; decide)

/-- R342: the failure entry from a state without an earlier failure. -/
theorem failsFrom_fail {u : State} {e : Status} (h : u.err = .ok) : FailsFrom (.next (u.fail e)) u e :=
  ⟨Config.failResult u.draws, by unfold State.fail; rw [if_pos h]; rfl⟩

theorem completesAppending_answer {s u : State} {bits : List Bool} (h : Appended s u bits) :
    CompletesAppending (.next (u.answer .ok 0 [])) s bits :=
  ⟨u, _, h, rfl, rfl⟩

theorem completesConsuming_answer {s u : State} {bits : List Bool} (h : Consumed s u bits) (result : Word)
    (bout : List Byte) : CompletesConsuming (.next (u.answer .ok result bout)) s bits result bout :=
  ⟨u, _, h, rfl, rfl⟩

end Sys2Proof.Machine
end

