-- ==== Sys2Proof/Laws/Exec.lean ====
section
/-! SUPPORT. The twenty meanings as gates and bodies: one equation says what each stream command runs once the gates of
spec/46_stream_control.md R312 to R314 admit it, and the frame lemmas say what the primitives can change in any state
whatever. -/

namespace Sys2Proof.Machine

/-- The body of each stream command (R312). BIND and BFR have none; they never pass the gates. -/
def body (i : Instr) (s : State) : Res (Word × List Byte) :=
  match i with
  | .bind _ _ | .bfr _ _ _ => .ok (0, []) s
  | .wbits w v => (writeBits v w.toNat s).bind fun _ t => .ok (0, []) t
  | .rbits w => (readBits w.toNat s).bind fun v t => .ok (v, []) t
  | .wchk w => .ok (boolWord (s.overrun w.toNat), []) s
  | .rchk w => .ok (boolWord (s.pastEnd w.toNat), []) s
  | .wflush => (flush s).bind fun _ t => .ok (0, []) t
  | .rflush => .ok (0, []) s
  | .wint sg v lo hi =>
    (encodeInt (intOperand sg v) (intOperand sg lo) (intOperand sg hi) s).bind fun _ t => .ok (0, []) t
  | .rint sg lo hi => (decodeInt (intOperand sg lo) (intOperand sg hi) s).bind fun v t => .ok (pat32 v, []) t
  | .wf32 v => (writeBits v 32 s).bind fun _ t => .ok (0, []) t
  | .rf32 => (readBits 32 s).bind fun v t => .ok (v, []) t
  | .wqf v lo hi res => (quantizeOut v lo hi res s).bind fun _ t => .ok (0, []) t
  | .rqf lo hi res => (quantizeIn lo hi res s).bind fun v t => .ok (v, []) t
  | .walign => (alignWrite s).bind fun _ t => .ok (0, []) t
  | .ralign => (alignRead s).bind fun _ t => .ok (0, []) t
  | .wbytes _ bs => (alignWrite s).bind fun _ t => (writeBlock bs t).bind fun _ u => .ok (0, []) u
  | .rbytes len => (alignRead s).bind fun _ t => (readBlock len.toNat t).bind fun bs u => .ok (0, bs) u
  | .wstr len bs =>
    (encodeInt (len.toNat : Int) 0 uint32Max s).bind fun _ t =>
      (alignWrite t).bind fun _ u => (writeBlock bs u).bind fun _ w => .ok (0, []) w
  | .rstr dcap =>
    (decodeInt 0 uint32Max s).bind fun len t =>
      if (dcap.toNat : Int) ≤ len then .raised .stringCapacity t
      else
        (alignRead t).bind fun _ u =>
          (readBlock len.toNat u).bind fun bs w => .ok (pat32 len, bs ++ [0x00]) w

/-- R312: a stream command is its body behind the gates of its side. -/
theorem exec_eq_stream {i : Instr} {d : Dir} (h : i.side = some d) (s : State) : exec i s = stream d (body i) s := by
  cases i <;> cases h <;> rfl

/-- R313: outside ACTIVE a stream command is answered NotReady. -/
theorem exec_inactive {i : Instr} {s : State} (h : i.side ≠ none) (hp : s.phase ≠ .active) :
    exec i s = .next (s.respond .notReady) := by
  obtain ⟨d, hd⟩ := Option.ne_none_iff_exists'.mp h
  rw [exec_eq_stream hd, stream_inactive s hp]

/-- R314: against the direction of the binding a stream command fails with IllegalCommand. -/
theorem exec_misdirected {i : Instr} {d : Dir} {s : State} (h : i.side = some d) (hp : s.phase = .active)
    (hd : s.dir ≠ d) : exec i s = .next (s.fail .illegalCommand) := by
  rw [exec_eq_stream h, stream_misdirected s hp (Ne.symm hd)]

/-- R312: admitted, a stream command runs its body. -/
theorem exec_admitted {i : Instr} {d : Dir} {s : State} (h : i.side = some d) (hp : s.phase = .active)
    (hd : s.dir = d) : exec i s = finish (body i s) := by
  rw [exec_eq_stream h, stream_admitted s hp hd]

theorem WriterReady.exec {i : Instr} {s : State} (h : WriterReady s) (hi : i.side = some .writer) :
    Machine.exec i s = finish (body i s) := exec_admitted hi h.phase h.dir

theorem ReaderReady.exec {i : Instr} {s : State} (h : ReaderReady s) (hi : i.side = some .reader) :
    Machine.exec i s = finish (body i s) := exec_admitted hi h.phase h.dir

/-! ### What primitives change in any state -/

/-- What no primitive but the terminal flush changes. -/
structure Framed (s t : State) : Prop where
  phase    : t.phase = s.phase
  dir      : t.dir = s.dir
  cap      : t.cap = s.cap
  err      : t.err = s.err
  bufWords : t.bufWords = s.bufWords
  port     : t.port = s.port
  reply    : t.reply = s.reply
  draws    : t.draws = s.draws

theorem Framed.refl (s : State) : Framed s s := ⟨rfl, rfl, rfl, rfl, rfl, rfl, rfl, rfl⟩

theorem Framed.trans {s t u : State} (h₁ : Framed s t) (h₂ : Framed t u) : Framed s u :=
  ⟨h₂.phase.trans h₁.phase, h₂.dir.trans h₁.dir, h₂.cap.trans h₁.cap, h₂.err.trans h₁.err,
    h₂.bufWords.trans h₁.bufWords, h₂.port.trans h₁.port, h₂.reply.trans h₁.reply, h₂.draws.trans h₁.draws⟩

/-- A writing primitive: the cursor does not move back, and memory changes only between the cursors. -/
structure WriteFrame (s t : State) : Prop extends Framed s t where
  cursor : s.cursor.toNat ≤ t.cursor.toNat
  memory : ∀ a, a < 4 * s.cursor.toNat ∨ 4 * t.cursor.toNat ≤ a → t.buf.readByte a = s.buf.readByte a
  budget : t.budget = s.budget

/-- A reading primitive: memory does not change. -/
structure ReadFrame (s t : State) : Prop extends Framed s t where
  memory : t.buf = s.buf

theorem WriteFrame.refl (s : State) : WriteFrame s s := ⟨.refl s, le_refl _, fun _ _ => rfl, rfl⟩

theorem WriteFrame.trans {s t u : State} (h₁ : WriteFrame s t) (h₂ : WriteFrame t u) : WriteFrame s u := by
  have := h₁.cursor; have := h₂.cursor
  refine ⟨h₁.toFramed.trans h₂.toFramed, by omega, fun a ha => ?_, h₂.budget.trans h₁.budget⟩
  rw [h₂.memory a (by omega), h₁.memory a (by omega)]

theorem ReadFrame.refl (s : State) : ReadFrame s s := ⟨.refl s, rfl⟩

theorem ReadFrame.trans {s t u : State} (h₁ : ReadFrame s t) (h₂ : ReadFrame t u) : ReadFrame s u :=
  ⟨h₁.toFramed.trans h₂.toFramed, h₂.memory.trans h₁.memory⟩

/-- A property of every state a primitive can leave, whether it ends well or raises; and what it raises is a latching
code (R341). -/
def Res.Leaves {α : Type} (r : Res α) (p : State → Prop) : Prop :=
  match r with
  | .ok _ t => p t
  | .raised e t => (e ≠ .ok ∧ e ≠ .notReady) ∧ p t
  | .absent _ => True

theorem Res.leaves_bind {α β : Type} {r : Res α} {k : α → State → Res β} {p q : State → Prop} (hr : r.Leaves q)
    (hqp : ∀ t, q t → p t) (hk : ∀ a t, q t → (k a t).Leaves p) : (r.bind k).Leaves p := by
  cases r with
  | ok a t => exact hk a t hr
  | raised e t => exact ⟨hr.1, hqp t hr.2⟩
  | absent i => trivial

theorem commit_frame (s : State) : (commit s).Leaves (WriteFrame s) := by
  unfold commit memWrite
  split
  · rename_i h
    have := s.bufWords.isLt
    have hc : (s.cursor + 1).toNat = s.cursor.toNat + 1 := by
      rw [BitVec.toNat_add]; simp [Config.maxBufWords] at *; omega
    refine ⟨⟨rfl, rfl, rfl, rfl, rfl, rfl, rfl, rfl⟩, by simp only [hc]; omega, fun a ha => ?_, rfl⟩
    exact Memory.readByte_writeWord_other _ _ (by simp only [hc] at ha; omega)
  · trivial

theorem writeBits_frame (v : Word) (w : Nat) (s : State) : (writeBits v w s).Leaves (WriteFrame s) := by
  unfold writeBits
  split
  · exact ⟨by decide, .refl s⟩
  split
  · exact ⟨by decide, .refl s⟩
  dsimp only
  split
  · refine Res.leaves_bind (commit_frame _) (fun t h => ⟨⟨h.phase, h.dir, h.cap, h.err, h.bufWords, h.port, h.reply,
      h.draws⟩, h.cursor, h.memory, h.budget⟩) fun _ t h => ?_
    exact ⟨⟨h.phase, h.dir, h.cap, h.err, h.bufWords, h.port, h.reply, h.draws⟩, h.cursor, h.memory, h.budget⟩
  · exact ⟨⟨rfl, rfl, rfl, rfl, rfl, rfl, rfl, rfl⟩, le_refl _, fun _ _ => rfl, rfl⟩

theorem readBits_frame (w : Nat) (s : State) : (readBits w s).Leaves (ReadFrame s) := by
  unfold readBits
  split
  · exact ⟨by decide, .refl s⟩
  split
  · exact ⟨by decide, .refl s⟩
  have hrefill : (refill w s).Leaves (ReadFrame s) := by
    unfold refill memRead
    split
    · split
      · exact ⟨⟨rfl, rfl, rfl, rfl, rfl, rfl, rfl, rfl⟩, rfl⟩
      · trivial
    · exact .refl s
  refine Res.leaves_bind hrefill (fun _ h => h) fun _ t h => ?_
  exact ⟨⟨h.phase, h.dir, h.cap, h.err, h.bufWords, h.port, h.reply, h.draws⟩, h.memory⟩

theorem alignWrite_frame (s : State) : (alignWrite s).Leaves (WriteFrame s) := writeBits_frame _ _ s

theorem alignRead_frame (s : State) : (alignRead s).Leaves (ReadFrame s) := by
  unfold alignRead
  refine Res.leaves_bind (readBits_frame _ s) (fun _ h => h) fun _ t h => ?_
  split
  · exact h
  · exact ⟨by decide, h⟩

theorem writeBytes_frame (bs : List Byte) (s : State) : (writeBytes bs s).Leaves (WriteFrame s) := by
  induction bs generalizing s with
  | nil => exact .refl s
  | cons b bs ih =>
    unfold writeBytes
    refine Res.leaves_bind (writeBits_frame _ _ s) (fun _ h => h) fun _ t h => ?_
    have := ih t
    cases hr : writeBytes bs t with
    | ok a u => rw [hr] at this; exact h.trans this
    | raised e u => rw [hr] at this; exact ⟨this.1, h.trans this.2⟩
    | absent i => trivial

theorem writeBlock_frame (bs : List Byte) (s : State) : (writeBlock bs s).Leaves (WriteFrame s) := by
  unfold writeBlock
  split
  · exact ⟨by decide, .refl s⟩
  · exact writeBytes_frame bs s

theorem Res.Leaves.mono {α : Type} {r : Res α} {p q : State → Prop} (h : r.Leaves p) (hpq : ∀ t, p t → q t) :
    r.Leaves q := by
  cases r with
  | ok a t => exact hpq t h
  | raised e t => exact ⟨h.1, hpq t h.2⟩
  | absent i => trivial

theorem readBytes_frame (n : Nat) (s : State) : (readBytes n s).Leaves (ReadFrame s) := by
  induction n generalizing s with
  | zero => exact .refl s
  | succ n ih =>
    unfold readBytes
    refine Res.leaves_bind (readBits_frame _ s) (fun _ h => h) fun _ t h => ?_
    exact Res.leaves_bind ((ih t).mono fun _ => h.trans) (fun _ h => h) fun _ _ h => h

theorem readBlock_frame (n : Nat) (s : State) : (readBlock n s).Leaves (ReadFrame s) := by
  unfold readBlock
  split
  · exact ⟨by decide, .refl s⟩
  · exact readBytes_frame n s

theorem encodeInt_frame (v lo hi : Int) (s : State) : (encodeInt v lo hi s).Leaves (WriteFrame s) := by
  unfold encodeInt
  split
  · exact ⟨by decide, .refl s⟩
  split
  · exact ⟨by decide, .refl s⟩
  · exact writeBits_frame _ _ s

theorem decodeInt_frame (lo hi : Int) (s : State) : (decodeInt lo hi s).Leaves (ReadFrame s) := by
  unfold decodeInt
  split
  · exact ⟨by decide, .refl s⟩
  split
  · exact ⟨by decide, .refl s⟩
  refine Res.leaves_bind (readBits_frame _ s) (fun _ h => h) fun _ t h => ?_
  split
  · exact ⟨by decide, h⟩
  · exact h

theorem quantizeOut_frame (v mn mx res : Word) (s : State) : (quantizeOut v mn mx res s).Leaves (WriteFrame s) := by
  unfold quantizeOut
  split
  · exact ⟨by decide, .refl s⟩
  split
  · exact ⟨by decide, .refl s⟩
  · exact encodeInt_frame _ _ _ s

theorem quantizeIn_frame (mn mx res : Word) (s : State) : (quantizeIn mn mx res s).Leaves (ReadFrame s) := by
  unfold quantizeIn
  split
  · exact ⟨by decide, .refl s⟩
  · exact Res.leaves_bind (decodeInt_frame _ _ s) (fun _ h => h) fun _ _ h => h

/-- A writer's body other than WFLUSH leaves a state within the write frame. -/
theorem body_writeFrame {i : Instr} (h : i.side = some .writer) (hf : i ≠ .wflush) (s : State) :
    (body i s).Leaves (WriteFrame s) := by
  cases i <;> cases h
  case wflush => exact absurd rfl hf
  case wchk => exact .refl s
  case wbits => exact Res.leaves_bind (writeBits_frame _ _ s) (fun _ h => h) fun _ _ h => h
  case wint => exact Res.leaves_bind (encodeInt_frame _ _ _ s) (fun _ h => h) fun _ _ h => h
  case wf32 => exact Res.leaves_bind (writeBits_frame _ _ s) (fun _ h => h) fun _ _ h => h
  case wqf => exact Res.leaves_bind (quantizeOut_frame _ _ _ _ s) (fun _ h => h) fun _ _ h => h
  case walign => exact Res.leaves_bind (alignWrite_frame s) (fun _ h => h) fun _ _ h => h
  case wbytes =>
    refine Res.leaves_bind (alignWrite_frame s) (fun _ h => h) fun _ t ht => ?_
    exact Res.leaves_bind ((writeBlock_frame _ t).mono fun _ => ht.trans) (fun _ h => h) fun _ _ h => h
  case wstr =>
    refine Res.leaves_bind (encodeInt_frame _ _ _ s) (fun _ h => h) fun _ t ht => ?_
    refine Res.leaves_bind ((alignWrite_frame t).mono fun _ => ht.trans) (fun _ h => h) fun _ u hu => ?_
    exact Res.leaves_bind ((writeBlock_frame _ u).mono fun _ => hu.trans) (fun _ h => h) fun _ _ h => h

/-- A reader's body leaves a state within the read frame. -/
theorem body_readFrame {i : Instr} (h : i.side = some .reader) (s : State) : (body i s).Leaves (ReadFrame s) := by
  cases i <;> cases h
  case rchk => exact .refl s
  case rflush => exact .refl s
  case rbits => exact Res.leaves_bind (readBits_frame _ s) (fun _ h => h) fun _ _ h => h
  case rint => exact Res.leaves_bind (decodeInt_frame _ _ s) (fun _ h => h) fun _ _ h => h
  case rf32 => exact Res.leaves_bind (readBits_frame _ s) (fun _ h => h) fun _ _ h => h
  case rqf => exact Res.leaves_bind (quantizeIn_frame _ _ _ s) (fun _ h => h) fun _ _ h => h
  case ralign => exact Res.leaves_bind (alignRead_frame s) (fun _ h => h) fun _ _ h => h
  case rbytes =>
    refine Res.leaves_bind (alignRead_frame s) (fun _ h => h) fun _ t ht => ?_
    exact Res.leaves_bind ((readBlock_frame _ t).mono fun _ => ht.trans) (fun _ h => h) fun _ _ h => h
  case rstr =>
    refine Res.leaves_bind (decodeInt_frame _ _ s) (fun _ h => h) fun _ t ht => ?_
    split
    · exact ⟨by decide, ht⟩
    refine Res.leaves_bind ((alignRead_frame t).mono fun _ => ht.trans) (fun _ h => h) fun _ u hu => ?_
    exact Res.leaves_bind ((readBlock_frame _ u).mono fun _ => hu.trans) (fun _ h => h) fun _ _ h => h

/-- The terminal flush: `PHASE` becomes DONE, memory changes only between the cursors, and it never raises. -/
theorem flush_frame (s : State) : (∃ i, flush s = .absent i) ∨
    ∃ t, flush s = .ok () t ∧ WriteFrame s { t with phase := s.phase } ∧ t.phase = .done := by
  unfold flush
  split
  · have h := commit_frame s
    cases hc : commit s with
    | ok a t =>
      rw [hc] at h
      exact .inr ⟨_, rfl, ⟨⟨rfl, h.dir, h.cap, h.err, h.bufWords, h.port, h.reply, h.draws⟩, h.cursor, h.memory,
        h.budget⟩, rfl⟩
    | raised e t =>
      unfold commit memWrite at hc
      split at hc <;> cases hc
    | absent i => exact .inl ⟨i, rfl⟩
  · exact .inr ⟨_, rfl, .refl s, rfl⟩

end Sys2Proof.Machine
end

