-- ==== Sys2Proof/Laws/Float.lean ====
section
/-! SUPPORT. Rounding to binary32 (spec/00_scope.md R11) on patterns without sign: the magnitude of a pattern, that
magnitudes rise with patterns, and that `F32.roundPattern` gives the nearest pattern, the even one on a tie; then the
operations on words in these terms. -/

namespace Sys2Proof.Machine

/-- The magnitude of a pattern without sign, in units of 2^-149. -/
def patMag (p : Nat) : Nat := if p / 2 ^ 23 = 0 then p % 2 ^ 23 else (2 ^ 23 + p % 2 ^ 23) * 2 ^ (p / 2 ^ 23 - 1)

/-- The pattern of `m · 2^k`, for a significand in the range of exponent step `k`. -/
theorem patMag_step {k m : Nat} (hm : m ≤ 2 ^ 24) (hk : k = 0 ∨ 2 ^ 23 ≤ m) : patMag (k * 2 ^ 23 + m) = m * 2 ^ k := by
  unfold patMag
  rcases Nat.lt_or_ge m (2 ^ 23) with h | h
  · obtain rfl : k = 0 := by omega
    rw [if_pos (by omega)]; simp; omega
  rcases Nat.lt_or_ge m (2 ^ 24) with h' | h'
  · have h₁ : (k * 2 ^ 23 + m) / 2 ^ 23 = k + 1 := by omega
    have h₂ : (k * 2 ^ 23 + m) % 2 ^ 23 = m - 2 ^ 23 := by omega
    rw [if_neg (by omega), h₁, h₂, Nat.add_sub_cancel' h, Nat.add_sub_cancel]
  · obtain rfl : m = 2 ^ 24 := by omega
    have h₁ : (k * 2 ^ 23 + 2 ^ 24) / 2 ^ 23 = k + 2 := by omega
    have h₂ : (k * 2 ^ 23 + 2 ^ 24) % 2 ^ 23 = 0 := by omega
    rw [if_neg (by omega), h₁, h₂, show k + 2 - 1 = k + 1 by omega, Nat.pow_succ]
    omega

/-- Every pattern is some significand at some step, below the next step. -/
theorem exists_step (p : Nat) : ∃ k m, p = k * 2 ^ 23 + m ∧ m < 2 ^ 24 ∧ (k = 0 ∨ 2 ^ 23 ≤ m) := by
  rcases Nat.eq_zero_or_pos (p / 2 ^ 23) with h | h
  · exact ⟨0, p, by omega, by omega, .inl rfl⟩
  · exact ⟨p / 2 ^ 23 - 1, 2 ^ 23 + p % 2 ^ 23, by omega, by omega, .inr (by omega)⟩

theorem patMag_lt_succ (p : Nat) : patMag p < patMag (p + 1) := by
  obtain ⟨k, m, rfl, hm, hk⟩ := exists_step p
  rw [patMag_step (by omega) hk, Nat.add_assoc, patMag_step (by omega) (by omega)]
  exact Nat.mul_lt_mul_of_pos_right (by omega) (Nat.two_pow_pos k)

/-- Magnitudes rise with patterns. -/
theorem patMag_strictMono : StrictMono patMag := strictMono_nat_of_lt_succ patMag_lt_succ

theorem roundHalfEven_cases (p q : Nat) :
    (roundHalfEven p q = p / q ∧ 2 * (p % q) ≤ q ∧ (2 * (p % q) = q → p / q % 2 = 0)) ∨
    (roundHalfEven p q = p / q + 1 ∧ q ≤ 2 * (p % q) ∧ (2 * (p % q) = q → (p / q + 1) % 2 = 0)) := by
  unfold roundHalfEven
  split
  · exact .inl ⟨rfl, by omega, by omega⟩
  split
  · exact .inr ⟨rfl, by omega, by omega⟩
  split
  · exact .inl ⟨rfl, by omega, by omega⟩
  · exact .inr ⟨rfl, by omega, by omega⟩

/-- The significand before rounding lies in the range of its step. -/
theorem significand_range (p q : Nat) :
    p / (q * 2 ^ (Nat.log2 (p / q) - 23)) < 2 ^ 24 ∧
    (Nat.log2 (p / q) - 23 = 0 ∨ 2 ^ 23 ≤ p / (q * 2 ^ (Nat.log2 (p / q) - 23))) := by
  rw [← Nat.div_div_eq_div_mul]
  generalize p / q = n
  rcases Nat.lt_or_ge n.log2 24 with h | h
  · have hk : n.log2 - 23 = 0 := by omega
    rw [hk, Nat.pow_zero, Nat.div_one]
    exact ⟨lt_of_lt_of_le Nat.lt_log2_self (Nat.pow_le_pow_right (by decide) (by omega)), .inl rfl⟩
  · have hn : n ≠ 0 := by rintro rfl; simp at h
    have h₁ := Nat.lt_log2_self (n := n)
    have h₂ := Nat.log2_self_le hn
    have e₁ : n.log2 + 1 = 24 + (n.log2 - 23) := by omega
    have e₂ : 2 ^ n.log2 = 2 ^ 23 * 2 ^ (n.log2 - 23) := by rw [← Nat.pow_add]; congr 1; omega
    rw [e₁, Nat.pow_add] at h₁
    exact ⟨(Nat.div_lt_iff_lt_mul (Nat.two_pow_pos _)).mpr h₁,
      .inr ((Nat.le_div_iff_mul_le (Nat.two_pow_pos _)).mpr (e₂ ▸ h₂))⟩

/-- The rounded pattern before the cut at infinity. -/
def rawPattern (p q : Nat) : Nat :=
  (Nat.log2 (p / q) - 23) * 2 ^ 23 + roundHalfEven p (q * 2 ^ (Nat.log2 (p / q) - 23))

theorem roundPattern_eq_min (p q : Nat) : F32.roundPattern p q = min (rawPattern p q) 0x7F800000 := rfl

/-- The distance of a pattern's magnitude from `p / q`, times `q`. -/
def patDist (p q u : Nat) : Nat := ((patMag u : Int) * q - p).natAbs

/-- R11: no pattern is nearer to `p / q` than the rounded one, and where another is as near the rounded one is even. -/
theorem rawPattern_nearest (p q : Nat) (hq : 0 < q) (u : Nat) :
    patDist p q (rawPattern p q) ≤ patDist p q u ∧
    (patDist p q (rawPattern p q) = patDist p q u → u ≠ rawPattern p q → rawPattern p q % 2 = 0) := by
  obtain ⟨hm, hk⟩ := significand_range p q
  unfold rawPattern
  generalize Nat.log2 (p / q) - 23 = k at *
  have hd : 0 < q * 2 ^ k := Nat.mul_pos hq (Nat.two_pow_pos k)
  have hdiv := Nat.div_add_mod p (q * 2 ^ k)
  have hmod := Nat.mod_lt p hd
  have hr := roundHalfEven_cases p (q * 2 ^ k)
  generalize p / (q * 2 ^ k) = m at *
  generalize p % (q * 2 ^ k) = r at *
  have lo : patMag (k * 2 ^ 23 + m) = m * 2 ^ k := patMag_step (by omega) hk
  have hi : patMag (k * 2 ^ 23 + (m + 1)) = (m + 1) * 2 ^ k := patMag_step (by omega) (by omega)
  have eLo : ((patMag (k * 2 ^ 23 + m) : Int) * q - p) = -r := by
    rw [lo, ← hdiv]; push_cast; ring
  have eHi : ((patMag (k * 2 ^ 23 + (m + 1)) : Int) * q - p) = (q * 2 ^ k : Nat) - r := by
    rw [hi, ← hdiv]; push_cast; ring
  have dLo : patDist p q (k * 2 ^ 23 + m) = r := by unfold patDist; rw [eLo]; omega
  have dHi : patDist p q (k * 2 ^ 23 + (m + 1)) = q * 2 ^ k - r := by unfold patDist; rw [eHi]; omega
  have below : ∀ u, u < k * 2 ^ 23 + m → r < patDist p q u := by
    intro u hu
    have h₁ : (patMag u : Int) * q < (patMag (k * 2 ^ 23 + m) : Int) * q :=
      mul_lt_mul_of_pos_right (by exact_mod_cast patMag_strictMono hu) (by exact_mod_cast hq)
    unfold patDist; omega
  have above : ∀ u, k * 2 ^ 23 + (m + 1) < u → q * 2 ^ k - r < patDist p q u := by
    intro u hu
    have h₁ : (patMag (k * 2 ^ 23 + (m + 1)) : Int) * q < (patMag u : Int) * q :=
      mul_lt_mul_of_pos_right (by exact_mod_cast patMag_strictMono hu) (by exact_mod_cast hq)
    unfold patDist; omega
  have place : u < k * 2 ^ 23 + m ∨ u = k * 2 ^ 23 + m ∨ u = k * 2 ^ 23 + (m + 1) ∨ k * 2 ^ 23 + (m + 1) < u := by omega
  rcases hr with ⟨hr, h₁, h₂⟩ | ⟨hr, h₁, h₂⟩ <;> rw [hr]
  · rw [dLo]
    rcases place with h | rfl | rfl | h
    · have := below u h; exact ⟨by omega, by omega⟩
    · exact ⟨by omega, fun _ hne => absurd rfl hne⟩
    · rw [dHi]; exact ⟨by omega, fun he _ => by have := h₂ (by omega); omega⟩
    · have := above u h; exact ⟨by omega, by omega⟩
  · rw [dHi]
    rcases place with h | rfl | rfl | h
    · have := below u h; exact ⟨by omega, by omega⟩
    · rw [dLo]; exact ⟨by omega, fun he _ => by have := h₂ (by omega); omega⟩
    · exact ⟨by omega, fun _ hne => absurd rfl hne⟩
    · have := above u h; exact ⟨by omega, by omega⟩

/-- A value that some pattern has is that pattern. -/
theorem rawPattern_exact {p q u : Nat} (hq : 0 < q) (h : p = patMag u * q) : rawPattern p q = u := by
  have h₁ := (rawPattern_nearest p q hq u).1
  have h₂ : patDist p q u = 0 := by unfold patDist; rw [h]; push_cast; omega
  have h₃ : ((patMag (rawPattern p q) : Int) * q - p) = 0 := by unfold patDist at *; omega
  rw [h] at h₃ ⊢
  push_cast at h₃
  rw [← sub_mul, Int.mul_eq_zero] at h₃
  exact patMag_strictMono.injective (by omega)

/-- Rounding is monotone: `p / q ≤ p' / q'`. -/
theorem rawPattern_mono {p q p' q' : Nat} (hq : 0 < q) (hq' : 0 < q') (h : p * q' ≤ p' * q) :
    rawPattern p q ≤ rawPattern p' q' := by
  by_contra hlt
  have n₁ := rawPattern_nearest p q hq
  have n₂ := rawPattern_nearest p' q' hq'
  generalize rawPattern p q = a at *
  generalize rawPattern p' q' = b at *
  have hab : patMag b < patMag a := patMag_strictMono (by omega)
  have d₁ := (n₁ b).1
  have d₂ := (n₂ a).1
  zify at h hq hq' hab
  have e₁ : ((patMag a : Int) + patMag b) * q ≤ 2 * p := by
    have := mul_lt_mul_of_pos_right hab hq
    unfold patDist at d₁; rw [add_mul]; omega
  have e₂ : 2 * (p' : Int) ≤ ((patMag a : Int) + patMag b) * q' := by
    have := mul_lt_mul_of_pos_right hab hq'
    unfold patDist at d₂; rw [add_mul]; omega
  have f₁ := mul_le_mul_of_nonneg_right e₁ hq'.le
  have f₂ := mul_le_mul_of_nonneg_right e₂ hq.le
  have f₃ : (patMag a + patMag b : Int) * q * q' = (patMag a + patMag b) * q' * q := by ring
  have g₁ : ((patMag a : Int) + patMag b) * q = 2 * p := by
    refine le_antisymm e₁ (le_of_mul_le_mul_right (a := (q' : Int)) ?_ hq')
    linarith
  have g₂ : 2 * (p' : Int) = ((patMag a : Int) + patMag b) * q' := by
    refine le_antisymm e₂ (le_of_mul_le_mul_right (a := (q : Int)) ?_ hq)
    linarith
  rw [add_mul] at g₁ g₂
  have hA := mul_lt_mul_of_pos_right hab hq
  have hA' := mul_lt_mul_of_pos_right hab hq'
  have even_a := (n₁ b).2 (by unfold patDist; omega) (by omega)
  have even_b := (n₂ a).2 (by unfold patDist; omega) (by omega)
  have c₁ : patMag b < patMag (b + 1) := patMag_lt_succ b
  have c₂ : patMag (b + 1) < patMag a := patMag_strictMono (by omega)
  zify at c₁ c₂
  have k₁ := mul_lt_mul_of_pos_right c₁ hq
  have k₂ := mul_lt_mul_of_pos_right c₂ hq
  have := (n₁ (b + 1)).1
  unfold patDist at this
  omega

theorem patMag_maxFinite : patMag 0x7F7FFFFF = (2 ^ 25 - 2) * 2 ^ 252 := by decide +kernel
theorem patMag_infinity : patMag 0x7F800000 = 2 ^ 25 * 2 ^ 252 := by decide +kernel

/-- R11: rounding reaches infinity exactly from half a unit above the largest finite magnitude on. -/
theorem infinity_le_rawPattern (p q : Nat) (hq : 0 < q) :
    0x7F800000 ≤ rawPattern p q ↔ (2 ^ 25 - 1) * 2 ^ 252 * q ≤ p := by
  have nF := rawPattern_nearest p q hq 0x7F7FFFFF
  have nI := rawPattern_nearest p q hq 0x7F800000
  have mF := patMag_maxFinite
  have mI := patMag_infinity
  generalize hu : (2 : Nat) ^ 252 = u at *
  have hmul : ∀ c : Nat, c * u * q = c * (u * q) := fun c => Nat.mul_assoc c u q
  have hpos : 0 < u * q := Nat.mul_pos (hu ▸ Nat.two_pow_pos 252) hq
  have vF : ((patMag 0x7F7FFFFF : Int)) * q = (2 ^ 25 - 2) * ((u * q : Nat) : Int) := by rw [mF]; push_cast; ring
  have vI : ((patMag 0x7F800000 : Int)) * q = 2 ^ 25 * ((u * q : Nat) : Int) := by rw [mI]; push_cast; ring
  unfold patDist at nF nI
  rw [vF] at nF
  rw [vI] at nI
  rw [hmul]
  generalize hr : rawPattern p q = r at *
  generalize u * q = w at *
  constructor
  · intro h
    have h₁ : (patMag 0x7F800000 : Int) * q ≤ (patMag r : Int) * q :=
      mul_le_mul_of_nonneg_right (by exact_mod_cast patMag_strictMono.monotone h) (by omega)
    rw [vI] at h₁
    have := nF.1
    omega
  · intro h
    by_contra hlt
    have h₁ : (patMag r : Int) * q ≤ (patMag 0x7F7FFFFF : Int) * q :=
      mul_le_mul_of_nonneg_right (by exact_mod_cast patMag_strictMono.monotone (by omega)) (by omega)
    have h₂ := nI.1
    rw [vF] at h₁
    have h₃ : (patMag r : Int) * q = (patMag 0x7F7FFFFF : Int) * q := by rw [vF]; omega
    have h₄ : patMag r = patMag 0x7F7FFFFF := by
      have := Int.eq_of_mul_eq_mul_right (by omega) h₃
      exact_mod_cast this
    have h₅ := patMag_strictMono.injective h₄
    have h₆ := nI.2 (by omega) (by omega)
    omega

/-- A nearest magnitude gives a nearest signed value, when zero is no nearer. -/
theorem nearest_signed {a b x : Int} {p : Nat} {neg s : Bool} (ha : 0 ≤ a) (hb : 0 ≤ b) (hx : x.natAbs = p)
    (hs : p ≠ 0 → (neg = true ↔ x < 0)) (h₀ : (a - p).natAbs ≤ p) (h : (a - p).natAbs ≤ (b - p).natAbs) :
    ((if neg then -a else a) - x).natAbs ≤ ((if s then -b else b) - x).natAbs ∧
    (((if neg then -a else a) - x).natAbs = ((if s then -b else b) - x).natAbs →
      (if s then -b else b) ≠ (if neg then -a else a) → (a - p).natAbs = (b - p).natAbs ∧ a ≠ b) := by
  have hs' : x ≠ 0 → (neg = true ↔ x < 0) := fun h => hs (by omega)
  cases neg <;> cases s <;> simp at * <;> omega

/-! ### The operations on words -/

theorem F32.mag_eq (x : Word) : F32.mag x = patMag (x.toNat % 2 ^ 31) := by
  unfold F32.mag F32.expo F32.frac patMag
  have h₁ : x.toNat / 2 ^ 23 % 2 ^ 8 = x.toNat % 2 ^ 31 / 2 ^ 23 := by omega
  have h₂ : x.toNat % 2 ^ 23 = x.toNat % 2 ^ 31 % 2 ^ 23 := by omega
  rw [h₁, h₂]

theorem F32.sign_eq (x : Word) : F32.sign x = decide (2 ^ 31 ≤ x.toNat) := by
  have h := x.isLt
  have : F32.sign x = decide (x.toNat / 2 ^ 31 % 2 = 1) := Nat.testBit_eq_decide_div_mod_eq
  rw [this]; congr 1; rw [eq_iff_iff]; omega

theorem F32.isFinite_iff (x : Word) : F32.isFinite x = true ↔ x.toNat % 2 ^ 31 < 0x7F800000 := by
  unfold F32.isFinite F32.expo; rw [bne_iff_ne]; omega

theorem F32.isInf_iff (x : Word) : F32.isInf x = true ↔ x.toNat % 2 ^ 31 = 0x7F800000 := by
  unfold F32.isInf F32.expo F32.frac; rw [Bool.and_eq_true, beq_iff_eq, beq_iff_eq]; omega

theorem F32.isNaN_iff (x : Word) : F32.isNaN x = true ↔ 0x7F800000 < x.toNat % 2 ^ 31 := by
  unfold F32.isNaN F32.expo F32.frac; rw [Bool.and_eq_true, beq_iff_eq, bne_iff_ne]; omega

theorem F32.natAbs_value (x : Word) : (F32.value x).natAbs = F32.mag x := by
  unfold F32.value; split <;> omega

section pack
variable {p : Nat} (hp : p < 2 ^ 31) (neg : Bool)
include hp

theorem F32.toNat_pack : (F32.pack neg p).toNat = (if neg then 2 ^ 31 else 0) + p := by
  unfold F32.pack; rw [BitVec.toNat_ofNat]; split <;> omega

theorem F32.sign_pack : F32.sign (F32.pack neg p) = neg := by
  rw [F32.sign_eq, F32.toNat_pack hp]; cases neg <;> simp; omega

theorem F32.pattern_pack : (F32.pack neg p).toNat % 2 ^ 31 = p := by
  rw [F32.toNat_pack hp]; split <;> omega

theorem F32.mag_pack : F32.mag (F32.pack neg p) = patMag p := by rw [F32.mag_eq, F32.pattern_pack hp]

theorem F32.value_pack : F32.value (F32.pack neg p) = if neg then -(patMag p : Int) else patMag p := by
  unfold F32.value; rw [F32.sign_pack hp, F32.mag_pack hp]

end pack

theorem F32.roundPattern_le (p q : Nat) : F32.roundPattern p q ≤ 0x7F800000 := Nat.min_le_right _ _

/-- A rounded quotient is never NaN. -/
theorem F32.isNaN_pack_round (neg : Bool) (p q : Nat) : F32.isNaN (F32.pack neg (F32.roundPattern p q)) = false := by
  have h := F32.roundPattern_le p q
  rw [Bool.eq_false_iff, ne_eq, F32.isNaN_iff, F32.pattern_pack (by omega)]; omega

theorem F32.roundPattern_lt (p q : Nat) : F32.roundPattern p q < 2 ^ 31 :=
  lt_of_le_of_lt (F32.roundPattern_le p q) (by decide)

theorem F32.roundPattern_mono {p q p' q' : Nat} (hq : 0 < q) (hq' : 0 < q') (h : p * q' ≤ p' * q) :
    F32.roundPattern p q ≤ F32.roundPattern p' q' := by
  have := rawPattern_mono hq hq' h
  rw [roundPattern_eq_min, roundPattern_eq_min]; omega

theorem F32.roundPattern_exact {p q u : Nat} (hq : 0 < q) (hu : u ≤ 0x7F800000) (h : p = patMag u * q) :
    F32.roundPattern p q = u := by
  rw [roundPattern_eq_min, rawPattern_exact hq h]; omega

theorem F32.roundPattern_zero {q : Nat} (hq : 0 < q) : F32.roundPattern 0 q = 0 :=
  F32.roundPattern_exact hq (by omega) (by rw [show patMag 0 = 0 by decide]; omega)

theorem patMag_eq_zero {p : Nat} : patMag p = 0 ↔ p = 0 := by
  rw [← show patMag 0 = 0 by decide]; exact patMag_strictMono.injective.eq_iff

/-- A whole number of units that is not zero does not round to zero. -/
theorem F32.roundPattern_one_ne_zero {p : Nat} (hp : p ≠ 0) : F32.roundPattern p 1 ≠ 0 := by
  have := F32.roundPattern_mono (p := 1) (q := 1) (p' := p) (q' := 1) (by omega) (by omega) (by omega)
  rw [F32.roundPattern_exact (u := 1) (by omega) (by omega) (by rw [show patMag 1 = 1 by decide])] at this
  omega

/-- R11: a rounded quotient with the quotient's sign is correctly rounded. -/
theorem roundedNearestEven_pack {neg : Bool} {x : Int} {p q : Nat} (hq : 0 < q) (hx : x.natAbs = p)
    (hs : p ≠ 0 → (neg = true ↔ x < 0)) : RoundedNearestEven (F32.pack neg (F32.roundPattern p q)) x q := by
  unfold RoundedNearestEven
  rw [hx]
  have hinf := infinity_le_rawPattern p q hq
  rw [roundPattern_eq_min]
  split
  · rename_i h
    have hp : p ≠ 0 := by
      rintro rfl
      have : 0 < (2 ^ 25 - 1) * 2 ^ 252 * q := Nat.mul_pos (by decide) hq
      exact absurd this (by omega)
    rw [Nat.min_eq_right (hinf.mpr h)]
    congr 1
    have := hs hp
    cases neg <;> simp_all
  · rename_i h
    have hlt : rawPattern p q < 0x7F800000 := Nat.lt_of_not_le (mt hinf.mp h)
    clear h hinf
    rw [Nat.min_eq_left (by omega)]
    refine ⟨by rw [F32.isFinite_iff, F32.pattern_pack (by omega)]; exact hlt, fun u _ => ?_⟩
    have hnear := rawPattern_nearest p q hq (u.toNat % 2 ^ 31)
    have hz := (rawPattern_nearest p q hq 0).1
    have hfrac : F32.frac (F32.pack neg (rawPattern p q)) % 2 = rawPattern p q % 2 := by
      unfold F32.frac; have := F32.pattern_pack (p := rawPattern p q) (by omega) neg; omega
    have hv : F32.value u =
        if F32.sign u then -(patMag (u.toNat % 2 ^ 31) : Int) else patMag (u.toNat % 2 ^ 31) := by
      unfold F32.value; rw [F32.mag_eq]
    rw [hfrac, F32.value_pack (by omega), hv]
    have hz0 : patDist p q 0 = p := by unfold patDist; rw [show patMag 0 = 0 by decide]; omega
    rw [hz0] at hz
    unfold patDist at *
    have key := nearest_signed (a := (patMag (rawPattern p q) : Int) * q)
      (b := (patMag (u.toNat % 2 ^ 31) : Int) * q) (s := F32.sign u) (by positivity) (by positivity) hx hs hz hnear.1
    have dist : ∀ (b : Bool) (y : Int), (if b then -y else y) * (q : Int) = if b then -(y * q) else y * q := by
      intro b y; cases b <;> simp
    rw [dist, dist]
    refine ⟨key.1, fun he hne => ?_⟩
    obtain ⟨k₁, k₂⟩ := key.2 he fun hc => hne (by
      rw [← dist, ← dist] at hc
      exact Int.eq_of_mul_eq_mul_right (by omega) hc)
    exact hnear.2 k₁ fun hc => k₂ (by rw [hc])

/-! ### Classes, signs and comparisons -/

theorem F32.not_nan_of_finite {x : Word} (h : F32.isFinite x = true) : F32.isNaN x = false := by
  rw [F32.isFinite_iff] at h; rw [Bool.eq_false_iff, ne_eq, F32.isNaN_iff]; omega

theorem F32.not_inf_of_finite {x : Word} (h : F32.isFinite x = true) : F32.isInf x = false := by
  rw [F32.isFinite_iff] at h; rw [Bool.eq_false_iff, ne_eq, F32.isInf_iff]; omega

theorem F32.finite_or_inf {x : Word} (h : F32.isNaN x = false) : F32.isFinite x = true ∨ F32.isInf x = true := by
  rw [Bool.eq_false_iff, ne_eq, F32.isNaN_iff] at h
  rw [F32.isFinite_iff, F32.isInf_iff]; omega

theorem F32.isNaN_pack {p : Nat} (hp : p ≤ 0x7F800000) (neg : Bool) : F32.isNaN (F32.pack neg p) = false := by
  rw [Bool.eq_false_iff, ne_eq, F32.isNaN_iff, F32.pattern_pack (by omega)]; omega

theorem F32.isFinite_pack {p : Nat} (hp : p < 0x7F800000) (neg : Bool) : F32.isFinite (F32.pack neg p) = true := by
  rw [F32.isFinite_iff, F32.pattern_pack (by omega)]; omega

theorem F32.mag_of_inf {x : Word} (h : F32.isInf x = true) : F32.mag x = 2 ^ 25 * 2 ^ 252 := by
  rw [F32.isInf_iff] at h; rw [F32.mag_eq, h, patMag_infinity]

theorem F32.mag_lt_of_finite {x : Word} (h : F32.isFinite x = true) : F32.mag x < 2 ^ 25 * 2 ^ 252 := by
  rw [F32.isFinite_iff] at h; rw [F32.mag_eq, ← patMag_infinity]; exact patMag_strictMono h

theorem F32.lt_iff {x y : Word} (hx : F32.isNaN x = false) (hy : F32.isNaN y = false) :
    F32.lt x y = true ↔ F32.value x < F32.value y := by
  unfold F32.lt; simp [hx, hy]

theorem F32.le_iff {x y : Word} (hx : F32.isNaN x = false) (hy : F32.isNaN y = false) :
    F32.le x y = true ↔ F32.value x ≤ F32.value y := by
  unfold F32.le; simp [hx, hy]

theorem F32.sign_of_value_ne_zero {x : Word} (h : F32.value x ≠ 0) : F32.sign x = decide (F32.value x < 0) := by
  unfold F32.value at *; cases hs : F32.sign x <;> simp_all; omega

theorem F32.value_eq_mag {x : Word} (h : 0 ≤ F32.value x) : F32.value x = F32.mag x := by
  unfold F32.value at *; split <;> simp_all

theorem F32.sign_neg (y : Word) : F32.sign (F32.neg y) = !F32.sign y := by
  unfold F32.sign F32.neg; rw [BitVec.getLsbD_xor]; simp

theorem F32.pattern_neg (y : Word) : (F32.neg y).toNat % 2 ^ 31 = y.toNat % 2 ^ 31 := by
  unfold F32.neg; rw [BitVec.toNat_xor, Nat.xor_mod_two_pow]; simp

theorem F32.value_neg (y : Word) : F32.value (F32.neg y) = -F32.value y := by
  unfold F32.value; rw [F32.sign_neg, F32.mag_eq, F32.mag_eq, F32.pattern_neg]; cases F32.sign y <;> simp

theorem F32.isFinite_neg (y : Word) : F32.isFinite (F32.neg y) = F32.isFinite y := by
  rw [Bool.eq_iff_iff, F32.isFinite_iff, F32.isFinite_iff, F32.pattern_neg]

theorem F32.isNaN_neg (y : Word) : F32.isNaN (F32.neg y) = F32.isNaN y := by
  rw [Bool.eq_iff_iff, F32.isNaN_iff, F32.isNaN_iff, F32.pattern_neg]

theorem F32.isInf_neg (y : Word) : F32.isInf (F32.neg y) = F32.isInf y := by
  rw [Bool.eq_iff_iff, F32.isInf_iff, F32.isInf_iff, F32.pattern_neg]

/-! ### What the operations give for finite operands -/

theorem F32.add_finite {x y : Word} (hx : F32.isFinite x = true) (hy : F32.isFinite y = true) :
    F32.add x y =
      if F32.value x + F32.value y = 0 then F32.pack (F32.sign x && F32.sign y) 0
      else F32.pack (decide (F32.value x + F32.value y < 0))
        (F32.roundPattern (F32.value x + F32.value y).natAbs 1) := by
  unfold F32.add
  simp only [F32.not_nan_of_finite hx, F32.not_nan_of_finite hy, F32.not_inf_of_finite hx, F32.not_inf_of_finite hy,
    Bool.or_false, Bool.false_eq_true, if_false]

theorem F32.sub_finite {x y : Word} (hx : F32.isFinite x = true) (hy : F32.isFinite y = true) :
    F32.sub x y = F32.add x (F32.neg y) := by
  unfold F32.sub; rw [F32.not_nan_of_finite hx, F32.not_nan_of_finite hy]; rfl

theorem F32.mul_finite {x y : Word} (hx : F32.isFinite x = true) (hy : F32.isFinite y = true) :
    F32.mul x y = F32.pack (F32.sign x != F32.sign y) (F32.roundPattern (F32.mag x * F32.mag y) (2 ^ 149)) := by
  unfold F32.mul
  simp only [F32.not_nan_of_finite hx, F32.not_nan_of_finite hy, F32.not_inf_of_finite hx, F32.not_inf_of_finite hy,
    Bool.or_false, Bool.false_eq_true, if_false]

theorem F32.div_finite {x y : Word} (hx : F32.isFinite x = true) (hy : F32.isFinite y = true) (h : F32.mag y ≠ 0) :
    F32.div x y = F32.pack (F32.sign x != F32.sign y) (F32.roundPattern (F32.mag x * 2 ^ 149) (F32.mag y)) := by
  unfold F32.div
  simp only [F32.not_nan_of_finite hx, F32.not_nan_of_finite hy, F32.not_inf_of_finite hx, F32.not_inf_of_finite hy,
    Bool.or_false, Bool.false_eq_true, if_false, h]

/-- An infinity stays itself under a finite subtrahend. -/
theorem F32.sub_of_inf {x y : Word} (hx : F32.isInf x = true) (hn : F32.isNaN x = false) (hy : F32.isFinite y = true) :
    F32.sub x y = x := by
  unfold F32.sub F32.add
  simp only [hx, hn, F32.not_nan_of_finite hy, F32.isNaN_neg, F32.isInf_neg, F32.not_inf_of_finite hy, Bool.or_false,
    Bool.false_eq_true, if_false, if_true, Bool.false_and]

/-- An infinity over a finite divisor is the infinity of the quotient's sign. -/
theorem F32.div_of_inf {x y : Word} (hx : F32.isInf x = true) (hn : F32.isNaN x = false) (hy : F32.isFinite y = true) :
    F32.div x y = F32.pack (F32.sign x != F32.sign y) 0x7F800000 := by
  unfold F32.div
  simp only [hx, hn, F32.not_nan_of_finite hy, F32.not_inf_of_finite hy, Bool.or_false, Bool.false_eq_true, if_false,
    if_true]

theorem F32.isNaN_mul_finite {x y : Word} (hx : F32.isFinite x = true) (hy : F32.isFinite y = true) :
    F32.isNaN (F32.mul x y) = false := by
  rw [F32.mul_finite hx hy]; exact F32.isNaN_pack_round _ _ _

/-- Adding a finite value to what is no NaN gives no NaN. -/
theorem F32.isNaN_add_finite {x y : Word} (hx : F32.isNaN x = false) (hy : F32.isFinite y = true) :
    F32.isNaN (F32.add x y) = false := by
  unfold F32.add
  simp only [hx, F32.not_nan_of_finite hy, F32.not_inf_of_finite hy, Bool.or_false, Bool.false_eq_true, if_false,
    Bool.false_and]
  split
  · exact hx
  · split
    · exact F32.isNaN_pack (by omega) _
    · exact F32.isNaN_pack_round _ _ _

/-- `f32(n)` of a number that some pattern has exactly. -/
theorem F32.ofNat_exact {n u : Nat} (h : patMag u = n * 2 ^ 149) (hu : u < 0x7F800000) :
    F32.ofNat n = F32.pack false u := by
  unfold F32.ofNat; rw [F32.roundPattern_exact (u := u) (by omega) (by omega) (by rw [h]; omega)]

/-- Every integer up to `2^23` has a pattern. -/
theorem exists_pattern {n : Nat} (hn : n ≤ 2 ^ 23) : ∃ u, patMag u = n * 2 ^ 149 ∧ u < 0x7F800000 := by
  rcases Nat.eq_zero_or_pos n with rfl | h
  · exact ⟨0, by decide, by omega⟩
  · have h₁ := Nat.log2_self_le (show n ≠ 0 by omega)
    have h₂ := Nat.lt_log2_self (n := n)
    have hl : n.log2 ≤ 23 := by
      by_contra hc
      have : 2 ^ 24 ≤ 2 ^ n.log2 := Nat.pow_le_pow_right (by decide) (by omega)
      omega
    have e : 2 ^ 23 = 2 ^ n.log2 * 2 ^ (23 - n.log2) := by rw [← Nat.pow_add]; congr 1; omega
    have e₂ : 2 ^ 24 = 2 ^ (n.log2 + 1) * 2 ^ (23 - n.log2) := by rw [← Nat.pow_add]; congr 1; omega
    have m₁ : 2 ^ 23 ≤ n * 2 ^ (23 - n.log2) := by rw [e]; exact Nat.mul_le_mul_right _ h₁
    have m₂ : n * 2 ^ (23 - n.log2) < 2 ^ 24 := by
      rw [e₂]; exact Nat.mul_lt_mul_of_pos_right h₂ (Nat.two_pow_pos _)
    refine ⟨(126 + n.log2) * 2 ^ 23 + n * 2 ^ (23 - n.log2), ?_, by omega⟩
    rw [patMag_step (by omega) (.inr m₁), Nat.mul_assoc, ← Nat.pow_add]
    congr 2; omega

end Sys2Proof.Machine
end

