-- ==== Sys2Proof/Laws/PerInstr.lean ====
section
/-! SUPPORT. Families of statements with one lemma per constructor of `Instr`. `RowAccepts`: the command word of an
operation belongs to the operation's own row of spec/opcode_table.json (spec/30_encoding.md R102, R113). -/

namespace Sys2Proof.Laws.RowAccepts

open Sys2Proof

/-- The word the encoder writes for an operation has the bits that its table row's mask and match ask for. -/
def Statement (i : Instr) : Prop := i.row.accepts i.word = true

/-- No bit of a WIDTH in place is a bit that the rows of WBITS, RBITS, WCHK and RCHK fix. -/
theorem widthBits_masked (w : Width) : widthBits w &&& 0xFFFFC0FF = 0 := by
  apply BitVec.eq_of_toNat_eq
  revert w
  decide +kernel

/-- A row with the mask of a WIDTH operation accepts its pattern with any WIDTH. -/
theorem accepts_width (p : Word) (w : Width) (h : p &&& 0xFFFFC0FF = p) :
    ((p ||| widthBits w) &&& 0xFFFFC0FF == p) = true := by
  have hd : (p ||| widthBits w) &&& 0xFFFFC0FF = (p &&& 0xFFFFC0FF) ||| (widthBits w &&& 0xFFFFC0FF) := by
    ext k
    simp only [BitVec.getElem_and, BitVec.getElem_or, Bool.and_or_distrib_right]
  rw [hd, h, widthBits_masked, show p ||| 0 = p from BitVec.or_zero, beq_self_eq_true]

/-- A row that fixes every bit accepts its own pattern. -/
theorem accepts_whole (p : Word) : (p &&& 0xFFFFFFFF == p) = true := by
  rw [show p &&& 0xFFFFFFFF = p from BitVec.and_allOnes, beq_self_eq_true]

/-- The row of BIND accepts both directions. -/
theorem accepts_d (d : Dir) : ((0x00000001 ||| d.bit) &&& 0xFFFFFFDF == (0x00000001 : Word)) = true := by
  cases d <;> decide

/-- A row with the mask of an operation that reads S accepts its pattern with both values of S. -/
theorem accepts_s (p : Word) (sg : Sign) (h : p = 0x05 ∨ p = 0x06 ∨ p = 0x26) :
    ((p ||| sg.bit) &&& 0xFFFFFFBF == p) = true := by
  rcases h with rfl | rfl | rfl <;> cases sg <;> decide

theorem bind (d : Dir) (c : Word) : Statement (.bind d c) := accepts_d d
theorem wbits (w : Width) (v : Word) : Statement (.wbits w v) := accepts_width _ w (by decide)
theorem rbits (w : Width) : Statement (.rbits w) := accepts_width _ w (by decide)
theorem wchk (w : Width) : Statement (.wchk w) := accepts_width _ w (by decide)
theorem rchk (w : Width) : Statement (.rchk w) := accepts_width _ w (by decide)
theorem wflush : Statement .wflush := accepts_whole _
theorem rflush : Statement .rflush := accepts_whole _
theorem bfr (sg : Sign) (lo hi : Word) : Statement (.bfr sg lo hi) :=
  accepts_s 0x00000005 sg (by decide)
theorem wint (sg : Sign) (v lo hi : Word) : Statement (.wint sg v lo hi) :=
  accepts_s 0x00000006 sg (by decide)
theorem rint (sg : Sign) (lo hi : Word) : Statement (.rint sg lo hi) :=
  accepts_s 0x00000026 sg (by decide)
theorem wf32 (v : Word) : Statement (.wf32 v) := accepts_whole _
theorem rf32 : Statement .rf32 := accepts_whole _
theorem wqf (v lo hi res : Word) : Statement (.wqf v lo hi res) := accepts_whole _
theorem rqf (lo hi res : Word) : Statement (.rqf lo hi res) := accepts_whole _
theorem walign : Statement .walign := accepts_whole _
theorem ralign : Statement .ralign := accepts_whole _
theorem wbytes (len : Word) (bs : List Byte) : Statement (.wbytes len bs) := accepts_whole _
theorem rbytes (len : Word) : Statement (.rbytes len) := accepts_whole _
theorem wstr (len : Word) (bs : List Byte) : Statement (.wstr len bs) := accepts_whole _
theorem rstr (dcap : Word) : Statement (.rstr dcap) := accepts_whole _

end Sys2Proof.Laws.RowAccepts
end

