-- ==== Sys2Proof/Laws/Quantizer.lean ====
section
/-! SUPPORT. The quantization specs that pass QParams (spec/44_floatcodec.md R231) and what their numbers are; the two
clamps (R232, R233). -/

namespace Sys2Proof.Machine

/-- A quantization spec that passes QParams, with what it gives (R231). -/
structure Spec (mn mx res delta : Word) (steps : Nat) : Prop where
  mnFinite  : F32.isFinite mn = true
  mxFinite  : F32.isFinite mx = true
  resFinite : F32.isFinite res = true
  resPos    : F32.lt F32.zero res = true
  ordered   : F32.lt mx mn = false
  deltaEq   : delta = F32.sub mx mn
  deltaFits : F32.isInf delta = false
  quotFits  : F32.isInf (F32.div delta res) = false
  stepsFit  : F32.ceil (F32.div delta res) ≤ 4294967295
  stepsEq   : steps = (F32.ceil (F32.div delta res)).toNat

theorem qParams_eq_some {mn mx res delta : Word} {steps : Nat} :
    qParams mn mx res = some (delta, steps) ↔ Spec mn mx res delta steps := by
  unfold qParams
  dsimp only
  constructor
  · intro h
    repeat (split at h; · cases h)
    cases h
    rename_i h0 _ _ _ _ _
    simp at h0
    exact ⟨h0.1.1, h0.1.2, h0.2, by simp_all, by simp_all, rfl, by simp_all, by simp_all, by omega, rfl⟩
  · intro h
    have hd := h.deltaEq
    rw [h.mnFinite, h.mxFinite, h.resFinite, h.resPos, h.ordered, ← hd, h.deltaFits, h.quotFits]
    simp [h.stepsFit, h.stepsEq]

namespace Spec

variable {mn mx res delta : Word} {steps : Nat}

theorem res_pos (h : Spec mn mx res delta steps) : 0 < F32.mag res ∧ F32.sign res = false := by
  have hv := (F32.lt_iff (by decide) (F32.not_nan_of_finite h.resFinite)).mp h.resPos
  rw [show F32.value F32.zero = 0 by decide] at hv
  have := F32.value_eq_mag (x := res) (by omega)
  refine ⟨by omega, ?_⟩
  rw [F32.sign_of_value_ne_zero (by omega), decide_eq_false_iff_not]; omega

theorem le (h : Spec mn mx res delta steps) : F32.value mn ≤ F32.value mx := by
  have := h.ordered
  rw [Bool.eq_false_iff, ne_eq, F32.lt_iff (F32.not_nan_of_finite h.mxFinite) (F32.not_nan_of_finite h.mnFinite)] at this
  omega

theorem steps_lt (h : Spec mn mx res delta steps) : steps < 2 ^ 32 := by
  have := h.stepsFit; have := h.stepsEq; omega

/-- The difference, up to the sign of a zero, as one rounded pattern. -/
theorem delta_eq_pack (h : Spec mn mx res delta steps) :
    ∃ neg, delta = F32.pack neg (F32.roundPattern (F32.value mx - F32.value mn).toNat 1) ∧
      (neg = true → F32.value mn = F32.value mx) := by
  have ho := h.le
  rw [h.deltaEq, F32.sub_finite h.mxFinite h.mnFinite,
    F32.add_finite h.mxFinite ((F32.isFinite_neg mn).trans h.mnFinite), F32.value_neg, ← Int.sub_eq_add_neg]
  split
  · rename_i h0
    rw [h0]
    exact ⟨_, rfl, fun _ => by omega⟩
  · refine ⟨false, ?_, fun hc => by cases hc⟩
    rw [show decide (F32.value mx - F32.value mn < 0) = false by simp; omega,
      show (F32.value mx - F32.value mn).natAbs = (F32.value mx - F32.value mn).toNat by omega]

theorem mag_delta (h : Spec mn mx res delta steps) :
    F32.mag delta = patMag (F32.roundPattern (F32.value mx - F32.value mn).toNat 1) := by
  obtain ⟨neg, hd, -⟩ := h.delta_eq_pack
  rw [hd, F32.mag_pack (F32.roundPattern_lt _ _)]

theorem delta_finite (h : Spec mn mx res delta steps) : F32.isFinite delta = true := by
  obtain ⟨neg, hd, -⟩ := h.delta_eq_pack
  have hn : F32.isNaN delta = false := by rw [hd]; exact F32.isNaN_pack_round _ _ _
  rcases F32.finite_or_inf hn with hf | hf
  · exact hf
  · rw [h.deltaFits] at hf; cases hf

/-- `delta` is 0 exactly when the bounds are equal. -/
theorem mag_delta_eq_zero (h : Spec mn mx res delta steps) : F32.mag delta = 0 ↔ F32.value mn = F32.value mx := by
  have ho := h.le
  rw [h.mag_delta, patMag_eq_zero]
  constructor
  · intro hz
    by_contra hne
    exact F32.roundPattern_one_ne_zero (by omega) hz
  · intro he
    rw [he, sub_self]; exact F32.roundPattern_zero (by omega)

theorem delta_sign (h : Spec mn mx res delta steps) (hne : F32.value mn ≠ F32.value mx) : F32.sign delta = false := by
  obtain ⟨neg, hd, hs⟩ := h.delta_eq_pack
  rw [hd, F32.sign_pack (F32.roundPattern_lt _ _)]
  cases neg
  · rfl
  · exact absurd (hs rfl) hne

/-- The quotient of R231 as one rounded pattern, below infinity. -/
theorem value_quotient (h : Spec mn mx res delta steps) :
    F32.value (F32.div delta res) = patMag (F32.roundPattern (F32.mag delta * 2 ^ 149) (F32.mag res)) ∧
    F32.roundPattern (F32.mag delta * 2 ^ 149) (F32.mag res) < 0x7F800000 := by
  obtain ⟨hr, hs⟩ := h.res_pos
  have hdiv := F32.div_finite h.delta_finite h.resFinite (by omega)
  have hq := h.quotFits
  have hlt := F32.roundPattern_lt (F32.mag delta * 2 ^ 149) (F32.mag res)
  have hle := F32.roundPattern_le (F32.mag delta * 2 ^ 149) (F32.mag res)
  constructor
  · rw [hdiv, F32.value_pack hlt, hs]
    by_cases he : F32.value mn = F32.value mx
    · rw [h.mag_delta_eq_zero.mpr he, Nat.zero_mul, F32.roundPattern_zero hr]
      cases F32.sign delta <;> decide
    · rw [h.delta_sign he]; rfl
  · rw [Bool.eq_false_iff, ne_eq, F32.isInf_iff, hdiv, F32.pattern_pack hlt] at hq; omega

/-- The number of steps is exact in binary32: it is the ceiling of a binary32 value. -/
theorem steps_exact (h : Spec mn mx res delta steps) : ∃ u, patMag u = steps * 2 ^ 149 ∧ u < 0x7F800000 := by
  obtain ⟨hq, hle⟩ := h.value_quotient
  have hst := h.stepsEq
  generalize F32.roundPattern (F32.mag delta * 2 ^ 149) (F32.mag res) = p at *
  unfold F32.ceil at hst
  rw [hq] at hst
  clear hq
  obtain ⟨k, m, hp, hm, hk⟩ := exists_step p
  by_cases h149 : 149 ≤ k
  · refine ⟨p, ?_, hle⟩
    rw [hp, patMag_step (by omega) hk] at hst ⊢
    have e : m * 2 ^ k = m * 2 ^ (k - 149) * 2 ^ 149 := by rw [Nat.mul_assoc, ← Nat.pow_add]; congr 2; omega
    rw [e] at hst ⊢
    generalize m * 2 ^ (k - 149) = z at *
    have hc : -(((z * 2 ^ 149 : Nat) : Int)) / 2 ^ 149 = -z := by
      push_cast; rw [← neg_mul]; exact Int.mul_ediv_cancel _ (by positivity)
    rw [hc] at hst
    rw [show steps = z by rw [hst]; simp]
  · apply exists_pattern
    rw [hp, patMag_step (by omega) hk] at hst
    have hz : m * 2 ^ k ≤ 2 ^ 23 * 2 ^ 149 := by
      calc m * 2 ^ k ≤ 2 ^ 24 * 2 ^ 148 := Nat.mul_le_mul (by omega) (Nat.pow_le_pow_right (by decide) (by omega))
        _ = 2 ^ 23 * 2 ^ 149 := by decide +kernel
    generalize m * 2 ^ k = z at *
    have hw : (0 : Int) < 2 ^ 149 := by positivity
    have hz' : (z : Int) ≤ 2 ^ 23 * 2 ^ 149 := by exact_mod_cast hz
    clear hz
    generalize (2 : Int) ^ 149 = w at *
    have : -(2 ^ 23 : Int) ≤ -(z : Int) / w := by rw [Int.le_ediv_iff_mul_le hw]; linarith
    omega

end Spec

/-! ### The clamps -/

/-- R232: the clamp takes what is not above 0 to a zero. -/
theorem clampUnit_nonpos {n : Word} (hn : F32.isNaN n = false) (hv : F32.value n ≤ 0) :
    F32.isFinite (clampUnit n) = true ∧ F32.mag (clampUnit n) = 0 := by
  have h₀ : F32.isNaN F32.zero = false := by decide
  have h₁ : F32.isNaN F32.one = false := by decide
  have v₀ : F32.value F32.zero = 0 := by decide
  have v₁ : F32.value F32.one = 2 ^ 149 := by decide +kernel
  unfold clampUnit
  dsimp only
  by_cases h : F32.lt n F32.zero = true
  · rw [if_pos h, if_neg (by decide)]; decide
  · rw [if_neg h]
    rw [F32.lt_iff hn h₀, v₀] at h
    have hz : F32.value n = 0 := by omega
    have hm : F32.mag n = 0 := by have := F32.natAbs_value n; omega
    rw [if_neg (by rw [F32.lt_iff h₁ hn, v₁, hz]; decide)]
    refine ⟨?_, hm⟩
    rcases F32.finite_or_inf hn with hf | hf
    · exact hf
    · rw [F32.mag_of_inf hf] at hm
      exact absurd hm (Nat.mul_pos (by decide) (Nat.two_pow_pos 252)).ne'

/-- R232: the clamp takes what is at or above 1 to 1. -/
theorem clampUnit_ge_one {p : Nat} (hp : p ≤ 0x7F800000) (hb : 0x3F800000 ≤ p) :
    clampUnit (F32.pack false p) = F32.one := by
  have h₀ : F32.isNaN F32.zero = false := by decide
  have h₁ : F32.isNaN F32.one = false := by decide
  have v₀ : F32.value F32.zero = 0 := by decide
  have hone : F32.one = F32.pack false 0x3F800000 := by decide
  have hn := F32.isNaN_pack hp false
  have hv : F32.value (F32.pack false p) = patMag p := by rw [F32.value_pack (by omega)]; rfl
  have v₁ : F32.value F32.one = patMag 0x3F800000 := by rw [hone, F32.value_pack (by omega)]; rfl
  have hlt : F32.lt (F32.pack false p) F32.zero = false := by
    rw [Bool.eq_false_iff, ne_eq, F32.lt_iff hn h₀, hv, v₀]; omega
  unfold clampUnit
  simp only [hlt, Bool.false_eq_true, if_false]
  split
  · rfl
  · rename_i h
    rw [F32.lt_iff h₁ hn, hv, v₁] at h
    have : p ≤ 0x3F800000 := patMag_strictMono.le_iff_le.mp (by omega)
    rw [hone]; congr 1; omega

/-- R233: the clamp into ordered bounds lands between them. -/
theorem clampInto_between {r mn mx : Word} (hr : F32.isNaN r = false) (h₁ : F32.isFinite mn = true)
    (h₂ : F32.isFinite mx = true) (ho : F32.value mn ≤ F32.value mx) :
    F32.le mn (clampInto r mn mx) = true ∧ F32.le (clampInto r mn mx) mx = true := by
  have n₁ := F32.not_nan_of_finite h₁
  have n₂ := F32.not_nan_of_finite h₂
  have upper : ∀ r, F32.isNaN r = false → F32.value mn ≤ F32.value r →
      F32.le mn (if F32.lt mx r = true then mx else r) = true ∧
      F32.le (if F32.lt mx r = true then mx else r) mx = true := by
    intro r hr hv
    split
    · rw [F32.le_iff n₁ n₂, F32.le_iff n₂ n₂]; exact ⟨ho, le_refl _⟩
    · rename_i h
      rw [F32.lt_iff n₂ hr] at h
      rw [F32.le_iff n₁ hr, F32.le_iff hr n₂]; omega
  unfold clampInto
  dsimp only
  by_cases h : F32.lt r mn = true
  · simp only [h, if_true]; exact upper mn n₁ (le_refl _)
  · have h' := h
    rw [F32.lt_iff hr n₁] at h'
    simp only [h]
    exact upper r hr (by omega)

theorem qEncode_le (v mn delta : Word) (steps : Nat) : qEncode v mn delta steps ≤ steps := by
  unfold qEncode
  split
  · exact Nat.zero_le _
  · exact Nat.min_le_right _ _

end Sys2Proof.Machine
end

