-- ==== Sys2Proof/Laws/Ready.lean ====
section
/-! SUPPORT. What a stream command's body leaves when it starts from a state that the gates admit and that satisfies the
invariants: a writer has appended some bits, a reader has taken some, and a raised code is one that R340 lists. -/

namespace Sys2Proof.Machine

/-- A writing body ends well with some bits appended, or raises a latching code with some bits appended. -/
def Res.WritesFrom {α : Type} (r : Res α) (s : State) : Prop :=
  match r with
  | .ok _ t => ∃ bits, Wrote s t bits
  | .raised e t => (∃ bits, Wrote s t bits) ∧ e ≠ .ok ∧ e ≠ .notReady
  | .absent _ => False

/-- A reading body ends well with some bits taken, or raises a latching code with some bits taken. -/
def Res.ReadsFrom {α : Type} (r : Res α) (s : State) : Prop :=
  match r with
  | .ok _ t => ∃ bits, Took s t bits
  | .raised e t => (∃ bits, Took s t bits) ∧ e ≠ .ok ∧ e ≠ .notReady
  | .absent _ => False

theorem Res.WritesFrom.bind {α β : Type} {r : Res α} {s : State} {k : α → State → Res β} (hs : WriterReady s)
    (h : r.WritesFrom s) (hk : ∀ a t, WriterReady t → (k a t).WritesFrom t) : (r.bind k).WritesFrom s := by
  cases r with
  | ok a t =>
    obtain ⟨b₁, h₁⟩ := h
    have h₂ := hk a t h₁.ready
    rw [Res.bind_ok]
    cases hr : k a t with
    | ok b u => rw [hr] at h₂; obtain ⟨b₂, h₂⟩ := h₂; exact ⟨_, h₁.trans hs h₂⟩
    | raised e u => rw [hr] at h₂; obtain ⟨⟨b₂, h₂⟩, he⟩ := h₂; exact ⟨⟨_, h₁.trans hs h₂⟩, he⟩
    | absent i => rw [hr] at h₂; exact h₂
  | raised e t => exact h
  | absent i => exact h

theorem Res.ReadsFrom.bind {α β : Type} {r : Res α} {s : State} {k : α → State → Res β}
    (h : r.ReadsFrom s) (hk : ∀ a t, ReaderReady t → (k a t).ReadsFrom t) : (r.bind k).ReadsFrom s := by
  cases r with
  | ok a t =>
    obtain ⟨b₁, h₁⟩ := h
    have h₂ := hk a t h₁.ready
    rw [Res.bind_ok]
    cases hr : k a t with
    | ok b u => rw [hr] at h₂; obtain ⟨b₂, h₂⟩ := h₂; exact ⟨_, h₁.trans h₂⟩
    | raised e u => rw [hr] at h₂; obtain ⟨⟨b₂, h₂⟩, he⟩ := h₂; exact ⟨⟨_, h₁.trans h₂⟩, he⟩
    | absent i => rw [hr] at h₂; exact h₂
  | raised e t => exact h
  | absent i => exact h

theorem WriterReady.ok {α : Type} {s : State} (h : WriterReady s) (a : α) : (Res.ok a s).WritesFrom s :=
  ⟨[], .refl h⟩

theorem WriterReady.raised {α : Type} {s : State} (h : WriterReady s) {e : Status} (he : e ≠ .ok ∧ e ≠ .notReady) :
    (Res.raised e s : Res α).WritesFrom s := ⟨⟨[], .refl h⟩, he⟩

theorem ReaderReady.ok {α : Type} {s : State} (h : ReaderReady s) (a : α) : (Res.ok a s).ReadsFrom s :=
  ⟨[], .refl h⟩

theorem ReaderReady.raised {α : Type} {s : State} (h : ReaderReady s) {e : Status} (he : e ≠ .ok ∧ e ≠ .notReady) :
    (Res.raised e s : Res α).ReadsFrom s := ⟨⟨[], .refl h⟩, he⟩

theorem writeBits_writes {s : State} (h : WriterReady s) (v : Word) (w : Nat) : (writeBits v w s).WritesFrom s := by
  rcases writeBits_cases h v w with ⟨-, hr⟩ | ⟨-, -, hr⟩ | ⟨-, -, t, hr, ht⟩ <;> rw [hr]
  · exact h.raised (by decide)
  · exact h.raised (by decide)
  · exact ⟨_, ht⟩

theorem readBits_reads {s : State} (h : ReaderReady s) (w : Nat) : (readBits w s).ReadsFrom s := by
  rcases readBits_cases h w with ⟨-, hr⟩ | ⟨-, -, hr⟩ | ⟨-, -, v, t, hr, -, ht⟩ <;> rw [hr]
  · exact h.raised (by decide)
  · exact h.raised (by decide)
  · exact ⟨_, ht⟩

theorem alignWrite_writes {s : State} (h : WriterReady s) : (alignWrite s).WritesFrom s := by
  obtain ⟨t, ht, hw⟩ := alignWrite_pads h
  rw [ht]; exact ⟨_, hw⟩

theorem alignRead_reads {s : State} (h : ReaderReady s) : (alignRead s).ReadsFrom s := by
  obtain ⟨t, ht, hr⟩ := alignRead_cases h
  rw [hr]
  split
  · exact ⟨_, ht⟩
  · exact ⟨⟨_, ht⟩, by decide⟩

theorem writeBlock_writes {s : State} (h : WriterReady s) (bs : List Byte) : (writeBlock bs s).WritesFrom s := by
  rcases writeBlock_cases bs h with ⟨-, hr⟩ | ⟨-, t, hr, ht⟩ <;> rw [hr]
  · exact h.raised (by decide)
  · exact ⟨_, ht⟩

theorem readBlock_reads {s : State} (h : ReaderReady s) (n : Nat) : (readBlock n s).ReadsFrom s := by
  rcases readBlock_cases n h with ⟨-, hr⟩ | ⟨-, bs, t, hr, -, ht⟩ <;> rw [hr]
  · exact h.raised (by decide)
  · exact ⟨_, ht⟩

theorem encodeInt_writes {s : State} (h : WriterReady s) (v lo hi : Int) : (encodeInt v lo hi s).WritesFrom s := by
  unfold encodeInt
  split
  · exact h.raised (by decide)
  split
  · exact h.raised (by decide)
  · exact writeBits_writes h _ _

theorem decodeInt_reads {s : State} (h : ReaderReady s) (lo hi : Int) : (decodeInt lo hi s).ReadsFrom s := by
  unfold decodeInt
  split
  · exact h.raised (by decide)
  split
  · exact h.raised (by decide)
  refine (readBits_reads h _).bind fun code t ht => ?_
  split
  · exact ht.raised (by decide)
  · exact ht.ok _

theorem quantizeOut_writes {s : State} (h : WriterReady s) (v mn mx res : Word) :
    (quantizeOut v mn mx res s).WritesFrom s := by
  unfold quantizeOut
  split
  · exact h.raised (by decide)
  split
  · exact h.raised (by decide)
  · exact encodeInt_writes h _ _ _

theorem quantizeIn_reads {s : State} (h : ReaderReady s) (mn mx res : Word) :
    (quantizeIn mn mx res s).ReadsFrom s := by
  unfold quantizeIn
  split
  · exact h.raised (by decide)
  · exact (decodeInt_reads h _ _).bind fun _ _ ht => ht.ok _

/-- R42, R145: a writer's command other than WFLUSH keeps the writer ready, or fails with bits appended. -/
theorem body_writes {i : Instr} (hi : i.side = some .writer) (hf : i ≠ .wflush) {s : State} (h : WriterReady s) :
    (body i s).WritesFrom s := by
  cases i <;> cases hi
  case wflush => exact absurd rfl hf
  case wchk => exact h.ok _
  case wbits => exact (writeBits_writes h _ _).bind h fun _ _ ht => ht.ok _
  case wint => exact (encodeInt_writes h _ _ _).bind h fun _ _ ht => ht.ok _
  case wf32 => exact (writeBits_writes h _ _).bind h fun _ _ ht => ht.ok _
  case wqf => exact (quantizeOut_writes h _ _ _ _).bind h fun _ _ ht => ht.ok _
  case walign => exact (alignWrite_writes h).bind h fun _ _ ht => ht.ok _
  case wbytes =>
    exact (alignWrite_writes h).bind h fun _ _ ht => (writeBlock_writes ht _).bind ht fun _ _ hu => hu.ok _
  case wstr =>
    exact (encodeInt_writes h _ _ _).bind h fun _ _ ht => (alignWrite_writes ht).bind ht fun _ _ hu =>
      (writeBlock_writes hu _).bind hu fun _ _ hw => hw.ok _

/-- R43, R174: a reader's command keeps the reader ready, or fails with bits taken. -/
theorem body_reads {i : Instr} (hi : i.side = some .reader) {s : State} (h : ReaderReady s) :
    (body i s).ReadsFrom s := by
  cases i <;> cases hi
  case rchk => exact h.ok _
  case rflush => exact h.ok _
  case rbits => exact (readBits_reads h _).bind fun _ _ ht => ht.ok _
  case rint => exact (decodeInt_reads h _ _).bind fun _ _ ht => ht.ok _
  case rf32 => exact (readBits_reads h _).bind fun _ _ ht => ht.ok _
  case rqf => exact (quantizeIn_reads h _ _ _).bind fun _ _ ht => ht.ok _
  case ralign => exact (alignRead_reads h).bind fun _ _ ht => ht.ok _
  case rbytes =>
    exact (alignRead_reads h).bind fun _ _ ht => (readBlock_reads ht _).bind fun _ _ hu => hu.ok _
  case rstr =>
    refine (decodeInt_reads h _ _).bind fun _ _ ht => ?_
    split
    · exact ht.raised (by decide)
    · exact (alignRead_reads ht).bind fun _ _ hu => (readBlock_reads hu _).bind fun _ _ hw => hw.ok _

/-- R143: the terminal flush of a ready writer: the words and the pad as WFLUSH leaves them. -/
theorem flush_spec {s : State} (h : WriterReady s) :
    ∃ t, flush s = .ok () t ∧
      t = { s with phase := .done, cursor := t.cursor, scratch := 0, sbits := 0, buf := t.buf } ∧
      t.cursor.toNat = (s.writePos + 31) / 32 ∧
      (s.sbits = 0 → t.buf = s.buf) ∧
      (s.sbits ≠ 0 → t.buf = s.buf.writeWord s.cursor.toNat (s.scratch.setWidth 32)) := by
  have hs := h.inv.sbits_le
  have hroom := h.inv.writer_room h.dir
  have hcap := h.inv.cap_le
  have hbw := s.bufWords.isLt
  simp only [Config.maxBufWords] at hbw
  unfold flush
  by_cases h0 : s.sbits = 0
  · have hsc : s.scratch = 0 := by
      have := h.inv.scratch_lt
      rw [h0] at this
      exact BitVec.eq_of_toNat_eq (by simpa using this)
    rw [if_neg (by simpa using h0), Res.bind_ok]
    refine ⟨_, rfl, by rw [hsc, h0], ?_, fun _ => rfl, fun h => absurd h0 h⟩
    unfold State.writePos; rw [h0]; simp; omega
  · have hpos : 0 < s.sbits.toNat := by
      rcases Nat.eq_zero_or_pos s.sbits.toNat with hz | hz
      · exact absurd (BitVec.eq_of_toNat_eq (by simpa using hz)) h0
      · exact hz
    rw [if_pos (by simpa using h0)]
    unfold commit memWrite
    rw [if_pos (by omega)]
    refine ⟨_, rfl, rfl, ?_, fun h => absurd h h0, fun _ => rfl⟩
    simp only [BitVec.toNat_add, State.writePos, BitVec.ofNat_eq_ofNat, BitVec.toNat_ofNat]
    omega

/-- R43 (5): a reader whose scratch mirrors the buffer reads the buffer's bits from its position on. -/
theorem unreadBit_of_mirrors {s : State} (h : ReaderReady s) (hm : ScratchMirrors s) (k : Nat) :
    s.unreadBit k = s.bufBit (s.pos.toNat + k) := by
  have hp := h.inv.reader_pos h.dir
  unfold State.unreadBit
  rw [State.pos_reader h.dir]
  split
  · rename_i hk
    rw [hm h.phase h.dir k hk]
    congr 1; omega
  · congr 1; omega

/-- Taking bits keeps the scratch a mirror of the buffer. -/
theorem Took.mirrors {s t : State} {bits : List Bool} (h : ReaderReady s) (hm : ScratchMirrors s) (ht : Took s t bits) :
    ScratchMirrors t := by
  intro _ _ j hj
  have hb := ht.ready.inv.reader_budget ht.ready.dir
  have hc := ht.ready.inv.reader_cursor ht.ready.dir
  have hpt := ht.ready.inv.reader_pos ht.ready.dir
  have hps := h.inv.reader_pos h.dir
  have hj' : j < t.budget.toNat := by omega
  have hlen := ht.con.budget
  have h₁ : t.unreadBit j = s.unreadBit (bits.length + j) := by
    have e := ht.unread_eq
    have l₁ : j < t.unread.length := by simpa using hj'
    have h2 : t.unread[j] = (s.unread.drop bits.length)[j]'(e ▸ l₁) := by simp only [e]
    rw [State.getElem_unread, List.getElem_drop, State.getElem_unread] at h2
    exact h2
  have h₂ : t.unreadBit j = t.scratch.getLsbD j := by unfold State.unreadBit; rw [if_pos hj]
  rw [← h₂, h₁, unreadBit_of_mirrors h hm]
  have hpos := ht.con.pos
  rw [State.pos_reader h.dir, State.pos_reader ht.ready.dir] at hpos
  rw [State.pos_reader h.dir]
  unfold State.bufBit
  rw [ht.con.memory]
  have : (32 * (s.cursor.toNat : Int) - s.sbits.toNat).toNat + (bits.length + j) = 32 * t.cursor.toNat - t.sbits.toNat + j := by
    omega
  rw [this]

/-! ### Invariants of the states that answers and failures leave -/

theorem Inv.answer {s : State} (h : Inv s) (e : Status) (r : Word) (b : List Byte) : Inv (s.answer e r b) :=
  ⟨h.cap_le, h.sbits_le, h.scratch_lt, h.writer_room, h.writer_budget, h.reader_budget, h.reader_cursor, h.reader_pos,
    h.done_empty, h.unbound_zero, h.err_ok, h.err_latched, h.buf_wf, h.buf_within⟩

theorem Inv.fail {s : State} (h : Inv s) (hp : s.phase = .active) {e : Status} (he : e ≠ .ok ∧ e ≠ .notReady) :
    Inv (s.fail e) := by
  have h0 := h.err_of_active hp
  have hf : (s.fail e).err = e := by rw [State.fail_err, if_pos h0]
  refine ⟨h.cap_le, h.sbits_le, h.scratch_lt, h.writer_room, h.writer_budget, h.reader_budget, h.reader_cursor,
    h.reader_pos, fun hx => (by cases hx), fun hx => (by cases hx), ?_, ?_, h.buf_wf, h.buf_within⟩
  · rw [hf]; simp [he.1]
  · rw [hf]; exact he.2

/-- The invariants do not speak of the port or the reply. -/
theorem Inv.withPort {s : State} (h : Inv s) (p : List HostEvent) (r : Option Reply) :
    Inv { s with port := p, reply := r } :=
  ⟨h.cap_le, h.sbits_le, h.scratch_lt, h.writer_room, h.writer_budget, h.reader_budget, h.reader_cursor, h.reader_pos,
    h.done_empty, h.unbound_zero, h.err_ok, h.err_latched, h.buf_wf, h.buf_within⟩

/-! ### Commands, by what their bodies give -/

theorem WriterReady.completes {i : Instr} {s u : State} {bits : List Bool} (h : WriterReady s)
    (hi : i.side = some .writer) (hu : Wrote s u bits) (hb : body i s = .ok (0, []) u) :
    CompletesAppending (Machine.exec i s) s bits := by
  rw [h.exec hi, hb]; exact completesAppending_answer hu.app

theorem WriterReady.fails {i : Instr} {s u : State} {e : Status} (h : WriterReady s) (hi : i.side = some .writer)
    (hu : WriterReady u) (hb : body i s = .raised e u) : FailsFrom (Machine.exec i s) u e := by
  rw [h.exec hi, hb]; exact failsFrom_fail (hu.inv.err_of_active hu.phase)

theorem ReaderReady.completes {i : Instr} {s u : State} {bits : List Bool} {result : Word} {bout : List Byte}
    (h : ReaderReady s) (hi : i.side = some .reader) (hu : Took s u bits) (hb : body i s = .ok (result, bout) u) :
    CompletesConsuming (Machine.exec i s) s bits result bout := by
  rw [h.exec hi, hb]; exact completesConsuming_answer hu.con _ _

theorem ReaderReady.fails {i : Instr} {s u : State} {e : Status} (h : ReaderReady s) (hi : i.side = some .reader)
    (hu : ReaderReady u) (hb : body i s = .raised e u) : FailsFrom (Machine.exec i s) u e := by
  rw [h.exec hi, hb]; exact failsFrom_fail (hu.inv.err_of_active hu.phase)

/-! ### Streams whose next bits are known in two parts -/

theorem take_add_eq_append {α : Type} {l a b : List α} {m n : Nat} (h : l.take (m + n) = a ++ b) (ha : a.length = m) :
    l.take m = a ∧ (l.drop m).take n = b := by
  rw [List.take_add] at h
  have hl : (l.take m).length = m := by
    have := congrArg List.length h
    simp only [List.length_append, List.length_take, List.length_drop] at *
    omega
  exact List.append_inj h (by omega)

/-- R274: a block whose bytes are known from the stream is delivered. -/
theorem readBlock_of_take {s : State} {bs : List Byte} {n : Nat} (h : ReaderReady s) (hn : bs.length = n)
    (ht : s.unread.take (8 * n) = bs.flatMap byteBits) :
    ∃ t, readBlock n s = .ok bs t ∧ Took s t (bs.flatMap byteBits) := by
  have hb := le_budget_of_take (by rw [length_flatMap_byteBits, hn]) ht
  rcases readBlock_cases n h with ⟨a, -⟩ | ⟨-, bs', t, hr, hl, htk⟩
  · omega
  · have : bs' = bs := by
      apply bytes_eq_of_bits
      rw [← ht, htk.con.stream, List.take_left' (by rw [length_flatMap_byteBits, hl])]
    subst this
    exact ⟨t, hr, htk⟩

/-- Whole words do not change the pad. -/
theorem Wrote.padBits_word {s t : State} {bits : List Bool} (h : WriterReady s) (hw : Wrote s t bits)
    (hb : bits.length = 32) : t.padBits = s.padBits := by
  rw [hw.padBits_eq, h.pad_eq, hb]; omega

theorem Took.padBits_word {s t : State} {bits : List Bool} (h : ReaderReady s) (ht : Took s t bits)
    (hb : bits.length = 32) : t.padBits = s.padBits := by
  rw [ht.padBits_eq h, hb]; unfold State.padBits; omega

/-- R277 step 1: the length prefix takes 32 bits or fails. -/
theorem encodeLength_cases {s : State} (h : WriterReady s) (len : Word) :
    (32 * s.cap.toNat < s.writePos + 32 ∧ encodeInt (len.toNat : Int) 0 uint32Max s = .raised .bufferOverrun s) ∨
    (s.writePos + 32 ≤ 32 * s.cap.toNat ∧
      ∃ t, encodeInt (len.toNat : Int) 0 uint32Max s = .ok () t ∧ Wrote s t (fieldBits len 32)) := by
  have hb : bitsForRange 0 uint32Max = 32 := by decide
  have hm : uint32Max = 4294967295 := rfl
  have hp : pat32 ((len.toNat : Int) - 0) = len := by simp [pat32]
  have := len.isLt
  rcases encodeInt_cases h (v := len.toNat) (lo := 0) (hi := uint32Max) (by decide) with
    ⟨a, -⟩ | ⟨-, a, -⟩ | ⟨-, -, a, b⟩ | ⟨-, -, a, b⟩
  · omega
  · omega
  · rw [hb] at a; exact .inl ⟨a, b⟩
  · rw [hb] at a b; rw [hp] at b; exact .inr ⟨a, b⟩

/-- R278 step 1: a length prefix known from the stream is decoded. -/
theorem decodeLength_of_take {s : State} (h : ReaderReady s) {len : Word} (ht : s.unread.take 32 = fieldBits len 32) :
    ∃ t, Took s t (fieldBits len 32) ∧ decodeInt 0 uint32Max s = .ok (len.toNat : Int) t := by
  have hb : bitsForRange 0 uint32Max = 32 := by decide
  have hm : uint32Max = 4294967295 := rfl
  have := len.isLt
  obtain ⟨t, htk, he⟩ := decodeInt_of_take h (lo := 0) (hi := uint32Max) (by decide) (by decide) (code := len)
    (by rw [hb]; exact this) (by rw [hb]; exact ht)
  rw [if_neg (by omega)] at he
  rw [hb] at htk
  exact ⟨t, htk, by simpa using he⟩

end Sys2Proof.Machine
end

