-- ==== Sys2Proof/Machine/Assembler.lean ====
section
/-! DEFINITION. Assembler text, spec/30_encoding.md R115: one line to one command. The rule fixes the
mnemonics, the operand order, decimal and `0x` numbers, decimal or `0x` floats, and byte strings in quotes or brackets;
what it leaves open (spaces, the range of a number, the letters of a hex digit) is log entry 8. -/

namespace Sys2Proof.Machine

/-- The value of a decimal or hexadecimal digit. -/
def digitValue (c : Char) : Option Nat :=
  let n := c.toNat
  if 48 ≤ n ∧ n ≤ 57 then some (n - 48)
  else if 97 ≤ n ∧ n ≤ 102 then some (n - 87)
  else if 65 ≤ n ∧ n ≤ 70 then some (n - 55)
  else none

/-- The number that digits of a base go on to write after `acc`. -/
def readDigits (base : Nat) : List Char → Nat → Option Nat
  | [], acc => some acc
  | c :: cs, acc =>
    match digitValue c with
    | some d => if d < base then readDigits base cs (base * acc + d) else none
    | none => none

/-- A number with at least one digit. -/
def readNumber (base : Nat) (cs : List Char) : Option Nat := if cs.isEmpty then none else readDigits base cs 0

/-- The digits after `0x`, if the text begins so. -/
def hexDigits? (cs : List Char) : Option (List Char) := if cs.take 2 = ['0', 'x'] then some (cs.drop 2) else none

/-- What follows a minus sign, if the text begins with one. -/
def afterMinus? (cs : List Char) : Option (List Char) := if cs.take 1 = ['-'] then some (cs.drop 1) else none

/-- An integer: decimal, with a minus sign or not, or `0x`-hex (R115). -/
def readInteger (cs : List Char) : Option Int :=
  match hexDigits? cs with
  | some ds => (readNumber 16 ds).map Int.ofNat
  | none =>
    match afterMinus? cs with
    | some ds => (readNumber 10 ds).map fun n => -(n : Int)
    | none => (readNumber 10 cs).map Int.ofNat

/-- An operand word: `pat32` of a number in its range (R7). -/
def readWord? (cs : List Char) : Option Word :=
  (readInteger cs).bind fun v => if -(2 ^ 31) ≤ v ∧ v < 2 ^ 32 then some (pat32 v) else none

/-- A WIDTH, 0 to 63 (R105). -/
def readWidth? (cs : List Char) : Option Width :=
  (readInteger cs).bind fun v => if 0 ≤ v ∧ v < 64 then some (BitVec.ofInt 6 v) else none

/-- A decimal literal, with a fraction or not, as the nearest binary32 value (R115, R11). -/
def readDecimal (neg : Bool) (cs : List Char) : Option Word :=
  let whole := cs.takeWhile (· ≠ '.')
  let frac := (cs.dropWhile (· ≠ '.')).drop 1
  if whole.isEmpty ∨ (whole.length < cs.length ∧ frac.isEmpty) then none
  else (readNumber 10 (whole ++ frac)).map fun n =>
    F32.pack neg (F32.roundPattern (n * 2 ^ 149) (10 ^ frac.length))

/-- A float: a decimal literal, or its pattern in `0x`-hex (R115). -/
def readFloat? (cs : List Char) : Option Word :=
  match hexDigits? cs with
  | some ds => (readNumber 16 ds).bind fun n => if n < 2 ^ 32 then some (BitVec.ofNat 32 n) else none
  | none =>
    match afterMinus? cs with
    | some ds => readDecimal true ds
    | none => readDecimal false cs

/-- The text without spaces at its ends. -/
def trimSpaces (cs : List Char) : List Char := ((cs.dropWhile (· = ' ')).reverse.dropWhile (· = ' ')).reverse

/-- The pieces of a text between separators. -/
def pieces (sep : Char) : List Char → List (List Char)
  | [] => [[]]
  | c :: cs =>
    match pieces sep cs with
    | [] => [[c]]
    | p :: ps => if c = sep then [] :: p :: ps else (c :: p) :: ps

/-- Every entry, if there is one for every entry. -/
def collect {α β : Type} (f : α → Option β) : List α → Option (List β)
  | [] => some []
  | a :: as => (f a).bind fun b => (collect f as).map fun bs => b :: bs

/-- One byte in hex. -/
def readByte? (cs : List Char) : Option Byte :=
  (readNumber 16 cs).bind fun n => if n < 256 then some (BitVec.ofNat 8 n) else none

/-- One ASCII character. -/
def asciiByte? (c : Char) : Option Byte := if c.toNat < 128 then some (BitVec.ofNat 8 c.toNat) else none

/-- The quotation mark. -/
def quoteMark : Char := Char.ofNat 34

/-- A byte string, in quotation marks in ASCII or `[b0 b1 ...]` in hex (R115). -/
def readBytes? (cs : List Char) : Option (List Byte) :=
  let inner := (cs.drop 1).dropLast
  if cs.length < 2 then none
  else if cs.take 1 = [quoteMark] ∧ cs.getLast? = some quoteMark then collect asciiByte? inner
  else if cs.take 1 = ['['] ∧ cs.getLast? = some ']' then
    collect readByte? ((pieces ' ' inner).filter fun p => !p.isEmpty)
  else none

/-- The operand of WBYTES and WSTR with the length it stands for. -/
def readBlock? (mk : Word → List Byte → Instr) (cs : List Char) : Option Instr :=
  (readBytes? cs).bind fun bs =>
    if bs.length < 2 ^ 32 then some (mk (BitVec.ofNat 32 bs.length) bs) else none

/-- The operation that a mnemonic and its operands name, in the forms of R115. -/
def assembleForm (name text : List Char) : Option Instr :=
  let is (s : String) : Bool := name == s.toList
  let ops := if text.isEmpty then [] else (pieces ',' text).map trimSpaces
  let one (f : Word → Instr) : Option Instr :=
    match ops with
    | [a] => (readWord? a).map f
    | _ => none
  let two (f : Word → Word → Instr) : Option Instr :=
    match ops with
    | [a, b] => (readWord? a).bind fun x => (readWord? b).map fun y => f x y
    | _ => none
  let three (f : Word → Word → Word → Instr) : Option Instr :=
    match ops with
    | [a, b, c] => (readWord? a).bind fun x => (readWord? b).bind fun y => (readWord? c).map fun z => f x y z
    | _ => none
  let plain (i : Instr) : Option Instr := if ops.isEmpty then some i else none
  let width (f : Width → Instr) : Option Instr :=
    match ops with
    | [a] => (readWidth? a).map f
    | _ => none
  if is "BIND.W" then one fun c => .bind .writer c
  else if is "BIND.R" then one fun c => .bind .reader c
  else if is "WBITS" then
    (match ops with
    | [a, b] => (readWord? a).bind fun v => (readWidth? b).map fun w => Instr.wbits w v
    | _ => none)
  else if is "RBITS" then width .rbits
  else if is "WCHK" then width .wchk
  else if is "RCHK" then width .rchk
  else if is "WFLUSH" then plain .wflush
  else if is "RFLUSH" then plain .rflush
  else if is "BFR.U" then two (.bfr .unsigned)
  else if is "BFR.S" then two (.bfr .signed)
  else if is "WINT.U" then three (.wint .unsigned)
  else if is "WINT.S" then three (.wint .signed)
  else if is "RINT.U" then two (.rint .unsigned)
  else if is "RINT.S" then two (.rint .signed)
  else if is "WF32" then
    (match ops with
    | [a] => (readFloat? a).map Instr.wf32
    | _ => none)
  else if is "RF32" then plain .rf32
  else if is "WQF" then
    (match ops with
    | [a, b, c, d] => (readFloat? a).bind fun v => (readFloat? b).bind fun x => (readFloat? c).bind fun y =>
        (readFloat? d).map fun z => Instr.wqf v x y z
    | _ => none)
  else if is "RQF" then
    (match ops with
    | [b, c, d] => (readFloat? b).bind fun x => (readFloat? c).bind fun y =>
        (readFloat? d).map fun z => Instr.rqf x y z
    | _ => none)
  else if is "WALIGN" then plain .walign
  else if is "RALIGN" then plain .ralign
  else if is "WBYTES" then readBlock? .wbytes text
  else if is "RBYTES" then one .rbytes
  else if is "WSTR" then readBlock? .wstr text
  else if is "RSTR" then one .rstr
  else none

/-- The command that a line of assembler text names (R115); none if the line has none of the forms. -/
def assemble (line : String) : Option Command :=
  let cs := trimSpaces line.toList
  let name := cs.takeWhile (· ≠ ' ')
  (assembleForm name (trimSpaces (cs.drop name.length))).map encode

end Sys2Proof.Machine
end

