-- ==== Sys2Proof/Tests/Slice0.lean ====
section
/-! SUPPORT. Tests. The well-formedness smoke test; the decoding of a word of every operation, written out from the
field table of spec/30_encoding.md R101 and the word list of R114; single steps on small states, with the results of
the spec's own test vectors (spec/95_test_vectors.md, spec/96_test_vectors_families.md, the vector's id in the name);
and, for every statement that has hypotheses, a state and operands that meet them, at the ends of their ranges. -/

namespace Sys2Proof.Tests

open Sys2Proof.Machine

-- One theorem after another: as many threads as there are tests would need more memory than the check has.
set_option Elab.async false

/-! ### Well-formedness -/

theorem test_wellFormed_refuses_wbytes_of_wrong_length : (Instr.wbytes 3 [0x41, 0x42]).wellFormed = false := by decide
theorem test_wellFormed_refuses_wstr_of_wrong_length : (Instr.wstr 1 [0x41, 0x42]).wellFormed = false := by decide
theorem test_wellFormed_accepts_wstr : (Instr.wstr 2 [0x48, 0x69]).wellFormed = true := by decide

/-! ### Decoding -/

/-- A command word bit by bit from R101: bits [31:14], WIDTH, bit [7], S, D, OPC. -/
def wordOf (high : BitVec 18) (width : BitVec 6) (b7 s d : BitVec 1) (opc : BitVec 5) : Word :=
  high ++ width ++ b7 ++ s ++ d ++ opc

/-- The command with that word and those operands. -/
def cmd (w : Word) (a b c d : Word) (bin : List Byte) : Command := ⟨w, a, b, c, d, bin⟩

theorem test_decode_bind_w : decode (cmd (wordOf 0 0 0 0 0 0b00001) 2 9 9 9 []) = .ok (.bind .writer 2) := by decide
theorem test_decode_bind_r : decode (cmd (wordOf 0 0 0 0 1 0b00001) 2 9 9 9 []) = .ok (.bind .reader 2) := by decide
theorem test_decode_wbits : decode (cmd (wordOf 0 0b000011 0 0 0 0b00010) 5 9 9 9 []) = .ok (.wbits 3 5) := by decide
theorem test_decode_rbits : decode (cmd (wordOf 0 0b100000 0 0 1 0b00010) 9 9 9 9 []) = .ok (.rbits 32) := by decide
theorem test_decode_wchk : decode (cmd (wordOf 0 0b111111 0 0 0 0b00011) 9 9 9 9 []) = .ok (.wchk 63) := by decide
theorem test_decode_rchk : decode (cmd (wordOf 0 0b011100 0 0 1 0b00011) 9 9 9 9 []) = .ok (.rchk 28) := by decide
theorem test_decode_wflush : decode (cmd (wordOf 0 0 0 0 0 0b00100) 9 9 9 9 []) = .ok .wflush := by decide
theorem test_decode_rflush : decode (cmd (wordOf 0 0 0 0 1 0b00100) 9 9 9 9 []) = .ok .rflush := by decide
theorem test_decode_bfr : decode (cmd (wordOf 0 0 0 1 0 0b00101) 9 1 2 9 []) = .ok (.bfr .signed 1 2) := by decide
theorem test_decode_wint : decode (cmd (wordOf 0 0 0 0 0 0b00110) 7 5 127 9 []) = .ok (.wint .unsigned 7 5 127) := by
  decide
theorem test_decode_rint : decode (cmd (wordOf 0 0 0 1 1 0b00110) 9 5 127 9 []) = .ok (.rint .signed 5 127) := by decide
theorem test_decode_wf32 : decode (cmd (wordOf 0 0 0 0 0 0b00111) 0xBF800000 9 9 9 []) = .ok (.wf32 0xBF800000) := by
  decide
theorem test_decode_rf32 : decode (cmd (wordOf 0 0 0 0 1 0b00111) 9 9 9 9 []) = .ok .rf32 := by decide
theorem test_decode_wqf : decode (cmd (wordOf 0 0 0 0 0 0b01000) 1 2 3 4 []) = .ok (.wqf 1 2 3 4) := by decide
theorem test_decode_rqf : decode (cmd (wordOf 0 0 0 0 1 0b01000) 1 2 3 4 []) = .ok (.rqf 2 3 4) := by decide
theorem test_decode_walign : decode (cmd (wordOf 0 0 0 0 0 0b01001) 9 9 9 9 []) = .ok .walign := by decide
theorem test_decode_ralign : decode (cmd (wordOf 0 0 0 0 1 0b01001) 9 9 9 9 []) = .ok .ralign := by decide
theorem test_decode_wbytes : decode (cmd (wordOf 0 0 0 0 0 0b01010) 2 9 9 9 [0x4F, 0x4B]) =
    .ok (.wbytes 2 [0x4F, 0x4B]) := by decide
theorem test_decode_rbytes : decode (cmd (wordOf 0 0 0 0 1 0b01010) 2 9 9 9 []) = .ok (.rbytes 2) := by decide
theorem test_decode_wstr : decode (cmd (wordOf 0 0 0 0 0 0b01011) 2 9 9 9 [0x48, 0x69]) =
    .ok (.wstr 2 [0x48, 0x69]) := by decide
theorem test_decode_rstr : decode (cmd (wordOf 0 0 0 0 1 0b01011) 9 8 9 9 []) = .ok (.rstr 8) := by decide

/-- R109: bit [7], and bits [31:14] at both ends. -/
theorem test_illegal_reserved_bits :
    decode (cmd (wordOf 0 3 1 0 0 0b00010) 5 0 0 0 []) = .error .reservedBits ∧
    decode (cmd (wordOf 1 3 0 0 0 0b00010) 5 0 0 0 []) = .error .reservedBits ∧
    decode (cmd (wordOf 0x20000 3 0 0 0 0b00010) 5 0 0 0 []) = .error .reservedBits := by decide

/-- R111: OPC 0x00, 0x0C and 0x1F. -/
theorem test_illegal_opcodes :
    decode (cmd 0x00000000 0 0 0 0 []) = .error .reservedOpcode ∧
    decode (cmd 0x0000000C 0 0 0 0 []) = .error .reservedOpcode ∧
    decode (cmd 0x0000003F 0 0 0 0 []) = .error .reservedOpcode := by decide

/-- R110: S on WBITS, WIDTH on WFLUSH, D on BFR. -/
theorem test_illegal_unused_fields :
    decode (cmd 0x00000342 5 0 0 0 []) = .error .unusedField ∧
    decode (cmd 0x00000104 0 0 0 0 []) = .error .unusedField ∧
    decode (cmd 0x00000025 0 0 5 0 []) = .error .unusedField := by decide

/-- R107: a byte too many, a byte too few, bytes where none belong. -/
theorem test_illegal_byte_count :
    decode (cmd 0x0000000A 1 0 0 0 [0x41, 0x42]) = .error .byteCount ∧
    decode (cmd 0x0000000B 2 0 0 0 [0x41]) = .error .byteCount ∧
    decode (cmd 0x0000002A 1 0 0 0 [0x41]) = .error .byteCount := by decide

/-- R115: lines of the spec's own programs. -/
theorem test_assemble :
    assemble "WINT.S -3, -5, 5" = some (cmd 0x00000046 0xFFFFFFFD 0xFFFFFFFB 5 0 []) ∧
    assemble "WBITS 5,3" = some (cmd 0x00000302 5 0 0 0 []) ∧
    assemble "WBYTES [4F 4B]" = some (cmd 0x0000000A 2 0 0 0 [0x4F, 0x4B]) ∧
    assemble "WQF 1.2, 0.0, 100, 0.01" = some (cmd 0x00000008 0x3F99999A 0x00000000 0x42C80000 0x3C23D70A []) ∧
    assemble "RBITS 64" = none := by decide +kernel

/-! ### Small states -/

/-- A buffer whose first words are given. -/
def words : List Word → Nat → Memory → Memory
  | [], _, m => m
  | v :: vs, i, m => words vs (i + 1) (m.writeWord i v)

/-- An engine of four words, right after reset. -/
def idle (m : Memory) : State := { State.reset with bufWords := ⟨4, by decide⟩, buf := m }

/-- A writer in the middle of its work. -/
def writer (cap cursor : Word) (scratch : Wide) (sbits : BitVec 7) (m : Memory) : State :=
  { idle m with phase := .active, dir := .writer, cap := cap, cursor := cursor, scratch := scratch, sbits := sbits }

/-- A reader in the middle of its work. -/
def reader (cap cursor : Word) (scratch : Wide) (sbits : BitVec 7) (budget : Word) (m : Memory) : State :=
  { idle m with
    phase := .active, dir := .reader, cap := cap, cursor := cursor, scratch := scratch, sbits := sbits,
    budget := budget }

/-- The outcome is a next state that passes the check. -/
def goes (o : Host.Outcome State Fault Refusal) (p : State → Bool) : Bool :=
  match o with
  | .next t => p t
  | .fault _ => false
  | .refused _ => false

/-- The status of the last response. -/
def status (t : State) : Option Status :=
  match t.reply with
  | some (.response r) => some r.status
  | _ => none

/-- The state failed with a code. -/
def failed (t : State) (e : Status) : Bool := t.phase == .failed && t.err == e && status t == some e

/-! ### Single steps -/

theorem test_bind_example : goes (exec (.bind .reader 2) (idle [])) (fun t =>
    t.phase == .active && t.dir == .reader && t.cap == 2 && t.budget == 64 && t.reply == okReply 0 []) = true := by
  decide
theorem test_bind_over_capacity : goes (exec (.bind .writer 5) (writer 2 1 5 3 [])) (fun t =>
    failed t .illegalCommand && t.cap == 2 && t.cursor == 1 && t.scratch == 5 && t.sbits == 3) = true := by decide
theorem test_wbits_W5 : goes (exec (.wbits 32 0xFFFFFFFF) (writer 2 0 1 1 [])) (fun t =>
    t.cursor == 1 && t.scratch == 1 && t.sbits == 1 && t.buf.readWord 0 == 0xFFFFFFFF) = true := by decide +kernel
theorem test_wbits_W13 : goes (exec (.wbits 21 0) (writer 1 0 0xABC 12 [])) (fun t =>
    failed t .bufferOverrun && t.cursor == 0 && t.scratch == 0xABC && t.sbits == 12) = true := by decide +kernel
theorem test_rbits_RD2 : goes (exec (.rbits 32) (reader 2 1 0x1234567 28 60 (words [0x12345678, 0x9ABCDEF0] 0 [])))
    (fun t => t.reply == okReply 0x01234567 [] && t.cursor == 2 && t.scratch == 0x9ABCDEF && t.sbits == 28 &&
      t.budget == 28) = true := by decide +kernel
theorem test_rbits_RD11 : goes (exec (.rbits 40) (reader 2 0 0 0 64 (words [0x12345678, 0x9ABCDEF0] 0 []))) (fun t =>
    failed t .invalidWidth && t.cursor == 0 && t.budget == 64) = true := by decide +kernel
theorem test_wchk_W8 : goes (exec (.wchk 1) (writer 1 0 0 31 [])) (fun t => t.reply == okReply 0 []) = true := by decide
theorem test_wchk_W10 : goes (exec (.wchk 63) (writer 1 0 0 31 [])) (fun t =>
    t.reply == okReply 1 [] && t.phase == .active) = true := by decide
theorem test_rchk_RD3 : goes (exec (.rchk 28) (reader 2 2 0x9ABCDEF 28 28 [])) (fun t =>
    t.reply == okReply 0 []) = true := by decide
theorem test_rchk_RD4 : goes (exec (.rchk 29) (reader 2 2 0x9ABCDEF 28 28 [])) (fun t =>
    t.reply == okReply 1 [] && t.budget == 28) = true := by decide
theorem test_wflush_W15 : goes (exec .wflush (writer 2 0 0xABC 12 [])) (fun t =>
    t.phase == .done && t.cursor == 1 && t.scratch == 0 && t.sbits == 0 && t.buf.readWord 0 == 0x00000ABC) = true := by
  decide +kernel
theorem test_wflush_W18 : goes (exec .wflush { writer 2 0 0 0 [] with phase := .done }) (fun t =>
    t.reply == some (.response ⟨.notReady, 0, []⟩) && t.phase == .done && t.err == .ok) = true := by decide
theorem test_rflush_RD12 : goes (exec .rflush (reader 2 0 0 0 64 [])) (fun t =>
    t.reply == okReply 0 [] && t.phase == .active && t.budget == 64) = true := by decide
theorem test_bfr_B16 : goes (exec (.bfr .signed 0xFFFFFFFF 1) (idle [])) (fun t => t.reply == okReply 2 []) = true := by
  decide +kernel
theorem test_bfr_B17 : goes (exec (.bfr .unsigned 5 3) (idle [])) (fun t =>
    t.reply == some (.response ⟨.invalidRange, 0, []⟩) && t.phase == .unbound && t.err == .ok) = true := by
  decide +kernel
theorem test_wint_N2 : goes (exec (.wint .signed 0xFFFFFFFD 0xFFFFFFFB 5) (writer 1 0 2 7 [])) (fun t =>
    t.scratch == 0x102 && t.sbits == 11) = true := by decide +kernel
theorem test_wint_N6 : goes (exec (.wint .unsigned 9 10 3) (writer 1 0 0 0 [])) (fun t => failed t .invalidRange) = true := by
  decide +kernel
theorem test_rint_N14 : goes (exec (.rint .signed 0xFFFFFFFB 5) (reader 1 0 0 0 32 (words [2] 0 []))) (fun t =>
    t.reply == okReply 0xFFFFFFFD [] && t.sbits == 28 && t.budget == 28) = true := by decide +kernel
theorem test_rint_N12 : goes (exec (.rint .unsigned 0 5) (reader 1 1 0x5E 29 29 (words [0x2F5] 0 []))) (fun t =>
    failed t .outOfRange && t.scratch == 0xB && t.sbits == 26 && t.budget == 26) = true := by decide +kernel
theorem test_wf32_F4 : goes (exec (.wf32 0x00000001) (writer 1 0 0 0 [])) (fun t =>
    t.cursor == 1 && t.sbits == 0 && t.buf.readWord 0 == 0x00000001) = true := by decide +kernel
theorem test_wf32_F5 : goes (exec (.wf32 0xBF800000) (writer 1 0 1 1 [])) (fun t =>
    failed t .bufferOverrun && t.scratch == 1 && t.sbits == 1) = true := by decide +kernel
theorem test_rf32_F6 : goes (exec .rf32 (reader 1 0 0 0 32 (words [0x7FC00001] 0 []))) (fun t =>
    t.reply == okReply 0x7FC00001 [] && t.budget == 0) = true := by decide +kernel
theorem test_rf32_F8 : goes (exec .rf32 (reader 1 1 0 31 31 (words [0] 0 []))) (fun t =>
    failed t .budgetExhausted && t.sbits == 31 && t.budget == 31) = true := by decide +kernel
theorem test_wqf_Q4 : goes (exec (.wqf 0x3BA3D70A 0x00000000 0x42C80000 0x3C23D70A) (writer 1 0 0 0 [])) (fun t =>
    t.scratch == 1 && t.sbits == 14) = true := by decide +kernel
theorem test_wqf_Q9 : goes (exec (.wqf 0x7FC00000 0x3F800000 0x00000000 0x3F800000) (writer 1 0 0 0 [])) (fun t =>
    failed t .invalidRange) = true := by decide +kernel
theorem test_rqf_Q32 : goes (exec (.rqf 0x00000000 0x42C80000 0x3C23D70A) (reader 1 0 0 0 32 (words [0x78] 0 [])))
    (fun t => t.reply == okReply 0x3F99999A [] && t.sbits == 18) = true := by decide +kernel
theorem test_rqf_Q30 : goes (exec (.rqf 0x00000000 0x3F800000 0x3E99999A) (reader 1 0 0 0 32 (words [5] 0 [])))
    (fun t => failed t .outOfRange && t.sbits == 29 && t.budget == 29) = true := by decide +kernel

theorem test_walign_Y1 : goes (exec .walign (writer 2 0 5 3 [])) (fun t =>
    t.cursor == 0 && t.scratch == 5 && t.sbits == 8) = true := by decide +kernel
theorem test_walign_Y3 : goes (exec .walign (writer 1 0 0x7FFFFFF 27 [])) (fun t =>
    t.cursor == 1 && t.scratch == 0 && t.sbits == 0 && t.buf.readWord 0 == 0x07FFFFFF) = true := by decide +kernel
theorem test_ralign_Y11 : goes (exec .ralign (reader 1 1 0x1E 29 29 (words [0xF5] 0 []))) (fun t =>
    failed t .alignmentFault && t.cursor == 1 && t.scratch == 0 && t.sbits == 24 && t.budget == 24) = true := by
  decide +kernel
theorem test_ralign_Y13 : goes (exec .ralign (reader 1 1 0 24 24 (words [5] 0 []))) (fun t =>
    t.reply == okReply 0 [] && t.sbits == 24 && t.budget == 24) = true := by decide +kernel
theorem test_wbytes_Y4 : goes (exec (.wbytes 5 [0x41, 0x42, 0x43, 0x44, 0x45]) (writer 2 0 5 3 [])) (fun t =>
    t.cursor == 1 && t.scratch == 0x4544 && t.sbits == 16 && t.buf.readWord 0 == 0x43424105) = true := by
  decide +kernel
theorem test_wbytes_Y7 : goes (exec (.wbytes 4 [0x11, 0x22, 0x33, 0x44]) (writer 1 0 1 1 [])) (fun t =>
    failed t .bufferOverrun && t.cursor == 0 && t.scratch == 1 && t.sbits == 8) = true := by decide +kernel
theorem test_rbytes_Y10 :
    goes (exec (.rbytes 5) (reader 2 1 0x8684820 29 61 (words [0x43424105, 0x00004544] 0 []))) (fun t =>
      t.reply == okReply 0 [0x41, 0x42, 0x43, 0x44, 0x45] && t.cursor == 2 && t.scratch == 0 && t.sbits == 16 &&
      t.budget == 16) = true := by decide +kernel
theorem test_rbytes_Y14 : goes (exec (.rbytes 4) (reader 1 1 0 29 29 (words [5] 0 []))) (fun t =>
    failed t .budgetExhausted && t.cursor == 1 && t.sbits == 24 && t.budget == 24) = true := by decide +kernel
theorem test_wstr_S4 : goes (exec (.wstr 1 [0x5A]) (writer 2 0 5 3 [])) (fun t =>
    t.cursor == 1 && t.scratch == 0x5A00 && t.sbits == 16 && t.buf.readWord 0 == 0x0000000D) = true := by
  decide +kernel
theorem test_wstr_S3 : goes (exec (.wstr 1 [0x41]) (writer 1 0 0 0 [])) (fun t =>
    failed t .bufferOverrun && t.cursor == 1 && t.sbits == 0 && t.buf.readWord 0 == 0x00000001) = true := by
  decide +kernel
theorem test_rstr_S6 : goes (exec (.rstr 3) (reader 2 0 0 0 64 (words [0x00000002, 0x00006948] 0 []))) (fun t =>
    t.reply == okReply 2 [0x48, 0x69, 0x00] && t.cursor == 2 && t.scratch == 0 && t.sbits == 16 &&
      t.budget == 16) = true := by decide +kernel
theorem test_rstr_S7 : goes (exec (.rstr 2) (reader 2 0 0 0 64 (words [0x00000002, 0x00006948] 0 []))) (fun t =>
    failed t .stringCapacity && t.cursor == 1 && t.sbits == 0 && t.budget == 32) = true := by decide +kernel

/-! ### The command cycle and the ports -/

/-- The state with one event at a port. -/
def facing (ev : HostEvent) (s : State) : State := { s with port := [ev] }

/-- A writer after a failure: vector K17's start. -/
def broken : State := { writer 2 0 0 0 [] with phase := .failed, err := .invalidWidth }

theorem test_illegal_K3 : goes (step (facing (.command (cmd 0x00000080 0 0 0 0 [])) (writer 2 0 0 0 []))) (fun t =>
    failed t .illegalCommand && t.port == []) = true := by decide
theorem test_illegal_K18 : goes (step (facing (.command (cmd 0x00000080 0 0 0 0 [])) broken)) (fun t =>
    t.reply == some (.response ⟨.illegalCommand, 0, []⟩) && t.phase == .failed && t.err == .invalidWidth) = true := by
  decide
theorem test_gate_K11 : goes (step (facing (.command (cmd 0x00000322 0 0 0 0 [])) (writer 2 0 0 0 []))) (fun t =>
    failed t .illegalCommand) = true := by decide
theorem test_gate_K12 : goes (step (facing (.command (cmd 0x00000302 5 0 0 0 [])) (reader 2 0 0 0 64 []))) (fun t =>
    failed t .illegalCommand && t.budget == 64) = true := by decide
theorem test_gate_K17 : goes (step (facing (.command (cmd 0x00000302 5 0 0 0 [])) broken)) (fun t =>
    t.reply == some (.response ⟨.notReady, 0, []⟩) && t.err == .invalidWidth) = true := by decide
theorem test_csr_H3 : (reader 2 1 0 28 60 []).csr 0 = 5 ∧ (reader 2 1 0 28 60 []).csr 7 = 0x3C ∧
    (reader 2 1 0 28 60 []).csr 8 = 4 := by decide
theorem test_csr_H4 : (writer 2 0 5 3 []).csr 4 = 5 ∧ (writer 2 0 5 3 []).csr 6 = 3 ∧
    (writer 2 0 5 3 []).csr 8 = 3 := by decide
theorem test_port_H7 : goes (step (facing (.hostWrite 1 0xCAFEF00D) (idle []))) (fun t =>
    t.reply == some (.bufferWrite true) && t.buf.readWord 1 == 0xCAFEF00D) = true := by decide +kernel
theorem test_port_H8 : goes (step (facing (.hostWrite 0 1) (reader 2 0 0 0 64 (words [0, 0] 0 [])))) (fun t =>
    t.reply == some (.bufferWrite false) && t.buf.readWord 0 == 0) = true := by decide +kernel
theorem test_port_H9 : goes (step (facing (.hostRead 4) (idle []))) (fun t =>
    t.reply == some (.bufferRead 0 false)) = true := by decide
theorem test_reset_W14 : goes (step (facing .reset (writer 2 1 0xF 4 (words [0x12345ABC] 0 [])))) (fun t =>
    t.phase == .unbound && t.scratch == 0 && t.sbits == 0 && t.buf.readWord 0 == 0x12345ABC) = true := by
  decide +kernel
theorem test_fetch_word : (State.reset.withFetchWord 160 0x0000000200000021).port =
    [.command (cmd 0x00000021 2 0 0 0 [])] := by decide

/-! ### States that meet the hypotheses of the statements -/

/-- The invariants, as one computation. -/
def invCheck (s : State) : Bool :=
  decide (s.cap.toNat ≤ s.bufWords.val) && decide (s.sbits.toNat ≤ 31) &&
  decide (s.scratch.toNat < 2 ^ s.sbits.toNat) &&
  decide (s.dir = .writer → 32 * s.cursor.toNat + s.sbits.toNat ≤ 32 * s.cap.toNat) &&
  decide (s.dir = .writer → s.budget = 0) &&
  decide (s.dir = .reader → s.budget.toNat + 32 * s.cursor.toNat = 32 * s.cap.toNat + s.sbits.toNat) &&
  decide (s.dir = .reader → s.cursor.toNat ≤ s.cap.toNat) &&
  decide (s.dir = .reader → s.sbits.toNat ≤ 32 * s.cursor.toNat) &&
  decide (s.phase = .done → s.dir = .writer ∧ s.sbits = 0 ∧ s.scratch = 0) &&
  decide (s.phase = .unbound →
    s.dir = .writer ∧ s.cap = 0 ∧ s.cursor = 0 ∧ s.scratch = 0 ∧ s.sbits = 0 ∧ s.budget = 0) &&
  decide (s.err = .ok ↔ s.phase ≠ .failed) && decide (s.err ≠ .notReady) && s.buf.wf && s.buf.within s.bufWords.val

theorem inv_of_check {s : State} (h : invCheck s = true) : Inv s := by
  simp only [invCheck, Bool.and_eq_true, decide_eq_true_eq] at h
  obtain ⟨⟨⟨⟨⟨⟨⟨⟨⟨⟨⟨⟨⟨h1, h2⟩, h3⟩, h4⟩, h5⟩, h6⟩, h7⟩, h8⟩, h9⟩, h10⟩, h11⟩, h12⟩, h13⟩, h14⟩ := h
  exact ⟨h1, h2, h3, h4, h5, h6, h7, h8, h9, h10, h11, h12, h13, h14⟩

/-- What a writer's hypothesis needs, as one computation. -/
def writerCheck (s : State) : Bool := invCheck s && s.phase == .active && s.dir == .writer

/-- What a reader's hypothesis needs, as one computation. -/
def readerCheck (s : State) : Bool := invCheck s && s.phase == .active && s.dir == .reader

theorem writer_of_check {s : State} (h : writerCheck s = true) : WriterReady s := by
  simp only [writerCheck, Bool.and_eq_true, beq_iff_eq] at h
  exact ⟨inv_of_check h.1.1, h.1.2, h.2⟩

theorem reader_of_check {s : State} (h : readerCheck s = true) : ReaderReady s := by
  simp only [readerCheck, Bool.and_eq_true, beq_iff_eq] at h
  exact ⟨inv_of_check h.1.1, h.1.2, h.2⟩

/-- Writers at the ends: an empty binding, an empty stream, one bit left, none left. -/
def w00 : State := writer 0 0 0 0 []
def w20 : State := writer 2 0 0 0 []
def w53 : State := writer 2 0 5 3 []
def w31 : State := writer 1 0 0x7FFFFFFF 31 []
def w10 : State := writer 1 1 0 0 (words [7] 0 [])

/-- Readers at the ends: an empty binding, a whole budget, a scratch in use, one bit left, none left. -/
def r00 : State := reader 0 0 0 0 0 []
def r20 : State := reader 2 0 0 0 64 (words [0x00000002, 0x00006948] 0 [])
def r53 : State := reader 2 1 0x8684820 29 61 (words [0x43424105, 0x00004544] 0 [])
def rF5 : State := reader 2 1 0x1E 29 61 (words [0xF5, 0] 0 [])
def r31 : State := reader 1 1 1 1 1 (words [0x80000000] 0 [])
def r10 : State := reader 1 1 0 0 0 (words [7] 0 [])

theorem writers_ready : ∀ s ∈ [w00, w20, w53, w31, w10], WriterReady s := by
  have h : ∀ s ∈ [w00, w20, w53, w31, w10], writerCheck s = true := by decide +kernel
  exact fun s hs => writer_of_check (h s hs)

theorem readers_ready : ∀ s ∈ [r00, r20, r53, rF5, r31, r10], ReaderReady s := by
  have h : ∀ s ∈ [r00, r20, r53, rF5, r31, r10], readerCheck s = true := by decide +kernel
  exact fun s hs => reader_of_check (h s hs)

theorem idle_inv : Inv (idle []) := inv_of_check (by decide)

/-! ### One witness for each statement with hypotheses, at the ends of its clauses -/

theorem witness_DecodeInvertsEncode : (Instr.wbytes 0 []).wellFormed = true ∧ (Instr.wbits 63 0xFFFFFFFF).wellFormed = true := by
  decide +kernel
theorem witness_OneTableRowPerLegalWord : decode (cmd 0x00003F22 9 9 9 9 []) = .ok (.rbits 63) := by decide +kernel
theorem witness_SettingDGivesTheReadForm :
    decode (cmd 0x0000000B 1 8 9 9 [0x5A]) = .ok (.wstr 1 [0x5A]) ∧ (Instr.wstr 1 [0x5A]).side = some .writer := by decide +kernel
theorem witness_StepRunsTheDecodedCommand :
    (facing (.command (cmd 0x00000302 5 9 9 9 [])) w20).port = .command (cmd 0x00000302 5 9 9 9 []) :: [] ∧
    decode (cmd 0x00000302 5 9 9 9 []) = .ok (.wbits 3 5) := by decide +kernel
theorem witness_IllegalCommandByPhase :
    decode (cmd 0x00000080 0 0 0 0 []) = .error .reservedBits ∧
    (facing (.command (cmd 0x00000080 0 0 0 0 [])) w20).phase = .active ∧
    (facing (.command (cmd 0x00000080 0 0 0 0 [])) w20).err = .ok ∧
    (facing (.command (cmd 0x00000080 0 0 0 0 [])) (idle [])).phase ≠ .active ∧
    (facing (.command (cmd 0x00000080 0 0 0 0 [])) broken).phase ≠ .active := by decide +kernel

/-- Each address of the map, the first reserved one and the last. -/
theorem witness_CsrPortShowsTheRegisters :
    ∀ a ∈ ([0x0, 0x1, 0x2, 0x3, 0x4, 0x5, 0x6, 0x7, 0x8, 0x9, 0xA, 0xFFFFFFFF] : List Word),
      Inv (facing (.csrRead a) rF5) ∧ Inv (facing (.csrRead a) w31) ∧ Inv (facing (.csrRead a) broken) ∧
      Inv (facing (.csrRead a) (idle [])) := by
  have h : ([0x0, 0x1, 0x2, 0x3, 0x4, 0x5, 0x6, 0x7, 0x8, 0x9, 0xA, 0xFFFFFFFF] : List Word).all (fun a =>
      invCheck (facing (.csrRead a) rF5) && invCheck (facing (.csrRead a) w31) &&
        invCheck (facing (.csrRead a) broken) && invCheck (facing (.csrRead a) (idle []))) = true := by decide +kernel
  intro a ha
  have h := List.all_eq_true.mp h a ha
  simp only [Bool.and_eq_true] at h
  exact ⟨inv_of_check h.1.1.1, inv_of_check h.1.1.2, inv_of_check h.1.2, inv_of_check h.2⟩

/-- The last word that exists, the first that does not, and each phase. -/
theorem witness_BufferPortReadsAndWrites :
    (facing (.hostRead 3) w20).port = .hostRead 3 :: [] ∧ 3 < (facing (.hostRead 3) w20).bufWords.val ∧
    (facing (.hostRead 4) w20).port = .hostRead 4 :: [] ∧ (facing (.hostRead 4) w20).bufWords.val ≤ 4 ∧
    (facing (.hostWrite 3 7) broken).port = .hostWrite 3 7 :: [] ∧ 3 < (facing (.hostWrite 3 7) broken).bufWords.val ∧
    (facing (.hostWrite 3 7) broken).phase ≠ .active ∧ (facing (.hostWrite 3 7) (idle [])).phase ≠ .active ∧
    (facing (.hostWrite 4 7) broken).bufWords.val ≤ 4 ∧ (facing (.hostWrite 3 7) w20).phase = .active := by decide +kernel
theorem witness_ResetInputClearsTheRegisters : (facing .reset r53).port = .reset :: [] := by decide +kernel
theorem witness_PhaseGateAnswersNotReady :
    (Instr.wflush).side ≠ none ∧ (Instr.rflush).side ≠ none ∧ (idle []).phase ≠ .active ∧ broken.phase ≠ .active ∧
    { w20 with phase := .done }.phase ≠ .active := by decide +kernel
theorem witness_DirectionGateFails :
    (Instr.rbits 3).side = some .reader ∧ w20.phase = .active ∧ w20.err = .ok ∧ w20.dir ≠ .reader ∧
    (Instr.wbits 3 5).side = some .writer ∧ r20.phase = .active ∧ r20.err = .ok ∧ r20.dir ≠ .writer := by decide +kernel
theorem witness_BindStartsABinding :
    (4 : Word).toNat ≤ broken.bufWords.val ∧ (0 : Word).toNat ≤ (idle []).bufWords.val := by decide +kernel
theorem witness_BindOverCapacityFails :
    w53.bufWords.val < (5 : Word).toNat ∧ (idle []).bufWords.val < (0xFFFFFFFF : Word).toNat := by decide +kernel

/-- Width 32 in an empty stream, width 0 in a full one, the last bit of one. -/
theorem witness_WbitsAppendsItsField :
    (WriterReady w20 ∧ w20.writePos + (32 : Width).toNat ≤ 32 * w20.cap.toNat) ∧
    (WriterReady w10 ∧ w10.writePos + (0 : Width).toNat ≤ 32 * w10.cap.toNat) ∧
    (WriterReady w31 ∧ w31.writePos + (1 : Width).toNat ≤ 32 * w31.cap.toNat) :=
  ⟨⟨writers_ready _ (by simp), by decide +kernel⟩, ⟨writers_ready _ (by simp), by decide +kernel⟩,
    ⟨writers_ready _ (by simp), by decide +kernel⟩⟩
theorem witness_RbitsTakesTheNextField :
    (ReaderReady r53 ∧ (32 : Width).toNat ≤ r53.budget.toNat) ∧ (ReaderReady r10 ∧ (0 : Width).toNat ≤ r10.budget.toNat) ∧
    (ReaderReady r31 ∧ (1 : Width).toNat ≤ r31.budget.toNat) :=
  ⟨⟨readers_ready _ (by simp), by decide +kernel⟩, ⟨readers_ready _ (by simp), by decide +kernel⟩,
    ⟨readers_ready _ (by simp), by decide +kernel⟩⟩

/-- Width 33 with room and without, 32 and 1 where they do not fit. -/
theorem witness_FieldCommandsFail :
    WriterReady w20 ∧ WriterReady w10 ∧ WriterReady w31 ∧ 32 < (33 : Width).toNat ∧
    32 * w31.cap.toNat < w31.writePos + (32 : Width).toNat ∧ 32 * w10.cap.toNat < w10.writePos + (1 : Width).toNat ∧
    ReaderReady r20 ∧ ReaderReady r10 ∧ ReaderReady r31 ∧ r31.budget.toNat < (32 : Width).toNat ∧
    r10.budget.toNat < (1 : Width).toNat :=
  ⟨writers_ready _ (by simp), writers_ready _ (by simp), writers_ready _ (by simp), by decide +kernel, by decide +kernel, by decide +kernel,
    readers_ready _ (by simp), readers_ready _ (by simp), readers_ready _ (by simp), by decide +kernel, by decide +kernel⟩
theorem witness_PredicatesAnswerEveryWidth :
    w31.phase = .active ∧ w31.dir = .writer ∧ r31.phase = .active ∧ r31.dir = .reader := by decide +kernel
theorem witness_WflushCommitsThePartialWord : ∀ s ∈ [w00, w20, w53, w31, w10], WriterReady s := writers_ready
theorem witness_RflushChangesNothing : r00.phase = .active ∧ r00.dir = .reader := by decide +kernel
theorem witness_RangeWidthIsSmallest :
    (0 : Int) ≤ 4294967295 ∧ (4294967295 : Int) - 0 < 2 ^ 32 ∧ (-2147483648 : Int) ≤ -2147483648 := by decide +kernel
theorem witness_BfrCalculatesInEveryPhase :
    intOperand .signed 0x80000000 ≤ intOperand .signed 0x7FFFFFFF ∧
    intOperand .unsigned 0x7FFFFFFF < intOperand .unsigned 0x80000000 ∧
    intOperand .unsigned 0 ≤ intOperand .unsigned 0 := by decide +kernel

/-- A range of one value in a full stream, the signed extremes in 32 bits. -/
theorem witness_WintAppendsItsCode :
    (WriterReady w10 ∧ intOperand .unsigned 7 ≤ intOperand .unsigned 7 ∧
      w10.writePos + bitsForRange (intOperand .unsigned 7) (intOperand .unsigned 7) ≤ 32 * w10.cap.toNat) ∧
    (WriterReady w20 ∧ intOperand .signed 0x80000000 ≤ intOperand .signed 0x7FFFFFFF ∧
      w20.writePos + bitsForRange (intOperand .signed 0x80000000) (intOperand .signed 0x7FFFFFFF) ≤ 32 * w20.cap.toNat) :=
  ⟨⟨writers_ready _ (by simp), by decide +kernel⟩, ⟨writers_ready _ (by simp), by decide +kernel⟩⟩
theorem witness_RintTakesItsCode :
    ReaderReady r20 ∧ intOperand .signed 0xFFFFFFFB ≤ intOperand .signed 5 ∧
    bitsForRange (intOperand .signed 0xFFFFFFFB) (intOperand .signed 5) = 4 ∧ (2 : Word).toNat < 2 ^ 4 ∧
    r20.unread.take 4 = fieldBits 2 4 ∧ intOperand .signed 0xFFFFFFFB + (2 : Word).toNat ≤ intOperand .signed 5 :=
  ⟨readers_ready _ (by simp), by decide +kernel⟩

/-- An empty range; a value just below, just above; no room; no budget; code 3, the first one too many of [5, 7]. -/
theorem witness_IntegerCommandsFail :
    WriterReady w20 ∧ intOperand .unsigned 3 < intOperand .unsigned 4 ∧
    intOperand .signed 0xFFFFFFFA < intOperand .signed 0xFFFFFFFB ∧ intOperand .signed 5 < intOperand .signed 6 ∧
    WriterReady w31 ∧ 32 * w31.cap.toNat < w31.writePos + bitsForRange 0 3 ∧
    ReaderReady r31 ∧ r31.budget.toNat < bitsForRange 0 3 ∧
    ReaderReady (reader 1 0 0 0 32 (words [3] 0 [])) ∧ bitsForRange (intOperand .unsigned 5) (intOperand .unsigned 7) = 2 ∧
    (reader 1 0 0 0 32 (words [3] 0 [])).unread.take 2 = fieldBits 3 2 ∧
    intOperand .unsigned 7 < intOperand .unsigned 5 + (3 : Word).toNat :=
  ⟨writers_ready _ (by simp), by decide +kernel, by decide +kernel, by decide +kernel, writers_ready _ (by simp), by decide +kernel,
    readers_ready _ (by simp), by decide +kernel, reader_of_check (by decide +kernel), by decide +kernel⟩
theorem witness_FloatPassthroughIsVerbatim :
    WriterReady w20 ∧ w20.writePos + 32 ≤ 32 * w20.cap.toNat ∧
    ReaderReady r53 ∧ r53.unread.take 32 = fieldBits 0x88684820 32 :=
  ⟨writers_ready _ (by simp), by decide +kernel, readers_ready _ (by simp), by decide +kernel⟩
theorem witness_FloatPassthroughFails :
    WriterReady w31 ∧ 32 * w31.cap.toNat < w31.writePos + 32 ∧ ReaderReady r31 ∧ r31.budget.toNat < 32 :=
  ⟨writers_ready _ (by simp), by decide +kernel, readers_ready _ (by simp), by decide +kernel⟩

/-- The largest and the smallest magnitude, both zeros. -/
theorem witness_SumsAreCorrectlyRounded :
    ([0x7F7FFFFF, 0xFF7FFFFF, 0x00000001, 0x80000001, 0x00000000, 0x80000000] : List Word).all F32.isFinite = true := by decide +kernel
theorem witness_ProductsAreCorrectlyRounded : F32.isFinite 0x7F7FFFFF = true ∧ F32.isFinite 0x80000001 = true := by decide +kernel
theorem witness_QuotientsAreCorrectlyRounded :
    F32.isFinite 0x7F7FFFFF = true ∧ F32.isFinite 0x80000001 = true ∧ F32.value 0x80000001 ≠ 0 := by decide +kernel
theorem witness_QuantizationSpecGivesItsSteps :
    qParams 0x00000000 0x42C80000 0x3C23D70A = some (0x42C80000, 10000) ∧
    qParams 0x3F800000 0x3F800000 0x3F800000 = some (0x00000000, 0) := by decide +kernel

/-- A value below the range, above it, at its end, and the infinities. -/
theorem witness_QuantizerClampsTheValue :
    qParams 0x3F800000 0x40000000 0x3E800000 = some (0x3F800000, 4) ∧
    ([0xFF800000, 0x7F800000, 0x40000000, 0x40000001, 0x3F7FFFFF] : List Word).all (fun v => !F32.isNaN v) = true ∧
    F32.lt 0x3F7FFFFF 0x3F800000 = true ∧ F32.lt 0xFF800000 0x3F800000 = true ∧ F32.lt 0x40000000 0x40000001 = true ∧
    F32.lt 0x40000000 0x7F800000 = true := by decide +kernel
theorem witness_WqfAppendsItsCode :
    WriterReady w20 ∧ qParams 0x00000000 0x42C80000 0x3C23D70A = some (0x42C80000, 10000) ∧
    F32.isNaN 0x3F99999A = false ∧ w20.writePos + bitsForRange 0 (10000 : Nat) ≤ 32 * w20.cap.toNat :=
  ⟨writers_ready _ (by simp), by decide +kernel⟩

/-- The largest code of the range of r53's first 14 bits is above the code they hold. -/
theorem witness_RqfTakesACodeIntoTheRange :
    ReaderReady r53 ∧ qParams 0x00000000 0x42C80000 0x3C23D70A = some (0x42C80000, 10000) ∧
    bitsForRange 0 (10000 : Nat) = 14 ∧ (0x0820 : Word).toNat ≤ 10000 ∧
    r53.unread.take 14 = fieldBits 0x0820 14 :=
  ⟨readers_ready _ (by simp), by decide +kernel⟩

/-- A spec that fails, a NaN, no room, no budget, and the code 5 in 3 bits of a spec with 4 steps. -/
theorem witness_QuantizedCommandsFail :
    WriterReady w31 ∧ qParams 0x3F800000 0x00000000 0x3F800000 = none ∧
    qParams 0x3F800000 0x40000000 0x3E800000 = some (0x3F800000, 4) ∧ F32.isNaN 0xFFC00000 = true ∧
    F32.isNaN 0x3F800000 = false ∧ 32 * w31.cap.toNat < w31.writePos + bitsForRange 0 (4 : Nat) ∧
    ReaderReady r31 ∧ r31.budget.toNat < bitsForRange 0 (4 : Nat) ∧ ReaderReady (reader 1 0 0 0 32 (words [5] 0 [])) ∧
    (5 : Word).toNat < 2 ^ bitsForRange 0 (4 : Nat) ∧ 4 < (5 : Word).toNat ∧
    (reader 1 0 0 0 32 (words [5] 0 [])).unread.take (bitsForRange 0 (4 : Nat)) =
      fieldBits 5 (bitsForRange 0 (4 : Nat)) :=
  ⟨writers_ready _ (by simp), by decide +kernel, by decide +kernel, by decide +kernel, by decide +kernel, by decide +kernel,
    readers_ready _ (by simp), by decide +kernel, reader_of_check (by decide +kernel), by decide +kernel⟩
theorem witness_WalignPadsToAByte : ∀ s ∈ [w00, w20, w53, w31, w10], WriterReady s := writers_ready

/-- A pad of 5 zeros, and no pad. -/
theorem witness_RalignSkipsAZeroPad :
    (ReaderReady r53 ∧ r53.padBits = 5 ∧ r53.unread.take r53.padBits = zeroBits r53.padBits) ∧
    (ReaderReady r20 ∧ r20.padBits = 0 ∧ r20.unread.take r20.padBits = zeroBits r20.padBits) :=
  ⟨⟨readers_ready _ (by simp), by decide +kernel⟩, ⟨readers_ready _ (by simp), by decide +kernel⟩⟩
theorem witness_RalignFailsOnANonzeroPad :
    (ReaderReady rF5 ∧ rF5.unread.take rF5.padBits ≠ zeroBits rF5.padBits) ∧
    (ReaderReady r31 ∧ r31.padBits = 1 ∧ r31.unread.take r31.padBits ≠ zeroBits r31.padBits) :=
  ⟨⟨readers_ready _ (by simp), by decide +kernel⟩, ⟨readers_ready _ (by simp), by decide +kernel⟩⟩

/-- Seven bytes fill w53 to its last bit; no byte fits w31 but its pad of 1 does. -/
theorem witness_WbytesAppendsItsBytes :
    (WriterReady w53 ∧ [1, 2, 3, 4, 5, 6, (7 : Byte)].length = (7 : Word).toNat ∧
      w53.writePos + w53.padBits + 8 * [1, 2, 3, 4, 5, 6, (7 : Byte)].length ≤ 32 * w53.cap.toNat) ∧
    (WriterReady w31 ∧ ([] : List Byte).length = (0 : Word).toNat ∧
      w31.writePos + w31.padBits + 8 * ([] : List Byte).length ≤ 32 * w31.cap.toNat) :=
  ⟨⟨writers_ready _ (by simp), by decide +kernel⟩, ⟨writers_ready _ (by simp), by decide +kernel⟩⟩
theorem witness_RbytesDeliversItsBytes :
    ReaderReady r53 ∧ [0x41, 0x42, 0x43, 0x44, (0x45 : Byte)].length = (5 : Word).toNat ∧
    r53.unread.take (r53.padBits + 8 * (5 : Word).toNat) =
      zeroBits r53.padBits ++ [0x41, 0x42, 0x43, 0x44, (0x45 : Byte)].flatMap byteBits :=
  ⟨readers_ready _ (by simp), by decide +kernel⟩
theorem witness_ByteCommandsFail :
    WriterReady w31 ∧ [(1 : Byte)].length = (1 : Word).toNat ∧
    32 * w31.cap.toNat < w31.writePos + w31.padBits + 8 * [(1 : Byte)].length ∧
    ReaderReady rF5 ∧ rF5.unread.take rF5.padBits ≠ zeroBits rF5.padBits ∧
    ReaderReady r53 ∧ r53.unread.take r53.padBits = zeroBits r53.padBits ∧
    r53.budget.toNat < r53.padBits + 8 * (8 : Word).toNat :=
  ⟨writers_ready _ (by simp), by decide, by decide +kernel, readers_ready _ (by simp), by decide +kernel,
    readers_ready _ (by simp), by decide +kernel⟩

/-- Four bytes fill w20, three bytes w53. -/
theorem witness_WstrAppendsLengthAndBytes :
    (WriterReady w20 ∧ [1, 2, 3, (4 : Byte)].length = (4 : Word).toNat ∧
      w20.writePos + 32 + w20.padBits + 8 * [1, 2, 3, (4 : Byte)].length ≤ 32 * w20.cap.toNat) ∧
    (WriterReady w53 ∧ [1, 2, (3 : Byte)].length = (3 : Word).toNat ∧
      w53.writePos + 32 + w53.padBits + 8 * [1, 2, (3 : Byte)].length ≤ 32 * w53.cap.toNat) :=
  ⟨⟨writers_ready _ (by simp), by decide +kernel⟩, ⟨writers_ready _ (by simp), by decide +kernel⟩⟩
theorem witness_WstrFails :
    (WriterReady w31 ∧ ([] : List Byte).length = (0 : Word).toNat ∧ 32 * w31.cap.toNat < w31.writePos + 32) ∧
    (WriterReady (writer 1 0 0 0 []) ∧ [(0x41 : Byte)].length = (1 : Word).toNat ∧ (writer 1 0 0 0 []).writePos + 32 ≤ 32 * (writer 1 0 0 0 []).cap.toNat ∧
      32 * (writer 1 0 0 0 []).cap.toNat <
        (writer 1 0 0 0 []).writePos + 32 + (writer 1 0 0 0 []).padBits + 8 * [(0x41 : Byte)].length) :=
  ⟨⟨writers_ready _ (by simp), by decide +kernel⟩, ⟨writer_of_check (by decide), by decide +kernel⟩⟩
theorem witness_RstrDeliversStringAndTerminator :
    ReaderReady r20 ∧ [0x48, (0x69 : Byte)].length = (2 : Word).toNat ∧ (2 : Word).toNat < (3 : Word).toNat ∧
    r20.unread.take (32 + r20.padBits + 8 * (2 : Word).toNat) =
      fieldBits 2 32 ++ zeroBits r20.padBits ++ [0x48, (0x69 : Byte)].flatMap byteBits :=
  ⟨readers_ready _ (by simp), by decide +kernel⟩

/-- No length; a capacity equal to the length; a pad of 5 with a 1; a string longer than what is left. -/
theorem witness_RstrFails :
    (ReaderReady r31 ∧ r31.budget.toNat < 32) ∧
    (ReaderReady r20 ∧ r20.unread.take 32 = fieldBits 2 32 ∧ (2 : Word).toNat ≤ (2 : Word).toNat) ∧
    (ReaderReady (reader 2 1 0 29 61 (words [0, 0xF0] 0 [])) ∧
      (reader 2 1 0 29 61 (words [0, 0xF0] 0 [])).unread.take 32 = fieldBits 0 32 ∧
      (0 : Word).toNat < (1 : Word).toNat ∧
      ((reader 2 1 0 29 61 (words [0, 0xF0] 0 [])).unread.drop 32).take
        (reader 2 1 0 29 61 (words [0, 0xF0] 0 [])).padBits ≠
        zeroBits (reader 2 1 0 29 61 (words [0, 0xF0] 0 [])).padBits) ∧
    (ReaderReady (reader 2 0 0 0 64 (words [5, 0x41424344] 0 [])) ∧
      (reader 2 0 0 0 64 (words [5, 0x41424344] 0 [])).unread.take 32 = fieldBits 5 32 ∧
      (5 : Word).toNat < (100 : Word).toNat ∧
      ((reader 2 0 0 0 64 (words [5, 0x41424344] 0 [])).unread.drop 32).take
        (reader 2 0 0 0 64 (words [5, 0x41424344] 0 [])).padBits =
        zeroBits (reader 2 0 0 0 64 (words [5, 0x41424344] 0 [])).padBits ∧
      (reader 2 0 0 0 64 (words [5, 0x41424344] 0 [])).budget.toNat <
        32 + (reader 2 0 0 0 64 (words [5, 0x41424344] 0 [])).padBits + 8 * (5 : Word).toNat) :=
  ⟨⟨readers_ready _ (by simp), by decide +kernel⟩, ⟨readers_ready _ (by simp), by decide +kernel⟩,
    ⟨reader_of_check (by decide +kernel), by decide +kernel⟩,
    ⟨reader_of_check (by decide +kernel), by decide +kernel⟩⟩
theorem witness_FourBytesMakeOneWord :
    (WriterReady w20 ∧ w20.sbits = 0 ∧ w20.cursor.toNat < w20.cap.toNat) ∧
    (WriterReady (writer 2 1 0 0 []) ∧ (writer 2 1 0 0 []).sbits = 0 ∧
      (writer 2 1 0 0 []).cursor.toNat < (writer 2 1 0 0 []).cap.toNat) :=
  ⟨⟨writers_ready _ (by simp), by decide +kernel⟩, ⟨writer_of_check (by decide), by decide +kernel⟩⟩
theorem witness_EveryStepKeepsTheInvariants :
    Inv (facing (.command (encode (.rbits 3))) r20) ∧
    goes (step (facing (.command (encode (.rbits 3))) r20)) (fun t => t.cursor == 1) = true :=
  ⟨inv_of_check (by decide +kernel), by decide +kernel⟩
theorem witness_NoStepStops : Inv (facing (.command (encode .wflush)) w31) ∧ Inv (idle []) :=
  ⟨inv_of_check (by decide +kernel), idle_inv⟩

/-- A reader with one live scratch bit: the last of its word. -/
theorem witness_EveryStepKeepsTheScratchMirrored :
    Inv (facing (.command (encode .rflush)) r31) ∧ ScratchMirrors (facing (.command (encode .rflush)) r31) ∧
    goes (step (facing (.command (encode .rflush)) r31)) (fun t => t.sbits == 1) = true := by
  have h : ∀ j < (facing (.command (encode .rflush)) r31).sbits.toNat,
      (facing (.command (encode .rflush)) r31).scratch.getLsbD j =
        (facing (.command (encode .rflush)) r31).bufBit
          (32 * (facing (.command (encode .rflush)) r31).cursor.toNat -
            (facing (.command (encode .rflush)) r31).sbits.toNat + j) := by decide +kernel
  exact ⟨inv_of_check (by decide +kernel), fun _ _ => h, by decide +kernel⟩
theorem witness_ControlStateChangesOnlyAsListed :
    goes (step (facing (.command (encode .wflush)) w53)) (fun t => t.phase != w53.phase) = true ∧
    goes (step (facing (.command (encode (.bind .reader 2))) (idle []))) (fun t => t.dir != (idle []).dir) = true ∧
    goes (step (facing .reset w53)) (fun t => t.cap != w53.cap) = true := by decide +kernel
theorem witness_InactiveEngineKeepsItsState :
    broken.phase ≠ .active ∧ (idle []).phase ≠ .active ∧
    goes (step (facing (.command (encode .walign)) broken)) (fun t => status t == some .notReady) = true ∧
    goes (step (facing (.csrRead 1) (idle []))) (fun t => t.port == []) = true := by decide +kernel
theorem witness_CommandsStoreOnlyBetweenCursors :
    goes (exec (.wf32 0xFFFFFFFF) w20) (fun t => t.buf.readByte 0 == 0xFF && t.cursor == 1) = true ∧
    goes (exec (.wbits 33 0) w20) (fun t => failed t .invalidWidth) = true := by decide +kernel

/-- Fields of width 0, 31 and 32 that leave one bit of two words; the empty list over an empty binding. -/
theorem witness_FieldsReadBackAsWritten :
    (Inv (idle []) ∧ (2 : Word).toNat ≤ (idle []).bufWords.val ∧
      ([((0 : Width), (9 : Word)), (31, 0xFFFFFFFF), (32, 7)].all fun f => decide (f.1.toNat ≤ 32)) = true ∧
      ([((0 : Width), (9 : Word)), (31, 0xFFFFFFFF), (32, 7)].map fun f => f.1.toNat).sum ≤ 32 * (2 : Word).toNat) ∧
    (0 : Word).toNat ≤ (idle []).bufWords.val ∧ (([] : List (Width × Word)).map fun f => f.1.toNat).sum ≤ 0 :=
  ⟨⟨idle_inv, by decide +kernel⟩, by decide +kernel⟩
theorem witness_IntegersReadBackAsWritten :
    Inv (idle []) ∧ (2 : Word).toNat ≤ (idle []).bufWords.val ∧ (32 : Width).toNat ≤ 32 ∧
    intOperand .signed 0x80000000 ≤ intOperand .signed 0xFFFFFFFF ∧
    intOperand .signed 0xFFFFFFFF ≤ intOperand .signed 0x7FFFFFFF ∧
    (32 : Width).toNat + bitsForRange (intOperand .signed 0x80000000) (intOperand .signed 0x7FFFFFFF) ≤
      32 * (2 : Word).toNat :=
  ⟨idle_inv, by decide +kernel⟩
theorem witness_StringsReadBackAsWritten :
    Inv (idle []) ∧ (2 : Word).toNat ≤ (idle []).bufWords.val ∧ (5 : Width).toNat ≤ 32 ∧
    [0x48, 0x69, (0x21 : Byte)].length = (3 : Word).toNat ∧ (3 : Word).toNat < (4 : Word).toNat ∧
    (5 : Width).toNat + 32 + (8 - (5 : Width).toNat % 8) % 8 + 8 * (3 : Word).toNat ≤ 32 * (2 : Word).toNat :=
  ⟨idle_inv, by decide +kernel⟩

end Sys2Proof.Tests
end

section
/-! PROOFS. Correct rounding of the binary32 operations (spec/00_scope.md R11). Each operation packs a rounded quotient
of naturals, which `roundedNearestEven_pack` shows to be correctly rounded once the quotient is the exact result's
magnitude and the packed sign is the exact result's sign; what is left is that these two agree for each operation. -/

namespace Sys2Proof.Machine

/-! ### Signs of exact results -/

/-- Of two values that are not zero, the sign bits differ exactly when one is positive and the other negative. -/
theorem F32.sign_bne_iff {x y : Word} (hx : F32.value x ≠ 0) (hy : F32.value y ≠ 0) :
    (F32.sign x != F32.sign y) = true ↔
      0 < F32.value x ∧ F32.value y < 0 ∨ F32.value x < 0 ∧ 0 < F32.value y := by
  rw [F32.sign_of_value_ne_zero hx, F32.sign_of_value_ne_zero hy, bne_iff_ne, ne_eq, decide_eq_decide]
  omega

theorem F32.mag_eq_zero {x : Word} : F32.mag x = 0 ↔ F32.value x = 0 := by
  rw [← F32.natAbs_value, Int.natAbs_eq_zero]

/-- The packed sign of a product that is not zero is the exact product's. -/
theorem F32.sign_bne_iff_mul_neg {x y : Word} (h : F32.mag x * F32.mag y ≠ 0) :
    (F32.sign x != F32.sign y) = true ↔ F32.value x * F32.value y < 0 := by
  obtain ⟨hx, hy⟩ := mul_ne_zero_iff.mp h
  rw [F32.sign_bne_iff (mt F32.mag_eq_zero.mpr hx) (mt F32.mag_eq_zero.mpr hy), mul_neg_iff]

/-- The packed sign of a quotient that is not zero is the exact quotient's: that of the dividend, in units, times the
sign of the divisor. -/
theorem F32.sign_bne_iff_div_neg {x y : Word} (hx : F32.value x ≠ 0) (hy : F32.value y ≠ 0) :
    (F32.sign x != F32.sign y) = true ↔ F32.value x * 2 ^ 149 * (F32.value y).sign < 0 := by
  rw [F32.sign_bne_iff hx hy, mul_neg_iff, Int.sign_neg_iff, Int.sign_pos_iff]
  omega

/-! ### Packed patterns -/

/-- A rounded quotient keeps the sign it is packed with, also where it rounds to zero or to an infinity. -/
theorem F32.sign_pack_round (neg : Bool) (p q : Nat) :
    F32.sign (F32.pack neg (F32.roundPattern p q)) = neg :=
  F32.sign_pack (F32.roundPattern_lt p q) neg

theorem F32.pack_zero (neg : Bool) : F32.pack neg 0 = if neg then 0x80000000 else 0x00000000 := by
  cases neg <;> rfl

/-- Either zero is the number 0, correctly rounded. -/
theorem roundedNearestEven_zero (neg : Bool) {q : Nat} (hq : 0 < q) : RoundedNearestEven (F32.pack neg 0) 0 q := by
  have h := roundedNearestEven_pack (neg := neg) (x := 0) (p := 0) hq rfl (absurd rfl)
  rwa [F32.roundPattern_zero hq] at h

/-! ### Sums and differences -/

section
variable {x y : Word} (hx : F32.isFinite x = true) (hy : F32.isFinite y = true)
include hx hy

theorem F32.roundedNearestEven_add : RoundedNearestEven (F32.add x y) (F32.value x + F32.value y) 1 := by
  rw [F32.add_finite hx hy]
  split
  case isTrue h => rw [h]; exact roundedNearestEven_zero _ Nat.one_pos
  case isFalse h => exact roundedNearestEven_pack Nat.one_pos rfl fun _ => decide_eq_true_iff

/-- An exact zero sum is `−0` only for two operands that count as `−0`. -/
theorem F32.add_of_sum_zero (h : F32.value x + F32.value y = 0) :
    F32.add x y = if F32.sign x && F32.sign y then 0x80000000 else 0x00000000 := by
  rw [F32.add_finite hx hy, if_pos h, F32.pack_zero]

end

/-- Settles O29: a difference is the sum with the negated subtrahend, whose value and sign are the opposite ones. -/
theorem sumsAreCorrectlyRounded : Obligations.SumsAreCorrectlyRounded := by
  intro x y hx hy
  have hny : F32.isFinite (F32.neg y) = true := by rw [F32.isFinite_neg, hy]
  have hval : F32.value x + F32.value (F32.neg y) = F32.value x - F32.value y := by
    rw [F32.value_neg, Int.sub_eq_add_neg]
  refine ⟨F32.roundedNearestEven_add hx hy, ?_, F32.add_of_sum_zero hx hy, fun h => ?_⟩
  · rw [F32.sub_finite hx hy, ← hval]
    exact F32.roundedNearestEven_add hx hny
  · rw [F32.sub_finite hx hy, F32.add_of_sum_zero hx hny (hval.trans h), F32.sign_neg]

/-! ### Products, quotients and conversions -/

/-- Settles O30: what is rounded is the product of the magnitudes, and the packed sign is the product's. -/
theorem productsAreCorrectlyRounded : Obligations.ProductsAreCorrectlyRounded := by
  intro x y hx hy
  have hmag : (F32.value x * F32.value y).natAbs = F32.mag x * F32.mag y := by
    rw [Int.natAbs_mul, F32.natAbs_value, F32.natAbs_value]
  rw [F32.mul_finite hx hy]
  exact ⟨roundedNearestEven_pack (Nat.two_pow_pos 149) hmag F32.sign_bne_iff_mul_neg, F32.sign_pack_round _ _ _⟩

/-- Settles O31: what is rounded is the quotient of the magnitudes; a divisor that is not zero adds only its sign. -/
theorem quotientsAreCorrectlyRounded : Obligations.QuotientsAreCorrectlyRounded := by
  intro x y hx hy hne
  have hmag0 : F32.mag y ≠ 0 := mt F32.mag_eq_zero.mp hne
  have hmag : (F32.value x * 2 ^ 149 * (F32.value y).sign).natAbs = F32.mag x * 2 ^ 149 := by
    rw [Int.natAbs_mul, Int.natAbs_sign_of_ne_zero hne, Nat.mul_one, Int.natAbs_mul, F32.natAbs_value]
    rfl
  have hsign (hp : F32.mag x * 2 ^ 149 ≠ 0) :
      (F32.sign x != F32.sign y) = true ↔ F32.value x * 2 ^ 149 * (F32.value y).sign < 0 :=
    F32.sign_bne_iff_div_neg (mt F32.mag_eq_zero.mpr (left_ne_zero_of_mul hp)) hne
  rw [F32.div_finite hx hy hmag0, F32.natAbs_value]
  exact ⟨roundedNearestEven_pack (Nat.pos_of_ne_zero hmag0) hmag hsign, F32.sign_pack_round _ _ _⟩

/-- Settles O32: `n` is a whole number of units, rounded as it stands, and it is not negative. -/
theorem conversionsAreCorrectlyRounded : Obligations.ConversionsAreCorrectlyRounded := by
  intro n
  have hmag : ((n : Int) * 2 ^ 149).natAbs = n * 2 ^ 149 := by omega
  have hpos : ¬ (n : Int) * 2 ^ 149 < 0 := by omega
  exact roundedNearestEven_pack Nat.one_pos hmag fun _ => iff_of_false Bool.false_ne_true hpos

end Sys2Proof.Machine
end

section
/-! PROOFS. The whole machine (spec/10_state.md). `Served` lists what serving one event can do to the state, in any
state whatever; `step_cases` shows that the list is complete. Every statement about steps is then a case split along
it. -/

namespace Sys2Proof.Machine

/-! ### BIND -/

/-- The state in which an accepted BIND leaves the engine (R316). -/
def State.startBinding (s : State) (d : Dir) (c : Word) : State :=
  { s.answer .ok 0 [] with
    dir := d, cap := c, cursor := 0, scratch := 0, sbits := 0, budget := initialBudget d c, err := .ok,
    phase := .active }

/-- The state in which a BIND over `BUF_WORDS` leaves the engine (R316). -/
def State.refuseBinding (s : State) : State :=
  { s.answerAny .illegalCommand with err := .illegalCommand, phase := .failed }

theorem exec_bind_within {s : State} {c : Word} (d : Dir) (h : c.toNat ≤ s.bufWords.val) :
    exec (.bind d c) s = .next (s.startBinding d c) :=
  if_neg (not_lt.mpr h)

theorem exec_bind_over {s : State} {c : Word} (d : Dir) (h : s.bufWords.val < c.toNat) :
    exec (.bind d c) s = .next s.refuseBinding :=
  if_pos h

/-- R5, R39: `32·C` fits the 32 bits of `BUDGET` for every capacity that a buffer can have. -/
theorem toNat_initialBudget_reader {c : Word} (h : c.toNat ≤ Config.maxBufWords) :
    (initialBudget .reader c).toNat = 32 * c.toNat := by
  simp only [Config.maxBufWords] at h
  simp only [initialBudget, BitVec.toNat_ofNat]
  omega

theorem State.written_startBinding (s : State) (d : Dir) (c : Word) : (s.startBinding d c).written = [] := rfl

/-- A new reader has the buffer to read from its first bit on. -/
theorem State.unreadBit_startBinding (s : State) (d : Dir) (c : Word) (k : Nat) :
    (s.startBinding d c).unreadBit k = s.bufBit k := by
  simp [State.unreadBit, State.startBinding, State.bufBit]

/-- Settles O14: `32·C` does not overflow `BUDGET`, and with no live bits the unread stream is the buffer's. -/
theorem bindStartsABinding : Obligations.BindStartsABinding := by
  intro d c s hc
  have hbw : s.bufWords.val ≤ Config.maxBufWords := Nat.lt_succ_iff.mp s.bufWords.isLt
  refine ⟨s.startBinding d c, exec_bind_within d hc, rfl, ?_, ?_⟩
  · rintro rfl
    exact ⟨rfl, s.written_startBinding _ c⟩
  · rintro rfl
    have hbudget : (s.startBinding .reader c).budget.toNat = 32 * c.toNat :=
      toNat_initialBudget_reader (hc.trans hbw)
    refine ⟨hbudget, ?_⟩
    rw [State.unread, hbudget]
    exact List.map_congr_left fun k _ => s.unreadBit_startBinding _ c k

/-! ### What serving one event can do -/

/-- From `s` to `t` the engine served `ev`: one constructor for each way to do so. The last three run the body of an
admitted stream command (R312); WFLUSH stands apart, as the only one whose body ends the binding. -/
inductive Served (ev : HostEvent) (s : State) : State → Prop
  /-- Only an answer: the CSR port, buffer reads and refused writes, BFR, and commands refused without effect. -/
  | answered (r : Option Reply) : Served ev s { s with reply := r }
  /-- An admitted write at the buffer port (R319). -/
  | stored (i : Nat) (v : Word) (hev : ev = .hostWrite i v) (hi : i < s.bufWords.val) (hp : s.phase ≠ .active) :
    Served ev s { s with buf := s.buf.writeWord i v, reply := some (.bufferWrite true) }
  /-- The reset input (R380). -/
  | reset (hev : ev = .reset) : Served ev s s.applyReset
  /-- BIND with a capacity the buffer has (R316). -/
  | bound (c : Command) (d : Dir) (cap : Word) (hev : ev = .command c) (hdec : decode c = .ok (.bind d cap))
      (hcap : cap.toNat ≤ s.bufWords.val) : Served ev s (s.startBinding d cap)
  /-- BIND over `BUF_WORDS` (R316). -/
  | overCapacity (c : Command) (d : Dir) (cap : Word) (hev : ev = .command c) (hdec : decode c = .ok (.bind d cap)) :
    Served ev s s.refuseBinding
  /-- While ACTIVE, a command that does not decode or goes against the direction of the binding (R312, R314). -/
  | rejected (c : Command) (hev : ev = .command c) (hp : s.phase = .active) : Served ev s (s.fail .illegalCommand)
  /-- WFLUSH completes (R143). -/
  | flushed (c : Command) (u : State) (hev : ev = .command c) (hdec : decode c = .ok .wflush) (hp : s.phase = .active)
      (hd : s.dir = .writer) (hrun : flush s = .ok () u) : Served ev s (u.answer .ok 0 [])
  /-- Any other stream command completes. -/
  | completed (i : Instr) (d : Dir) (out : Word × List Byte) (u : State) (hi : i.side = some d) (hf : i ≠ .wflush)
      (hp : s.phase = .active) (hd : s.dir = d) (hrun : body i s = .ok out u) :
    Served ev s (u.answer .ok out.1 out.2)
  /-- A stream command raises a code (R343). -/
  | raised (c : Command) (i : Instr) (d : Dir) (e : Status) (u : State) (hev : ev = .command c) (hi : i.side = some d)
      (hf : i ≠ .wflush) (hp : s.phase = .active) (hd : s.dir = d) (hrun : body i s = .raised e u) :
    Served ev s (u.fail e)

/-- BIND and BFR are the operations without a direction (R320). -/
theorem Instr.side_eq_none {i : Instr} (h : i.side = none) :
    (∃ d c, i = .bind d c) ∨ ∃ sg lo hi, i = .bfr sg lo hi := by
  cases i <;> cases h
  case bind d c => exact .inl ⟨d, c, rfl⟩
  case bfr sg lo hi => exact .inr ⟨sg, lo, hi, rfl⟩

/-- R312: an admitted stream command completes or raises. -/
theorem served_of_admitted {c : Command} {i : Instr} {d : Dir} {s t : State} (hdec : decode c = .ok i)
    (hi : i.side = some d) (hp : s.phase = .active) (hd : s.dir = d) (h : finish (body i s) = .next t) :
    Served (.command c) s t := by
  by_cases hf : i = .wflush
  · subst hf
    cases hi
    rcases flush_frame s with ⟨j, hrun⟩ | ⟨u, hrun, -, -⟩ <;> simp only [body, hrun] at h <;> cases h
    exact .flushed c u rfl hdec hp hd hrun
  · cases hrun : body i s with
    | ok out u => rw [hrun] at h; cases h; exact .completed i d out u hi hf hp hd hrun
    | raised e u => rw [hrun] at h; cases h; exact .raised c i d e u rfl hi hf hp hd hrun
    | absent j => rw [hrun] at h; cases h

/-- R312 to R316: what a command that decodes can do. -/
theorem served_of_exec {c : Command} {i : Instr} {s t : State} (hdec : decode c = .ok i) (h : exec i s = .next t) :
    Served (.command c) s t := by
  cases hi : i.side with
  | none =>
    rcases Instr.side_eq_none hi with ⟨d, cap, rfl⟩ | ⟨sg, lo, hi, rfl⟩
    · rcases Nat.lt_or_ge s.bufWords.val cap.toNat with hcap | hcap
      · rw [exec_bind_over d hcap] at h; cases h; exact .overCapacity c d cap rfl hdec
      · rw [exec_bind_within d hcap] at h; cases h; exact .bound c d cap rfl hdec hcap
    · simp only [exec, execBfr] at h
      split at h <;> cases h <;> exact .answered _
  | some d =>
    by_cases hp : s.phase = .active
    · by_cases hd : s.dir = d
      · rw [exec_admitted hi hp hd] at h; exact served_of_admitted hdec hi hp hd h
      · rw [exec_misdirected hi hp hd] at h; cases h; exact .rejected c rfl hp
    · rw [exec_inactive (by rw [hi]; exact Option.some_ne_none d) hp] at h; cases h; exact .answered _

/-- R310: all that serving an event can do. -/
theorem serve_cases {ev : HostEvent} {s t : State} (h : serve ev s = .next t) : Served ev s t := by
  cases ev with
  | command c =>
    cases hdec : decode c with
    | ok i => rw [serve_legal s hdec] at h; exact served_of_exec hdec h
    | error e =>
      rw [serve_illegal s hdec] at h
      cases h
      by_cases hp : s.phase = .active
      · rw [s.illegal_active hp]; exact .rejected c rfl hp
      · rw [s.illegal_inactive hp]; exact .answered _
  | csrRead a => cases h; exact .answered _
  | hostRead i => cases h; unfold State.hostRead; split <;> exact .answered _
  | hostWrite i v =>
    cases h
    by_cases hw : i < s.bufWords.val ∧ s.phase ≠ .active
    · rw [s.hostWrite_admitted v hw.1 hw.2]; exact .stored i v rfl hw.1 hw.2
    · rw [s.hostWrite_refused v hw]; exact .answered _
  | reset => cases h; exact .reset rfl

/-- R311, R356: all that a step can do. -/
theorem step_cases {s t : State} (h : step s = .next t) :
    t = s ∨ ∃ ev rest, s.port = ev :: rest ∧ Served ev { s with port := rest } t := by
  cases hport : s.port with
  | nil => rw [step_idle s hport] at h; cases h; exact .inl rfl
  | cons ev rest => rw [step_event s hport] at h; exact .inr ⟨ev, rest, rfl, serve_cases h⟩

/-! ### What the bodies keep -/

/-- R33 to R35, R40: a body other than WFLUSH's writes no control state, and what it raises is a latching code. -/
theorem body_frame {i : Instr} {d : Dir} (hi : i.side = some d) (hf : i ≠ .wflush) (s : State) :
    (body i s).Leaves (Framed s) := by
  cases d with
  | writer => exact (body_writeFrame hi hf s).mono fun _ h => h.toFramed
  | reader => exact (body_readFrame hi s).mono fun _ h => h.toFramed

theorem Res.WritesFrom.leaves_inv {α : Type} {r : Res α} {s : State} (h : r.WritesFrom s) : r.Leaves Inv := by
  cases r with
  | ok a t => obtain ⟨bits, hw⟩ := h; exact hw.ready.inv
  | raised e t => obtain ⟨⟨bits, hw⟩, he⟩ := h; exact ⟨he, hw.ready.inv⟩
  | absent i => trivial

theorem Res.ReadsFrom.leaves_inv {α : Type} {r : Res α} {s : State} (h : r.ReadsFrom s) : r.Leaves Inv := by
  cases r with
  | ok a t => obtain ⟨bits, ht⟩ := h; exact ht.ready.inv
  | raised e t => obtain ⟨⟨bits, ht⟩, he⟩ := h; exact ⟨he, ht.ready.inv⟩
  | absent i => trivial

/-- R145, R174: the body of an admitted stream command other than WFLUSH keeps the invariants. -/
theorem body_keeps_inv {i : Instr} {d : Dir} {s : State} (h : Inv s) (hi : i.side = some d) (hf : i ≠ .wflush)
    (hp : s.phase = .active) (hd : s.dir = d) : (body i s).Leaves Inv := by
  cases d with
  | writer => exact (body_writes hi hf ⟨h, hp, hd⟩).leaves_inv
  | reader => exact (body_reads hi ⟨h, hp, hd⟩).leaves_inv

/-- R42 (3), R143: the flush of a ready writer keeps the invariants, since a partial last word still fits `CAP`. -/
theorem flush_keeps_inv {s u : State} (h : WriterReady s) (hrun : flush s = .ok () u) : Inv u := by
  obtain ⟨t, ht, heq, hcursor, hsame, hstored⟩ := flush_spec h
  obtain rfl : t = u := by rw [ht] at hrun; cases hrun; rfl
  have hroom := h.pos_le
  have hcap := h.inv.cap_le
  have hbuf : t.buf.wf = true ∧ t.buf.within s.bufWords.val = true := by
    by_cases h0 : s.sbits = 0
    · rw [hsame h0]; exact ⟨h.inv.buf_wf, h.inv.buf_within⟩
    · have hpos : 0 < s.sbits.toNat := Nat.pos_of_ne_zero fun hz => h0 (BitVec.eq_of_toNat_eq hz)
      have hlt : s.cursor.toNat < s.bufWords.val := by unfold State.writePos at hroom; omega
      rw [hstored h0]
      exact ⟨Memory.wf_writeWord _ _ h.inv.buf_wf, Memory.within_writeWord _ h.inv.buf_within hlt⟩
  rw [heq]
  exact
    { cap_le := hcap
      sbits_le := Nat.zero_le _
      scratch_lt := Nat.one_pos
      writer_room := fun _ => show 32 * t.cursor.toNat + 0 ≤ 32 * s.cap.toNat by omega
      writer_budget := h.inv.writer_budget
      reader_budget := fun hr => absurd (h.dir.symm.trans hr) (by decide)
      reader_cursor := fun hr => absurd (h.dir.symm.trans hr) (by decide)
      reader_pos := fun _ => Nat.zero_le _
      done_empty := fun _ => ⟨h.dir, rfl, rfl⟩
      unbound_zero := nofun
      err_ok := iff_of_true (h.inv.err_of_active h.phase) (by simp)
      err_latched := h.inv.err_latched
      buf_wf := hbuf.1
      buf_within := hbuf.2 }

/-! ### What the other events keep -/

theorem Inv.applyReset {s : State} (h : Inv s) : Inv s.applyReset :=
  { cap_le := Nat.zero_le _
    sbits_le := Nat.zero_le _
    scratch_lt := Nat.one_pos
    writer_room := fun _ => le_refl _
    writer_budget := fun _ => rfl
    reader_budget := nofun
    reader_cursor := nofun
    reader_pos := nofun
    done_empty := nofun
    unbound_zero := fun _ => ⟨rfl, rfl, rfl, rfl, rfl, rfl⟩
    err_ok := by simp
    err_latched := nofun
    buf_wf := h.buf_wf
    buf_within := h.buf_within }

theorem Inv.startBinding {s : State} (h : Inv s) (d : Dir) {c : Word} (hc : c.toNat ≤ s.bufWords.val) :
    Inv (s.startBinding d c) :=
  { cap_le := hc
    sbits_le := Nat.zero_le _
    scratch_lt := Nat.one_pos
    writer_room := fun _ => Nat.zero_le _
    writer_budget := by rintro rfl; rfl
    reader_budget := by
      rintro rfl
      exact toNat_initialBudget_reader (hc.trans (Nat.lt_succ_iff.mp s.bufWords.isLt))
    reader_cursor := fun _ => Nat.zero_le _
    reader_pos := fun _ => Nat.zero_le _
    done_empty := nofun
    unbound_zero := nofun
    err_ok := iff_of_true rfl nofun
    err_latched := nofun
    buf_wf := h.buf_wf
    buf_within := h.buf_within }

theorem Inv.refuseBinding {s : State} (h : Inv s) : Inv s.refuseBinding :=
  { h with
    done_empty := nofun
    unbound_zero := nofun
    err_ok := iff_of_false nofun (not_not_intro rfl)
    err_latched := nofun }

theorem Inv.storeWord {s : State} (h : Inv s) {i : Nat} (hi : i < s.bufWords.val) (v : Word) (r : Option Reply) :
    Inv { s with buf := s.buf.writeWord i v, reply := r } :=
  { h with
    buf_wf := Memory.wf_writeWord i v h.buf_wf
    buf_within := Memory.within_writeWord v h.buf_within hi }

/-! ### The invariants -/

theorem Served.keeps_inv {ev : HostEvent} {s t : State} (hst : Served ev s t) (h : Inv s) : Inv t := by
  cases hst with
  | answered r => exact h.withPort s.port r
  | stored i v _ hi _ => exact h.storeWord hi v _
  | reset _ => exact h.applyReset
  | bound c d cap _ _ hcap => exact h.startBinding d hcap
  | overCapacity c d cap _ _ => exact h.refuseBinding
  | rejected c _ hp => exact h.fail hp (by decide)
  | flushed c u _ _ hp hd hrun => exact (flush_keeps_inv ⟨h, hp, hd⟩ hrun).answer _ _ _
  | completed i d out u hi hf hp hd hrun =>
    have hu := body_keeps_inv h hi hf hp hd
    rw [hrun] at hu
    exact Inv.answer hu _ _ _
  | raised c i d e u _ hi hf hp hd hrun =>
    have hu := body_keeps_inv h hi hf hp hd
    have hframe := body_frame hi hf s
    rw [hrun] at hu hframe
    obtain ⟨he, hinv⟩ := hu
    exact hinv.fail (hframe.2.phase.trans hp) he

/-- Settles O49, along the ways of serving an event. -/
theorem everyStepKeepsTheInvariants : Obligations.EveryStepKeepsTheInvariants := by
  intro s t h hstep
  rcases step_cases hstep with rfl | ⟨ev, rest, -, hst⟩
  · exact h
  · exact hst.keeps_inv (h.withPort rest s.reply)

/-! ### The mirrored scratch -/

/-- R43 (5) speaks of an ACTIVE reader only. -/
theorem scratchMirrors_of_inactive {s : State} (h : s.phase ≠ .active) : ScratchMirrors s :=
  fun hp => absurd hp h

theorem scratchMirrors_of_writer {s : State} (h : s.dir = .writer) : ScratchMirrors s :=
  fun _ hd => absurd (h.symm.trans hd) (by decide)

/-- A new reader has no live bits to mirror. -/
theorem State.scratchMirrors_startBinding (s : State) (d : Dir) (c : Word) : ScratchMirrors (s.startBinding d c) :=
  fun _ _ j hj => absurd hj (Nat.not_lt_zero j)

/-- Bits taken by a completed body leave a mirror; a writer has none to keep. -/
theorem body_keeps_mirror {i : Instr} {d : Dir} {s u : State} {out : Word × List Byte} (h : Inv s)
    (hm : ScratchMirrors s) (hi : i.side = some d) (hf : i ≠ .wflush) (hp : s.phase = .active) (hd : s.dir = d)
    (hrun : body i s = .ok out u) : ScratchMirrors u := by
  cases d with
  | writer =>
    have hframe := body_frame hi hf s
    rw [hrun] at hframe
    exact scratchMirrors_of_writer (hframe.dir.trans hd)
  | reader =>
    have hreads := body_reads hi ⟨h, hp, hd⟩
    rw [hrun] at hreads
    obtain ⟨bits, htook⟩ := hreads
    exact htook.mirrors ⟨h, hp, hd⟩ hm

/-- A completed flush leaves the binding DONE. -/
theorem flush_phase {s u : State} (h : flush s = .ok () u) : u.phase = .done := by
  rcases flush_frame s with ⟨j, hrun⟩ | ⟨t, hrun, -, hdone⟩ <;> rw [hrun] at h <;> cases h
  exact hdone

theorem Served.keeps_mirror {ev : HostEvent} {s t : State} (hst : Served ev s t) (h : Inv s)
    (hm : ScratchMirrors s) : ScratchMirrors t := by
  cases hst with
  | answered r => exact hm
  | stored i v _ _ hp => exact scratchMirrors_of_inactive hp
  | reset _ => exact scratchMirrors_of_inactive nofun
  | bound c d cap _ _ _ => exact s.scratchMirrors_startBinding d cap
  | overCapacity c d cap _ _ => exact scratchMirrors_of_inactive nofun
  | rejected c _ _ => exact scratchMirrors_of_inactive nofun
  | flushed c u _ _ _ _ hrun =>
    exact scratchMirrors_of_inactive (by rw [State.answer_phase, flush_phase hrun]; decide)
  | completed i d out u hi hf hp hd hrun =>
    have hu : ScratchMirrors u := body_keeps_mirror h hm hi hf hp hd hrun
    exact hu
  | raised c i d e u _ _ _ _ _ _ => exact scratchMirrors_of_inactive nofun

/-- Settles O52: a step leaves scratch and buffer alone, leaves no ACTIVE reader with live bits, or takes bits from a
mirror. -/
theorem everyStepKeepsTheScratchMirrored : Obligations.EveryStepKeepsTheScratchMirrored := by
  intro s t h hm hstep
  rcases step_cases hstep with rfl | ⟨ev, rest, -, hst⟩
  · exact hm
  · exact hst.keeps_mirror (h.withPort rest s.reply) hm

/-! ### The control state -/

/-- A failure entry always leaves a failure in `ERR` (R342), whether or not one stood there before. -/
theorem State.fail_err_ne_ok (s : State) {e : Status} (he : e ≠ .ok) : (s.fail e).err ≠ .ok := by
  rw [State.fail_err]
  split
  · exact he
  · assumption

/-- A completed flush writes neither `DIR` nor `CAP`. -/
theorem flush_keeps_binding {s u : State} (h : flush s = .ok () u) : u.dir = s.dir ∧ u.cap = s.cap := by
  rcases flush_frame s with ⟨j, hrun⟩ | ⟨t, hrun, hframe, -⟩ <;> rw [hrun] at h <;> cases h
  exact ⟨hframe.dir, hframe.cap⟩

/-- Settles O53: serving an event changes control state in four ways only; in the others `hchange` is false. -/
theorem controlStateChangesOnlyAsListed : Obligations.ControlStateChangesOnlyAsListed := by
  intro s t hstep hchange
  have unchanged (hph : t.phase = s.phase) (hdir : t.dir = s.dir) (hcap : t.cap = s.cap) : False := by
    simp [hph, hdir, hcap] at hchange
  rcases step_cases hstep with rfl | ⟨ev, rest, hport, hst⟩
  · exact (unchanged rfl rfl rfl).elim
  refine ⟨ev, rest, hport, ?_⟩
  cases hst with
  | answered r => exact (unchanged rfl rfl rfl).elim
  | stored i v _ _ _ => exact (unchanged rfl rfl rfl).elim
  | reset hev => exact .inl ⟨hev, rfl, rfl, rfl⟩
  | bound c d cap hev hdec _ => exact .inr (.inl ⟨c, d, cap, hev, hdec, .inl rfl⟩)
  | overCapacity c d cap hev hdec => exact .inr (.inl ⟨c, d, cap, hev, hdec, .inr rfl⟩)
  | rejected c hev hp =>
    exact .inr (.inr (.inr ⟨c, hev, hp, rfl, State.fail_err_ne_ok _ (by decide), rfl, rfl⟩))
  | flushed c u hev hdec hp _ hrun =>
    have hdone : u.phase = .done := flush_phase hrun
    obtain ⟨hdir, hcap⟩ := flush_keeps_binding hrun
    exact .inr (.inr (.inl ⟨c, hev, hdec, hp, hdone, hdir, hcap⟩))
  | completed i d out u hi hf _ _ hrun =>
    have hframe := body_frame hi hf { s with port := rest }
    rw [hrun] at hframe
    exact (unchanged hframe.phase hframe.dir hframe.cap).elim
  | raised c i d e u hev hi hf hp _ hrun =>
    have hleaves := body_frame hi hf { s with port := rest }
    rw [hrun] at hleaves
    obtain ⟨⟨he, -⟩, hframe⟩ := hleaves
    exact .inr (.inr (.inr ⟨c, hev, hp, rfl, State.fail_err_ne_ok u he, hframe.dir, hframe.cap⟩))

/-- Settles O54: outside ACTIVE the gates admit no command, so all that is left is an answer. -/
theorem inactiveEngineKeepsItsState : Obligations.InactiveEngineKeepsItsState := by
  intro s t ev rest hinactive hport hreset hwrite hbind hstep
  rw [step_event s hport] at hstep
  cases serve_cases hstep with
  | answered r => rfl
  | stored i v hev _ _ => exact absurd hev (hwrite i v)
  | reset hev => exact absurd hev hreset
  | bound c d cap hev hdec _ => exact absurd hdec (hbind c d cap hev)
  | overCapacity c d cap hev hdec => exact absurd hdec (hbind c d cap hev)
  | rejected _ _ hp => exact absurd hp hinactive
  | flushed _ _ _ _ hp _ _ => exact absurd hp hinactive
  | completed _ _ _ _ _ _ hp _ _ => exact absurd hp hinactive
  | raised _ _ _ _ _ _ _ _ hp _ _ => exact absurd hp hinactive

end Sys2Proof.Machine
end

section
/-! PROOFS. The buffer memory under commands (spec/20_memory.md). A step from a state with the invariants finds every
word it asks for (R83), a command stores only between the cursors (R71, R80), and the words and byte lanes that
fields, blocks and the terminal flush leave are those of the stream (R72, R73). -/

namespace Sys2Proof.Machine

/-! ### No access leaves the buffer -/

theorem finish_next {r : Res (Word × List Byte)} (h : ∀ i, r ≠ .absent i) : ∃ t, finish r = .next t := by
  cases r with
  | ok out t => exact ⟨_, finish_ok out t⟩
  | raised e t => exact ⟨_, finish_raised e t⟩
  | absent i => exact absurd rfl (h i)

/-- R143: the body of WFLUSH is the flush. -/
theorem body_wflush {s t : State} (h : flush s = .ok () t) : body .wflush s = .ok (0, []) t := by
  rw [body, h, Res.bind_ok]

/-- R145 (3), R174 (3): an admitted stream command has an answer, since its accesses lie within `CAP`. -/
theorem finish_body_next {i : Instr} {d : Dir} {s : State} (h : Inv s) (hi : i.side = some d)
    (hp : s.phase = .active) (hd : s.dir = d) : ∃ t, finish (body i s) = .next t := by
  cases d with
  | writer =>
    by_cases hf : i = .wflush
    · obtain ⟨t, hrun, -⟩ := flush_spec ⟨h, hp, hd⟩
      rw [hf, body_wflush hrun]
      exact ⟨_, finish_ok _ t⟩
    · exact finish_next fun j hj => by simpa [hj, Res.WritesFrom] using body_writes hi hf ⟨h, hp, hd⟩
  | reader => exact finish_next fun j hj => by simpa [hj, Res.ReadsFrom] using body_reads hi ⟨h, hp, hd⟩

/-- R312: every operation has an answer in every state with the invariants, whichever gate it meets. -/
theorem exec_next {s : State} (h : Inv s) (i : Instr) : ∃ t, exec i s = .next t := by
  cases hi : i.side with
  | none =>
    rcases Instr.side_eq_none hi with ⟨d, c, rfl⟩ | ⟨sg, lo, hi, rfl⟩
    · rcases Nat.lt_or_ge s.bufWords.val c.toNat with hc | hc
      · exact ⟨_, exec_bind_over d hc⟩
      · exact ⟨_, exec_bind_within d hc⟩
    · simp only [exec, execBfr]
      split <;> exact ⟨_, rfl⟩
  | some d =>
    by_cases hp : s.phase = .active
    · by_cases hd : s.dir = d
      · rw [exec_admitted hi hp hd]; exact finish_body_next h hi hp hd
      · exact ⟨_, exec_misdirected hi hp hd⟩
    · exact ⟨_, exec_inactive (by rw [hi]; exact Option.some_ne_none d) hp⟩

/-- R310: every event has an answer in every state with the invariants. -/
theorem serve_next {s : State} (h : Inv s) (ev : HostEvent) : ∃ t, serve ev s = .next t := by
  cases ev with
  | command c =>
    cases hdec : decode c with
    | ok i => rw [serve_legal s hdec]; exact exec_next h i
    | error e => exact ⟨_, serve_illegal s hdec⟩
  | csrRead a => exact ⟨_, serve_csrRead s a⟩
  | hostRead i => exact ⟨_, serve_hostRead s i⟩
  | hostWrite i v => exact ⟨_, serve_hostWrite s i v⟩
  | reset => exact ⟨_, serve_reset s⟩

/-- Settles O51: the engine idles or serves the next event. -/
theorem noStepStops : Obligations.NoStepStops := by
  intro s h
  cases hport : s.port with
  | nil => exact ⟨s, step_idle s hport⟩
  | cons ev rest => rw [step_event s hport]; exact serve_next (h.withPort rest s.reply) ev

/-! ### Stores lie between the cursors -/

/-- From `s` to `t` memory changed only in the words from the old `CURSOR` up to the new one, and under a reader not
at all (R71). -/
def StoresBetweenCursors (s t : State) : Prop :=
  (∀ a, a < 4 * s.cursor.toNat ∨ 4 * t.cursor.toNat ≤ a → t.buf.readByte a = s.buf.readByte a) ∧
    (s.dir = .reader → t.buf = s.buf)

theorem StoresBetweenCursors.of_buf_eq {s t : State} (h : t.buf = s.buf) : StoresBetweenCursors s t :=
  ⟨fun _ _ => by rw [h], fun _ => h⟩

theorem WriteFrame.stores {s t : State} (h : WriteFrame s t) (hd : s.dir = .writer) : StoresBetweenCursors s t :=
  ⟨h.memory, fun hr => absurd (hd.symm.trans hr) (by decide)⟩

/-- R80: the stores of the terminal flush, in any state. -/
theorem body_wflush_stores {s : State} (hd : s.dir = .writer) :
    (body .wflush s).Leaves (StoresBetweenCursors s) := by
  rcases flush_frame s with ⟨j, hrun⟩ | ⟨t, hrun, hframe, -⟩
  · rw [body, hrun]; trivial
  · rw [body_wflush hrun]; exact hframe.stores hd

/-- R71: the stores of an admitted stream command, in any state. -/
theorem body_stores {i : Instr} {d : Dir} {s : State} (hi : i.side = some d) (hd : s.dir = d) :
    (body i s).Leaves (StoresBetweenCursors s) := by
  cases d with
  | writer =>
    by_cases hf : i = .wflush
    · rw [hf]; exact body_wflush_stores hd
    · exact (body_writeFrame hi hf s).mono fun _ h => h.stores hd
  | reader => exact (body_readFrame hi s).mono fun _ h => .of_buf_eq h.memory

/-- The answer or the failure entry at a body's end stores nothing and moves no cursor. -/
theorem finish_stores {s t : State} {r : Res (Word × List Byte)} (h : r.Leaves (StoresBetweenCursors s))
    (hr : finish r = .next t) : StoresBetweenCursors s t := by
  cases r with
  | ok out u => cases hr; exact h
  | raised e u => cases hr; exact h.2
  | absent i => cases hr

/-- BIND and BFR store nothing (R316, R202). -/
theorem exec_undirected_buf {i : Instr} {s t : State} (hi : i.side = none) (h : exec i s = .next t) :
    t.buf = s.buf := by
  rcases Instr.side_eq_none hi with ⟨d, c, rfl⟩ | ⟨sg, lo, hi, rfl⟩
  · rcases Nat.lt_or_ge s.bufWords.val c.toNat with hc | hc
    · rw [exec_bind_over d hc] at h; cases h; rfl
    · rw [exec_bind_within d hc] at h; cases h; rfl
  · simp only [exec, execBfr] at h
    split at h <;> cases h <;> rfl

/-- Settles O55: a command that a gate refuses stores nothing, an admitted one what its body stores. -/
theorem commandsStoreOnlyBetweenCursors : Obligations.CommandsStoreOnlyBetweenCursors := by
  intro i s t h
  show StoresBetweenCursors s t
  cases hi : i.side with
  | none => exact .of_buf_eq (exec_undirected_buf hi h)
  | some d =>
    by_cases hp : s.phase = .active
    · by_cases hd : s.dir = d
      · rw [exec_admitted hi hp hd] at h; exact finish_stores (body_stores hi hd) h
      · rw [exec_misdirected hi hp hd] at h; cases h; exact .of_buf_eq rfl
    · rw [exec_inactive (by rw [hi]; exact Option.some_ne_none d) hp] at h; cases h; exact .of_buf_eq rfl

/-! ### Fields -/

/-- Settles O16: the body of WBITS is one WB, and it fits. -/
theorem wbitsAppendsItsField : Obligations.WbitsAppendsItsField := by
  intro s w v h hw hroom
  obtain ⟨t, hrun, hwrote⟩ := writeBits_appends h v hw hroom
  exact h.completes rfl hwrote (by rw [body, hrun, Res.bind_ok])

/-- Settles O17: the body of RBITS is one RB, and it is within the budget. -/
theorem rbitsTakesTheNextField : Obligations.RbitsTakesTheNextField := by
  intro s w h hw hbudget
  obtain ⟨v, t, hrun, hlt, htook⟩ := readBits_consumes h hw hbudget
  exact ⟨v, hlt, h.completes rfl htook (by rw [body, hrun, Res.bind_ok])⟩

/-! ### The terminal flush -/

/-- R72: the stream bits of a buffer of which one word was replaced. -/
theorem State.bufBit_of_writeWord {s t : State} {i : Nat} {v : Word} (h : t.buf = s.buf.writeWord i v) (k : Nat) :
    t.bufBit k = if k / 32 = i then v.getLsbD (k % 32) else s.bufBit k := by
  unfold State.bufBit
  rw [h]
  split
  · next hk => rw [hk, Memory.readWord_writeWord_same]
  · next hk => rw [Memory.readWord_writeWord_other _ _ hk]

/-- Committing the partial word leaves the stream in the buffer, with zeros after it: the scratch has no bit at or
above `SBITS` (R42 (2)). -/
theorem bufBit_of_commit {s t : State} (h : Inv s)
    (hbuf : t.buf = s.buf.writeWord s.cursor.toNat (s.scratch.setWidth 32)) {k : Nat}
    (hk : k < 32 * (s.cursor.toNat + 1)) :
    t.bufBit k = if k < s.writePos then s.writtenBit k else false := by
  have hsbits := h.sbits_le
  rw [State.bufBit_of_writeWord hbuf, State.writePos, State.writtenBit]
  by_cases hlow : k < 32 * s.cursor.toNat
  · rw [if_neg (by omega), if_pos (by omega), if_pos hlow]
  · have hmod : k % 32 = k - 32 * s.cursor.toNat := by omega
    have hlt : k - 32 * s.cursor.toNat < 32 := by omega
    rw [if_pos (by omega), if_neg hlow, hmod, BitVec.getLsbD_setWidth, decide_eq_true hlt, Bool.true_and]
    split
    · rfl
    · exact getLsbD_of_lt_two_pow h.scratch_lt (by omega)

/-- R143: after the terminal flush the buffer holds the stream, padded with zeros: with no pending bits it held the
stream before, else the commit adds the last word. -/
theorem bufBit_of_flush {s t : State} (h : WriterReady s) (hrun : flush s = .ok () t) {k : Nat}
    (hk : k < 32 * t.cursor.toNat) : t.bufBit k = if k < s.writePos then s.writtenBit k else false := by
  obtain ⟨u, hu, -, hcursor, hsame, hstored⟩ := flush_spec h
  obtain rfl : u = t := by rw [hu] at hrun; cases hrun; rfl
  have hsbits := h.inv.sbits_le
  rw [State.writePos] at hcursor
  by_cases h0 : s.sbits = 0
  · have hz : s.sbits.toNat = 0 := congrArg BitVec.toNat h0
    have hlow : k < 32 * s.cursor.toNat := by omega
    rw [State.writePos, if_pos (by omega), State.writtenBit, if_pos hlow, State.bufBit, State.bufBit, hsame h0]
  · exact bufBit_of_commit h.inv (hstored h0) (by omega)

/-- Settles O20: the flush fixes the buffer's bits, and its stores are those of any command. -/
theorem wflushCommitsThePartialWord : Obligations.WflushCommitsThePartialWord := by
  intro s h
  obtain ⟨t, hrun, heq, hcursor, -, -⟩ := flush_spec h
  have hexec : exec .wflush s = .next (t.answer .ok 0 []) := by rw [h.exec rfl, body_wflush hrun, finish_ok]
  refine ⟨_, hexec, by rw [heq]; rfl, hcursor, fun k hk => bufBit_of_flush h hrun hk, fun a ha => ?_⟩
  rw [← hcursor] at ha
  exact (commandsStoreOnlyBetweenCursors .wflush s _ hexec).1 a ha

/-! ### Byte blocks -/

/-- Settles O41: the pad, then the block in the room that the pad leaves. -/
theorem wbytesAppendsItsBytes : Obligations.WbytesAppendsItsBytes := by
  intro s len bs h _ hroom
  obtain ⟨t, hpad, hwpad⟩ := alignWrite_pads h
  have hpos : t.writePos = s.writePos + s.padBits := by rw [hwpad.app.writePos, length_zeroBits]
  rcases writeBlock_cases bs hwpad.ready with ⟨hover, -⟩ | ⟨-, u, hblock, hwblock⟩
  · rw [hpos, hwpad.app.cap] at hover; omega
  · exact h.completes rfl (hwpad.trans h hwblock) (by rw [body, hpad, Res.bind_ok, hblock, Res.bind_ok])

/-- Settles O42: the known bits are a zero pad, then those of the block. -/
theorem rbytesDeliversItsBytes : Obligations.RbytesDeliversItsBytes := by
  intro s len bs h hlen hnext
  obtain ⟨hzero, hbytes⟩ := take_add_eq_append hnext (length_zeroBits _)
  obtain ⟨t, htpad, hpad⟩ := alignRead_cases h
  rw [if_pos hzero] at hpad
  rw [hzero] at htpad
  have hunread : t.unread = s.unread.drop s.padBits := by rw [htpad.unread_eq, length_zeroBits]
  obtain ⟨u, hblock, htblock⟩ := readBlock_of_take htpad.ready hlen (by rw [hunread]; exact hbytes)
  exact h.completes rfl (htpad.trans htblock) (by rw [body, hpad, Res.bind_ok, hblock, Res.bind_ok])

/-! ### Lanes -/

/-- R73: four bytes in order have the bits of the word that they are the lanes of, the first byte lowest. -/
theorem flatMap_byteBits_lanes (b0 b1 b2 b3 : Byte) :
    [b0, b1, b2, b3].flatMap byteBits = fieldBits (b3 ++ b2 ++ b1 ++ b0) 32 := by
  refine List.ext_getElem (by simp) fun k h₁ h₂ => ?_
  rw [length_fieldBits] at h₂
  rw [getElem_fieldBits, BitVec.getLsbD_append, BitVec.getLsbD_append, BitVec.getLsbD_append]
  simp only [List.flatMap_cons, List.flatMap_nil, List.getElem_append, byteBits, List.getElem_map,
    List.getElem_range]
  grind

/-- R72: a whole word appended at a word boundary is the word that `CURSOR` pointed to. -/
theorem Appended.readWord_cursor {s t : State} {v : Word} (h : Appended s t (fieldBits v 32))
    (h0 : s.sbits.toNat = 0) : t.buf.readWord s.cursor.toNat = v := by
  have hcursor := h.cursor
  rw [length_fieldBits, State.writePos] at hcursor
  refine BitVec.eq_of_getLsbD_eq fun j hj => ?_
  have hlen : s.written.length = 32 * s.cursor.toNat := by rw [State.length_written, State.writePos]; omega
  have hbit : t.writtenBit (32 * s.cursor.toNat + j) = v.getLsbD j := by
    have hk : 32 * s.cursor.toNat + j < t.written.length := by
      rw [h.stream, List.length_append, hlen, length_fieldBits]; omega
    rw [← State.getElem_written t _ hk]
    simp only [h.stream]
    rw [List.getElem_append_right (by omega), getElem_fieldBits]
    congr 1; omega
  rw [State.writtenBit, if_pos (by omega), State.bufBit] at hbit
  rw [← hbit]
  congr 2 <;> omega

/-- Settles O48: WBYTES appends the four lanes of one word, and no pad. -/
theorem fourBytesMakeOneWord : Obligations.FourBytesMakeOneWord := by
  intro s b0 b1 b2 b3 h h0 hcap
  have hz : s.sbits.toNat = 0 := congrArg BitVec.toNat h0
  have hpos : s.writePos = 32 * s.cursor.toNat := by rw [State.writePos, hz]; rfl
  have hpad : s.padBits = 0 := by rw [h.pad_eq, hpos]; omega
  obtain ⟨u, t, happ, rfl, hexec⟩ := wbytesAppendsItsBytes s 4 [b0, b1, b2, b3] h rfl (by
    rw [hpos, hpad]; simp only [List.length_cons, List.length_nil]; omega)
  rw [hpad, show zeroBits 0 = [] from rfl, List.nil_append, flatMap_byteBits_lanes] at happ
  have hcursor := happ.cursor
  have hsbits := happ.sbits
  rw [length_fieldBits, hpos] at hcursor hsbits
  refine ⟨_, hexec, happ.readWord_cursor hz, by simp only; omega, ?_, fun a ha => happ.memory a ?_⟩
  · exact BitVec.eq_of_toNat_eq (by simp only; rw [hsbits]; simp)
  · rw [length_fieldBits, hpos]; omega

end Sys2Proof.Machine
end

section
/-! PROOFS. Encoding (spec/30_encoding.md). A command and an operation each have a direction, a signedness and a WIDTH,
and the word of each is the sum of these fields and an opcode. So a command decodes to an operation exactly when the
two words are the same and the row of the opcode map, filled from the command, is the operation
(`decode_eq_ok_iff_word`), and that is to carry the operation (`carries_iff`). -/

namespace Sys2Proof

open Machine

/-! ### The fields of an operation -/

/-- The entry of the opcode map that an operation is a row of (R102). -/
def Instr.operation : Instr → Operation
  | .bind _ _ => .bind
  | .wbits _ _ | .rbits _ => .bits
  | .wchk _ | .rchk _ => .chk
  | .wflush | .rflush => .flush
  | .bfr _ _ _ => .bfr
  | .wint _ _ _ _ | .rint _ _ _ => .int
  | .wf32 _ | .rf32 => .f32
  | .wqf _ _ _ _ | .rqf _ _ _ => .qf
  | .walign | .ralign => .align
  | .wbytes _ _ | .rbytes _ => .bytes
  | .wstr _ _ | .rstr _ => .str

/-- The direction that the D bit of an operation's word names (R103). -/
def Instr.dir : Instr → Dir
  | .bind d _ => d
  | i => i.side.getD .writer

/-- The signedness that the S bit of an operation's word names (R104). -/
def Instr.sign : Instr → Sign
  | .bfr sg _ _ | .wint sg _ _ _ | .rint sg _ _ => sg
  | _ => .unsigned

/-- The WIDTH field of an operation's word (R105). -/
def Instr.width : Instr → Width
  | .wbits w _ | .rbits w | .wchk w | .rchk w => w
  | _ => 0

theorem Dir.toNat_or_bit (d : Dir) : (0x00000001 ||| d.bit).toNat = 0x01 + 2 ^ 5 * (d == .reader).toNat := by
  cases d <;> decide

theorem Sign.toNat_or_bit {k : Word} (hk : k = 0x05 ∨ k = 0x06 ∨ k = 0x26) (sg : Sign) :
    (k ||| sg.bit).toNat = k.toNat + 2 ^ 6 * (sg == .signed).toNat := by
  rcases hk with rfl | rfl | rfl <;> cases sg <;> decide

/-- R114: the word of an operation is the sum of its fields, each in its place. -/
theorem Instr.toNat_word (i : Instr) :
    i.word.toNat = i.operation.code + 2 ^ 5 * (i.dir == .reader).toNat + 2 ^ 6 * (i.sign == .signed).toNat +
      2 ^ 8 * i.width.toNat := by
  cases i
  case bind d c => exact d.toNat_or_bit
  case wbits w v => exact toNat_or_widthBits (by decide) w
  case rbits w => exact toNat_or_widthBits (by decide) w
  case wchk w => exact toNat_or_widthBits (by decide) w
  case rchk w => exact toNat_or_widthBits (by decide) w
  case bfr sg lo hi => exact sg.toNat_or_bit (by decide)
  case wint sg v lo hi => exact sg.toNat_or_bit (by decide)
  case rint sg lo hi => exact sg.toNat_or_bit (by decide)
  all_goals rfl

/-! ### The fields of a command and of the operation it decodes to -/

theorem Command.dBit_eq_dir (c : Command) : c.dBit = (c.dir == .reader) := by
  rw [Command.dir]; cases c.dBit <;> rfl

theorem Command.sBit_eq_sign (c : Command) : c.sBit = (c.sign == .signed) := by
  rw [Command.sign]; cases c.sBit <;> rfl

theorem Dir.beq_reader_inj {d e : Dir} : (d == .reader) = (e == .reader) ↔ d = e := by
  cases d <;> cases e <;> decide

theorem Sign.beq_signed_inj {a b : Sign} : (a == .signed) = (b == .signed) ↔ a = b := by
  cases a <;> cases b <;> decide

/-- A command with the word of an operation has the operation's fields. -/
theorem Command.fields_of_word {c : Command} {i : Instr} (h : c.word = i.word) :
    c.reservedSet = false ∧ Operation.ofOpc c.opc = some i.operation ∧ c.dir = i.dir ∧ c.sign = i.sign ∧
      c.width = i.width := by
  obtain ⟨hr, hop, hd, hs, hw⟩ := Command.fields_of_toNat (h ▸ i.toNat_word)
  rw [c.dBit_eq_dir, Dir.beq_reader_inj] at hd
  rw [c.sBit_eq_sign, Sign.beq_signed_inj] at hs
  exact ⟨hr, hop, hd, hs, hw⟩

/-- R110, on the fields as values. -/
theorem Command.unusedSet_eq_false {c : Command} {op : Operation} :
    c.unusedSet op = false ↔
      (op.usesS = false → c.sign = .unsigned) ∧ (op.usesWidth = false → c.width = 0) ∧
        (op = .bfr → c.dir = .writer) := by
  rw [Command.unusedSet, c.sBit_eq_sign, c.dBit_eq_dir, Bool.or_eq_false_iff, Bool.or_eq_false_iff, and_assoc]
  refine and_congr ?_ (and_congr ?_ ?_)
  · cases c.sign <;> simp
  · cases op.usesWidth <;> simp
  · cases c.dir <;> simp

/-- R110: an operation's own word has no field set that the operation has no use for. -/
theorem Command.unusedSet_of_word {c : Command} {i : Instr} (h : c.word = i.word) :
    c.unusedSet i.operation = false := by
  obtain ⟨-, -, hd, hs, hw⟩ := Command.fields_of_word h
  rw [Command.unusedSet_eq_false, hd, hs, hw]
  cases i <;> simp [Instr.operation, Instr.dir, Instr.sign, Instr.width, Instr.side, Operation.usesS,
    Operation.usesWidth]

/-- R102: a row is filled from the fields of the command, those that its operation has no use for being 0. -/
theorem Command.fields_instr {c : Command} {op : Operation} (h : c.unusedSet op = false) :
    (c.instr op).operation = op ∧ (c.instr op).dir = c.dir ∧ (c.instr op).sign = c.sign ∧
      (c.instr op).width = c.width := by
  obtain ⟨hs, hw, hd⟩ := Command.unusedSet_eq_false.mp h
  unfold Command.instr
  split <;> simp_all [Instr.operation, Instr.dir, Instr.sign, Instr.width, Instr.side, Operation.usesS,
    Operation.usesWidth]

/-- R113: a command that passes the checks of its word has the word of the operation it decodes to. -/
theorem Command.word_instr {c : Command} {op : Operation} (hr : c.reservedSet = false)
    (hop : Operation.ofOpc c.opc = some op) (hu : c.unusedSet op = false) : c.word = (c.instr op).word := by
  obtain ⟨hi, hd, hs, hw⟩ := Command.fields_instr hu
  apply BitVec.eq_of_toNat_eq
  rw [Command.toNat_word hr, Instr.toNat_word, hi, hd, hs, hw, Operation.ofOpc_eq_some.mp hop, c.dBit_eq_dir,
    c.sBit_eq_sign]

/-- R113: to decode to an operation is to have its word, to fill its row with its operands, and the byte count. -/
theorem decode_eq_ok_iff_word {c : Command} {i : Instr} :
    decode c = .ok i ↔ c.word = i.word ∧ c.instr i.operation = i ∧ c.bin.length = c.binLength i.operation := by
  rw [decode_eq_ok]
  constructor
  · rintro ⟨hr, op, hop, hu, hb, rfl⟩
    have hi := (Command.fields_instr hu).1
    exact ⟨Command.word_instr hr hop hu, by rw [hi], by rw [hi, hb]⟩
  · rintro ⟨hw, hi, hb⟩
    obtain ⟨hr, hop, -⟩ := Command.fields_of_word hw
    exact ⟨hr, i.operation, hop, Command.unusedSet_of_word hw, hb, hi⟩

/-! ### What carries an operation -/

/-- R106: to carry an operation is to have its word and its bytes, and to fill its row with its operands. -/
theorem carries_iff {c : Command} {i : Instr} :
    Carries c i ↔ c.word = i.word ∧ c.bin = i.bytes ∧ c.instr i.operation = i := by
  cases i
  all_goals
    refine and_congr_right fun hw => ?_
    obtain ⟨-, -, hdir, hsign, hwidth⟩ := Command.fields_of_word hw
    simp_all [Instr.operation, Instr.bytes, Command.instr, Instr.dir, Instr.sign, Instr.width, Instr.side]

/-- R107: the bytes of a command that fills an operation's row are right in number exactly when the operation is
well-formed and they are its bytes. -/
theorem Command.length_bin_iff {c : Command} {i : Instr} (hw : c.word = i.word) (hi : c.instr i.operation = i) :
    c.bin.length = c.binLength i.operation ↔ i.wellFormed = true ∧ c.bin = i.bytes := by
  obtain ⟨-, -, hd, -, -⟩ := Command.fields_of_word hw
  rw [Command.binLength, c.dBit_eq_dir, hd]
  cases i <;> simp_all [Instr.operation, Instr.bytes, Instr.wellFormed, Command.instr, Instr.dir, Instr.side]

/-- Settles O2: with the word and the operands in place, the two conditions on `bin` say the same. -/
theorem decodesExactlyWhatCarriesIt : Obligations.DecodesExactlyWhatCarriesIt := by
  intro c i
  rw [decode_eq_ok_iff_word, carries_iff]
  constructor
  · rintro ⟨hw, hi, hb⟩
    obtain ⟨hwf, hbin⟩ := (Command.length_bin_iff hw hi).mp hb
    exact ⟨hwf, hw, hbin, hi⟩
  · rintro ⟨hwf, hw, hbin, hi⟩
    exact ⟨hw, hi, (Command.length_bin_iff hw hi).mpr ⟨hwf, hbin⟩⟩

/-- The command that the encoder makes carries the operation, with 0 in the slots it ignores. -/
theorem carries_encode (i : Instr) : Carries (encode i) i := by
  cases i <;> simp [Carries, encode, Instr.slots, Instr.bytes]

/-- Settles O1: the encoder's command is one of those that carry the operation. -/
theorem decodeInvertsEncode : Obligations.DecodeInvertsEncode := fun i hwf =>
  (decodesExactlyWhatCarriesIt (encode i) i).mpr ⟨hwf, carries_encode i⟩

/-! ### The checks on the word as a number -/

/-- R110, by number: the fields that the operation of the word's opcode has no use for. -/
theorem Command.unusedSet_iff_toNat {c : Command} {op : Operation} (hop : Operation.ofOpc c.opc = some op) :
    c.unusedSet op = true ↔
      (c.word.toNat / 2 ^ 6 % 2 = 1 ∧ c.word.toNat % 32 ≠ 0x05 ∧ c.word.toNat % 32 ≠ 0x06) ∨
        (c.word.toNat / 2 ^ 8 % 64 ≠ 0 ∧ c.word.toNat % 32 ≠ 0x02 ∧ c.word.toNat % 32 ≠ 0x03) ∨
        (c.word.toNat / 2 ^ 5 % 2 = 1 ∧ c.word.toNat % 32 = 0x05) := by
  have hwidth : (c.width != 0) = decide (c.word.toNat / 2 ^ 8 % 64 ≠ 0) := by
    rw [← c.toNat_width, Bool.eq_iff_iff, bne_iff_ne, decide_eq_true_iff]
    exact not_congr BitVec.toNat_inj.symm
  rw [Operation.ofOpc_eq_some, c.toNat_opc] at hop
  rw [hop, Command.unusedSet, c.sBit_eq, c.dBit_eq, hwidth]
  cases op <;> simp [Operation.usesS, Operation.usesWidth, Operation.code]

/-- R107, by number: the byte count of the operation of the word's opcode. -/
theorem Command.binLength_eq_toNat {c : Command} {op : Operation} (hop : Operation.ofOpc c.opc = some op) :
    c.binLength op =
      if (c.word.toNat % 32 = 0x0A ∨ c.word.toNat % 32 = 0x0B) ∧ c.word.toNat / 2 ^ 5 % 2 = 0 then c.op0.toNat
      else 0 := by
  rw [Operation.ofOpc_eq_some, c.toNat_opc] at hop
  rw [hop, Command.binLength, c.dBit_eq]
  cases op <;> simp [Operation.code]

/-- R113: the last two checks, once the word has no reserved bit and a listed opcode. -/
theorem decode_of_listed {c : Command} {op : Operation} (hr : ¬ c.reservedSet = true)
    (hop : Operation.ofOpc c.opc = some op) :
    decode c = if c.unusedSet op = true then .error .unusedField
      else if c.bin.length ≠ c.binLength op then .error .byteCount else .ok (c.instr op) := by
  rw [decode, if_neg hr, hop]

/-- R113: a reserved opcode, once the word has no reserved bit. -/
theorem decode_of_unlisted {c : Command} (hr : ¬ c.reservedSet = true) (hop : Operation.ofOpc c.opc = none) :
    decode c = .error .reservedOpcode := by
  rw [decode, if_neg hr, hop]

/-- Settles O3, by the first check that fails: the checks before it and the check itself decide all four clauses. -/
theorem illegalByFirstFailingCheck : Obligations.IllegalByFirstFailingCheck := by
  intro c
  dsimp only
  rw [← c.reservedSet_iff]
  by_cases hr : c.reservedSet = true
  · have hdec : decode c = .error .reservedBits := if_pos hr
    simp [hdec, hr]
  cases hop : Operation.ofOpc c.opc with
  | none =>
    have hcode := Operation.ofOpc_eq_none.mp hop
    rw [c.toNat_opc] at hcode
    simp [decode_of_unlisted hr hop, hr, hcode]
  | some op =>
    have hcode : ¬ (c.word.toNat % 32 = 0x00 ∨ 0x0C ≤ c.word.toNat % 32) := by
      rw [← c.toNat_opc, ← Operation.ofOpc_eq_none, hop]; exact Option.some_ne_none op
    rw [← Command.unusedSet_iff_toNat hop, ← Command.binLength_eq_toNat hop, decode_of_listed hr hop]
    by_cases hu : c.unusedSet op = true
    · simp [hr, hcode, hu]
    · by_cases hb : c.bin.length = c.binLength op <;> simp [hr, hcode, hu, hb]

/-! ### The rows of the opcode table -/

/-- R114: the word of an operation belongs to the operation's row. -/
theorem Instr.row_accepts_word (i : Instr) : i.row.accepts i.word = true :=
  match i with
  | .bind d c => Laws.RowAccepts.bind d c
  | .wbits w v => Laws.RowAccepts.wbits w v
  | .rbits w => Laws.RowAccepts.rbits w
  | .wchk w => Laws.RowAccepts.wchk w
  | .rchk w => Laws.RowAccepts.rchk w
  | .wflush => Laws.RowAccepts.wflush
  | .rflush => Laws.RowAccepts.rflush
  | .bfr sg lo hi => Laws.RowAccepts.bfr sg lo hi
  | .wint sg v lo hi => Laws.RowAccepts.wint sg v lo hi
  | .rint sg lo hi => Laws.RowAccepts.rint sg lo hi
  | .wf32 v => Laws.RowAccepts.wf32 v
  | .rf32 => Laws.RowAccepts.rf32
  | .wqf v lo hi res => Laws.RowAccepts.wqf v lo hi res
  | .rqf lo hi res => Laws.RowAccepts.rqf lo hi res
  | .walign => Laws.RowAccepts.walign
  | .ralign => Laws.RowAccepts.ralign
  | .wbytes len bs => Laws.RowAccepts.wbytes len bs
  | .rbytes len => Laws.RowAccepts.rbytes len
  | .wstr len bs => Laws.RowAccepts.wstr len bs
  | .rstr dcap => Laws.RowAccepts.rstr dcap

/-- The row of every operation stands in the table. -/
theorem Instr.row_mem (i : Instr) : i.row ∈ opcodeRows := by
  cases i <;> simp [opcodeRows, Instr.row]

/-- Two rows that accept the same word ask for the same bits where both masks look. -/
theorem Row.patterns_agree {r r' : Row} {w : Word} (h : r.accepts w = true) (h' : r'.accepts w = true) :
    r.pattern &&& r'.mask = r'.pattern &&& r.mask := by
  rw [Row.accepts, beq_iff_eq] at h h'
  rw [← h, ← h', BitVec.and_assoc, BitVec.and_assoc, BitVec.and_comm r.mask]

/-- R113: any two rows of the table differ in a bit that both masks look at. -/
theorem opcodeRows_conflict :
    opcodeRows.Pairwise fun r r' => r.pattern &&& r'.mask ≠ r'.pattern &&& r.mask := by
  decide

/-- Where no two elements of a list pass a test, one that passes is all that the test keeps. -/
theorem filter_eq_singleton {α : Type} {p : α → Bool} {a : α} (ha : p a = true) :
    ∀ {l : List α}, l.Pairwise (fun x y => p x = true → ¬ p y = true) → a ∈ l → l.filter p = [a]
  | b :: l, hl, hmem => by
    obtain ⟨hb, hl⟩ := List.pairwise_cons.mp hl
    rcases List.mem_cons.mp hmem with rfl | hmem
    · rw [List.filter_cons_of_pos ha, List.filter_eq_nil_iff.mpr fun y hy => hb y hy ha]
    · rw [List.filter_cons_of_neg fun h => hb a hmem h ha, filter_eq_singleton ha hl hmem]

/-- Settles O4: the operation's own row accepts its word, and no other does, for it would conflict with that row. -/
theorem oneTableRowPerLegalWord : Obligations.OneTableRowPerLegalWord := by
  intro c i h
  have hown : i.row.accepts c.word = true := (decode_eq_ok_iff_word.mp h).1 ▸ i.row_accepts_word
  exact filter_eq_singleton (p := fun r => r.accepts c.word) hown
    (opcodeRows_conflict.imp fun hne hr hr' => hne (Row.patterns_agree hr hr')) i.row_mem

/-! ### The read form -/

/-- Setting D under a field (R101) sets it in the opcode's byte. -/
theorem or_or_dBit (k f : Word) : k ||| f ||| 0x00000020 = (k ||| 0x00000020) ||| f := by
  rw [BitVec.or_assoc, BitVec.or_comm f, BitVec.or_assoc]

/-- R320: the word of a write form and of its read form differ in D. -/
theorem Instr.word_readForm {i : Instr} (dcap : Word) (hi : i.side = some .writer) :
    (i.readForm dcap).word = i.word ||| 0x00000020 := by
  cases i <;> cases hi
  case wbits w v => exact (or_or_dBit 0x00000002 (widthBits w)).symm
  case wchk w => exact (or_or_dBit 0x00000003 (widthBits w)).symm
  case wint sg v lo hi => exact (or_or_dBit 0x00000006 sg.bit).symm
  all_goals simp [Instr.readForm, Instr.word]

/-- R320: the read form of a write form belongs to the reader's side. -/
theorem Instr.side_readForm {i : Instr} (dcap : Word) (hi : i.side = some .writer) :
    (i.readForm dcap).side = some .reader := by
  cases i <;> cases hi <;> rfl

/-- No read form takes bytes. -/
theorem Instr.wellFormed_of_reader {i : Instr} (hi : i.side = some .reader) : i.wellFormed = true := by
  cases i <;> cases hi <;> rfl

/-- R320: a command that carries a write form carries the read form once D is set and `bin` is empty. -/
theorem carries_readForm {c : Command} {i : Instr} (h : Carries c i) (hi : i.side = some .writer) :
    Carries { c with word := c.word ||| 0x00000020, bin := [] } (i.readForm c.op1) := by
  have hw := i.word_readForm c.op1 hi
  cases i <;> cases hi <;> simp_all [Carries, Instr.readForm]

/-- Settles O6: the changed command carries the read form, and any command that carries it decodes to it. -/
theorem settingDGivesTheReadForm : Obligations.SettingDGivesTheReadForm := by
  intro c i h hi
  have hside := i.side_readForm c.op1 hi
  have hcarries := carries_readForm ((decodesExactlyWhatCarriesIt c i).mp h).2 hi
  exact ⟨(decodesExactlyWhatCarriesIt _ _).mpr ⟨Instr.wellFormed_of_reader hside, hcarries⟩, hside⟩

/-- Settles O5: eight closed commands, evaluated. -/
theorem commandWordSamplesDecode : Obligations.CommandWordSamplesDecode := by
  unfold Obligations.CommandWordSamplesDecode
  decide

end Sys2Proof
end

section
/-! PROOFS. Fields of the BitWriter and the BitReader (spec/41_bitwriter.md, spec/42_bitreader.md): the commands that
fail or only answer a predicate, and the round trip of a record. The round trip is a simulation: `Writing` and `Reading`
relate a state of the engine to the stream as a list of bits, each command of a conversation is one step of that list,
and the terminal flush with the BIND after it turns what was written into what is next to read. -/

namespace Sys2Proof.Machine

/-! ### Failures and predicates -/

/-- Settles O18: the body of either command is one WB or one RB, which raises before it changes anything. -/
theorem fieldCommandsFail : Obligations.FieldCommandsFail := by
  intro s w v
  refine ⟨fun h => ⟨fun hw => ?_, fun hw hroom => ?_⟩, fun h => ⟨fun hw => ?_, fun hw hbudget => ?_⟩⟩
  · exact h.fails rfl h (by rw [body, writeBits_too_wide v s hw, Res.bind_raised])
  · exact h.fails rfl h (by rw [body, writeBits_overrun v hw hroom, Res.bind_raised])
  · exact h.fails rfl h (by rw [body, readBits_too_wide s hw, Res.bind_raised])
  · exact h.fails rfl h (by rw [body, readBits_past_end hw hbudget, Res.bind_raised])

/-- R142: the predicate as a number. -/
theorem boolWord_overrun (s : State) (w : Nat) :
    boolWord (s.overrun w) = if 32 * s.cap.toNat < s.writePos + w then 1 else 0 := by
  simp only [boolWord, s.overrun_iff]

/-- R172: the predicate as a number. -/
theorem boolWord_pastEnd (s : State) (w : Nat) :
    boolWord (s.pastEnd w) = if s.budget.toNat < w then 1 else 0 := by
  simp only [boolWord, s.pastEnd_iff]

/-- Settles O19: the body of either command is an answer, and no gate and no check looks at the width. -/
theorem predicatesAnswerEveryWidth : Obligations.PredicatesAnswerEveryWidth := by
  intro s w hp
  refine ⟨fun hd => ?_, fun hd => ?_⟩
  · rw [exec_admitted rfl hp hd, body, finish_ok, boolWord_overrun]; rfl
  · rw [exec_admitted rfl hp hd, body, finish_ok, boolWord_pastEnd]; rfl

/-! ### Conversations -/

/-- R310: the event of an operation that a command can carry runs the operation. -/
theorem serve_issue {i : Instr} (hi : i.wellFormed = true) (s : State) : serve (issue i) s = exec i s :=
  serve_legal s (decodeInvertsEncode i hi)

/-- R311: one command of a conversation; it leaves no event behind. -/
theorem converse_issue {i : Instr} {s t : State} (hi : i.wellFormed = true)
    (h : exec i { s with port := [] } = .next t) : converse [issue i] s = some ([t.reply], t) := by
  have hstep : step { s with port := [issue i] } = .next t := by
    rw [step_event _ rfl, serve_issue hi]; exact h
  simp only [converse, hstep, Option.map_some]

/-- R311: a conversation is served one part after the other. -/
theorem converse_append {evs evs' : List HostEvent} {s t u : State} {rs rs' : List (Option Reply)}
    (h : converse evs s = some (rs, t)) (h' : converse evs' t = some (rs', u)) :
    converse (evs ++ evs') s = some (rs ++ rs', u) := by
  induction evs generalizing s rs with
  | nil => cases h; exact h'
  | cons ev evs ih =>
    rw [List.cons_append, converse]
    rw [converse] at h
    split at h
    · obtain ⟨⟨qs, t'⟩, hrest, heq⟩ := Option.map_eq_some_iff.mp h
      cases heq
      rw [ih hrest]; rfl
    · cases h
    · cases h

/-- R42, R43: an operation keeps the invariants. -/
theorem exec_keeps_inv {i : Instr} {s t : State} (hi : i.wellFormed = true) (h : Inv s) (hrun : exec i s = .next t) :
    Inv t :=
  (serve_cases ((serve_issue hi s).trans hrun)).keeps_inv h

/-! ### The stream between two commands -/

/-- A writer over capacity `c` that has written exactly `bits`, with no event pending. -/
structure Writing (c : Word) (bits : List Bool) (s : State) : Prop where
  ready   : WriterReady s
  cap     : s.cap = c
  written : s.written = bits
  idle    : s.port = []

/-- A reader whose next bits are `bits`, with no event pending. -/
structure Reading (bits : List Bool) (s : State) : Prop where
  ready : ReaderReady s
  next  : bits <+: s.unread
  idle  : s.port = []

/-- R41: a writer's position is the length of its stream. -/
theorem Writing.writePos {c : Word} {bits : List Bool} {s : State} (h : Writing c bits s) :
    s.writePos = bits.length := by
  rw [← h.written, s.length_written]

/-- R316: BIND of a writer starts an empty stream, whatever went before. -/
theorem converse_bind_writer {s : State} {c : Word} (h : Inv s) (hc : c.toNat ≤ s.bufWords.val) :
    ∃ t, converse [issue (.bind .writer c)] s = some ([okReply 0 []], t) ∧ Writing c [] t :=
  ⟨_, converse_issue rfl (exec_bind_within .writer hc),
    ⟨(h.withPort [] s.reply).startBinding .writer hc, rfl, rfl⟩, rfl, State.written_startBinding _ _ c, rfl⟩

/-- R146: a command that appends its bits extends the stream by them. -/
theorem Writing.converse_appending {c : Word} {bits more : List Bool} {s : State} {i : Instr} (h : Writing c bits s)
    (hi : i.wellFormed = true) (hrun : CompletesAppending (exec i s) s more) :
    ∃ t, converse [issue i] s = some ([okReply 0 []], t) ∧ Writing c (bits ++ more) t := by
  obtain ⟨u, t, happ, rfl, hexec⟩ := hrun
  refine ⟨_, converse_issue hi (by rw [← h.idle]; exact hexec),
    ⟨exec_keeps_inv hi h.ready.inv hexec, happ.phase.trans h.ready.phase, happ.dir.trans h.ready.dir⟩,
    happ.cap.trans h.cap, ?_, happ.port.trans h.idle⟩
  rw [← h.written]; exact happ.stream

/-- R175: a command that takes its bits leaves the ones after them next to read. -/
theorem Reading.converse_consuming {bits more : List Bool} {s : State} {i : Instr} {result : Word} {bout : List Byte}
    (h : Reading (bits ++ more) s) (hi : i.wellFormed = true)
    (hrun : CompletesConsuming (exec i s) s bits result bout) :
    ∃ t, converse [issue i] s = some ([okReply result bout], t) ∧ Reading more t := by
  obtain ⟨u, t, hcon, rfl, hexec⟩ := hrun
  refine ⟨_, converse_issue hi (by rw [← h.idle]; exact hexec),
    ⟨exec_keeps_inv hi h.ready.inv hexec, hcon.phase.trans h.ready.phase, hcon.dir.trans h.ready.dir⟩,
    ?_, hcon.port.trans h.idle⟩
  have hnext := h.next
  rw [hcon.stream] at hnext
  exact (List.prefix_append_right_inj bits).mp hnext

/-- R72, R143: the flushed stream is in the first bits of the buffer that a reader of the same capacity may read. -/
theorem written_prefix_of_bufBit {s t : State} {n : Nat} (hn : s.writePos ≤ n)
    (h : ∀ k < s.writePos, t.bufBit k = s.writtenBit k) : s.written <+: (List.range n).map t.bufBit := by
  have htake : ((List.range n).map t.bufBit).take s.writePos = s.written := by
    rw [← List.map_take, List.take_range, Nat.min_eq_left hn, State.written]
    exact List.map_congr_left fun k hk => h k (List.mem_range.mp hk)
  exact htake ▸ List.take_prefix _ _

/-- R143, R316, R384: after the terminal flush, BIND of a reader over the same capacity has the written stream next to
read. -/
theorem Writing.converse_flush_bind {c : Word} {bits : List Bool} {s : State} (h : Writing c bits s) :
    ∃ t, converse [issue .wflush, issue (.bind .reader c)] s = some ([okReply 0 [], okReply 0 []], t) ∧
      Reading bits t := by
  obtain ⟨t, hflush, heq, hcursor, hbits, -⟩ := wflushCommitsThePartialWord s h.ready
  have hinv : Inv t := exec_keeps_inv rfl h.ready.inv hflush
  have hidle : t.port = [] := by rw [heq]; exact h.idle
  have hreply : t.reply = okReply 0 [] := by rw [heq]
  have hcap : c.toNat ≤ t.bufWords.val := by rw [heq, ← h.cap]; exact h.ready.inv.cap_le
  obtain ⟨u, hbind, hu, -, hreader⟩ := bindStartsABinding .reader c t hcap
  obtain ⟨-, hunread⟩ := hreader rfl
  have hconv := converse_append
    (converse_issue rfl (show exec .wflush { s with port := [] } = .next t by rw [← h.idle]; exact hflush))
    (converse_issue rfl (show exec (.bind .reader c) { t with port := [] } = .next u by rw [← hidle]; exact hbind))
  have hureply : u.reply = okReply 0 [] := by rw [hu]
  rw [hreply, hureply] at hconv
  refine ⟨u, hconv, ⟨exec_keeps_inv rfl hinv hbind, by rw [hu], by rw [hu]⟩, ?_, by rw [hu]; exact hidle⟩
  rw [hunread, ← h.written]
  refine written_prefix_of_bufBit (by rw [← h.cap]; exact h.ready.pos_le) fun k hk => ?_
  rw [hbits k (by omega), if_pos hk]

/-! ### Records of fields -/

/-- The bits of a record of fields: each field's, in order (R146). -/
def recordBits (fields : List (Width × Word)) : List Bool := fields.flatMap fun f => fieldBits f.2 f.1.toNat

/-- R171, R175: RBITS over a field that is next to read answers the field's value, cut to its width. -/
theorem Reading.rbits_completes {v : Word} {w : Width} {more : List Bool} {s : State}
    (h : Reading (fieldBits v w.toNat ++ more) s) (hw : w.toNat ≤ 32) :
    CompletesConsuming (exec (.rbits w) s) s (fieldBits v w.toNat) (v &&& mask w.toNat) [] := by
  have hlt : (v &&& mask w.toNat).toNat < 2 ^ w.toNat :=
    lt_two_pow_of_getLsbD fun j hj => by simp [getLsbD_mask hw, hj]
  have hnext : s.unread.take w.toNat = fieldBits v w.toNat := by
    obtain ⟨rest, hrest⟩ := h.next
    rw [← hrest, List.append_assoc, List.take_left' (length_fieldBits v _)]
  rw [← fieldBits_mask v hw] at hnext ⊢
  obtain ⟨t, hrun, htook⟩ := readBits_of_take h.ready hw hlt hnext
  exact h.ready.completes rfl htook (by rw [body, hrun, Res.bind_ok])

/-- R146: WBITS of one field after another appends the record, if it fits. -/
theorem Writing.converse_wbits {c : Word} {fields : List (Width × Word)} (hw : ∀ f ∈ fields, f.1.toNat ≤ 32)
    {bits : List Bool} {s : State} (h : Writing c bits s)
    (hroom : bits.length + (fields.map fun f => f.1.toNat).sum ≤ 32 * c.toNat) :
    ∃ t, converse (fields.map fun f => issue (.wbits f.1 f.2)) s = some (fields.map fun _ => okReply 0 [], t) ∧
      Writing c (bits ++ recordBits fields) t := by
  induction fields generalizing bits s with
  | nil => exact ⟨s, rfl, by rw [recordBits, List.flatMap_nil, List.append_nil]; exact h⟩
  | cons f fields ih =>
    obtain ⟨hwf, hws⟩ := List.forall_mem_cons.mp hw
    rw [List.map_cons, List.sum_cons] at hroom
    have hfits : s.writePos + f.1.toNat ≤ 32 * s.cap.toNat := by rw [h.writePos, h.cap]; omega
    obtain ⟨t, hone, ht⟩ := h.converse_appending rfl (wbitsAppendsItsField s f.1 f.2 h.ready hwf hfits)
    obtain ⟨u, hrest, hu⟩ := ih hws ht (by rw [List.length_append, length_fieldBits]; omega)
    refine ⟨u, converse_append hone hrest, ?_⟩
    rw [List.append_assoc] at hu
    exact hu

/-- R175: RBITS of the same widths in the same order answers the record's values, each cut to its width. -/
theorem Reading.converse_rbits {fields : List (Width × Word)} (hw : ∀ f ∈ fields, f.1.toNat ≤ 32)
    {s : State} (h : Reading (recordBits fields) s) :
    ∃ t, converse (fields.map fun f => issue (.rbits f.1)) s =
      some (fields.map fun f => okReply (f.2 &&& mask f.1.toNat) [], t) := by
  induction fields generalizing s with
  | nil => exact ⟨s, rfl⟩
  | cons f fields ih =>
    obtain ⟨hwf, hws⟩ := List.forall_mem_cons.mp hw
    obtain ⟨t, hone, ht⟩ := h.converse_consuming rfl (h.rbits_completes hwf)
    obtain ⟨u, hrest⟩ := ih hws ht
    exact ⟨u, converse_append hone hrest⟩

/-- Settles O56: the record is appended to an empty stream, the flush and BIND make it what is next to read, and the
reads take it field by field. -/
theorem fieldsReadBackAsWritten : Obligations.FieldsReadBackAsWritten := by
  intro s c fields hinv hc hw hroom
  obtain ⟨t₀, hbind, h₀⟩ := converse_bind_writer hinv hc
  obtain ⟨t₁, hwrite, h₁⟩ := h₀.converse_wbits hw (by simpa using hroom)
  obtain ⟨t₂, hflush, h₂⟩ := h₁.converse_flush_bind
  obtain ⟨t₃, hread⟩ := h₂.converse_rbits hw
  exact ⟨t₃, converse_append (converse_append (converse_append hbind hwrite) hflush) hread⟩

end Sys2Proof.Machine
end

section
/-! PROOFS. Round trips of an integer and of a string after a field of any width (spec/43_rangecodec.md R208,
spec/45_byteblock.md R279), and the flush of a reader (spec/42_bitreader.md R173). Both round trips are one conversation:
a field, then one command of the writer whose bits one command of the reader takes again. The pad inside a string
depends on where it starts, so the reader's position is followed beside its stream: BIND starts it at 0, as it does the
writer's, and every read moves it by its bits. -/

namespace Sys2Proof.Machine

/-- Settles O21: RFLUSH passes the gates, and its body is an answer. -/
theorem rflushChangesNothing : Obligations.RflushChangesNothing := by
  intro s hp hd
  rw [exec_admitted rfl hp hd, body, finish_ok]; rfl

/-! ### The reader's position -/

/-- A reader at stream position `n` whose next bits are `bits`, with no event pending. -/
structure ReadingAt (n : Nat) (bits : List Bool) (s : State) : Prop extends Reading bits s where
  pos : s.pos = n

/-- The next bits to read, as the head of the unread stream. -/
theorem Reading.take_unread {bits : List Bool} {s : State} (h : Reading bits s) :
    s.unread.take bits.length = bits :=
  (List.prefix_iff_eq_take.mp h.next).symm

/-- R270: the pad of a reader is that of its position. -/
theorem ReadingAt.padBits {n : Nat} {bits : List Bool} {s : State} (h : ReadingAt n bits s) :
    s.padBits = (8 - n % 8) % 8 := by
  rw [State.padBits, h.pos, Int.toNat_natCast]

/-- R270: the pad of a writer is that of the length of its stream. -/
theorem Writing.padBits {c : Word} {bits : List Bool} {s : State} (h : Writing c bits s) :
    s.padBits = (8 - bits.length % 8) % 8 := by
  rw [h.ready.pad_eq, h.writePos]

/-- R311: the last event of a conversation is served in some state, and leaves the state at the end. -/
theorem serve_last_of_converse {evs : List HostEvent} {ev : HostEvent} {s t : State} {rs : List (Option Reply)}
    (h : converse (evs ++ [ev]) s = some (rs, t)) : ∃ u, serve ev u = .next t := by
  induction evs generalizing s rs with
  | nil =>
    rw [List.nil_append, converse] at h
    split at h
    · next t' hstep =>
      cases h
      exact ⟨_, (step_event _ rfl).symm.trans hstep⟩
    · cases h
    · cases h
  | cons e evs ih =>
    rw [List.cons_append, converse] at h
    split at h
    · obtain ⟨⟨qs, t'⟩, hrest, heq⟩ := Option.map_eq_some_iff.mp h
      cases heq
      exact ih hrest
    · cases h
    · cases h

/-- R316: BIND of a reader that leaves it ACTIVE has put it at position 0. -/
theorem pos_of_bind_reader {c : Word} {s t : State} (h : exec (.bind .reader c) s = .next t) (hp : t.phase = .active) :
    t.pos = 0 := by
  rcases Nat.lt_or_ge s.bufWords.val c.toNat with hc | hc
  · rw [exec_bind_over .reader hc] at h; cases h; cases hp
  · rw [exec_bind_within .reader hc] at h; cases h; rfl

/-- R143, R316, R384: the terminal flush and BIND of a reader put the written stream next to read, from position 0. -/
theorem Writing.converse_rewind {c : Word} {bits : List Bool} {s : State} (h : Writing c bits s) :
    ∃ t, converse [issue .wflush, issue (.bind .reader c)] s = some ([okReply 0 [], okReply 0 []], t) ∧
      ReadingAt 0 bits t := by
  obtain ⟨t, hconv, ht⟩ := h.converse_flush_bind
  obtain ⟨u, hserve⟩ := serve_last_of_converse (evs := [issue .wflush]) hconv
  rw [serve_issue rfl] at hserve
  exact ⟨t, hconv, ht, pos_of_bind_reader hserve ht.ready.phase⟩

/-- R41, R175: a command that takes its bits moves the position by their number. -/
theorem ReadingAt.converse_consuming {n : Nat} {bits more : List Bool} {s : State} {i : Instr} {result : Word}
    {bout : List Byte} (h : ReadingAt n (bits ++ more) s) (hi : i.wellFormed = true)
    (hrun : CompletesConsuming (exec i s) s bits result bout) :
    ∃ t, converse [issue i] s = some ([okReply result bout], t) ∧ ReadingAt (n + bits.length) more t := by
  obtain ⟨t, hconv, ht⟩ := h.toReading.converse_consuming hi hrun
  obtain ⟨u, t', hcon, hanswered, hexec⟩ := hrun
  have hconv' := converse_issue hi (s := s) (by rw [← h.idle]; exact hexec)
  obtain rfl : t' = t := congrArg Prod.snd (Option.some.inj (hconv'.symm.trans hconv))
  refine ⟨t', hconv, ht, ?_⟩
  rw [show t'.pos = u.pos by rw [hanswered]; rfl, hcon.pos, h.pos, Nat.cast_add]

/-! ### One command after a field -/

/-- R146, R175, R384: what one command writes after a field of any width, one command reads back after the field, if the
one appends its bits after the field's, and the other takes them when it stands before them at the same position. -/
theorem converse_field_then {s : State} {c x : Word} {w : Width} {wr rd : Instr} {more : List Bool} {result : Word}
    {bout : List Byte} (hinv : Inv s) (hc : c.toNat ≤ s.bufWords.val) (hw : w.toNat ≤ 32)
    (hroom : w.toNat ≤ 32 * c.toNat) (hwr : wr.wellFormed = true) (hrd : rd.wellFormed = true)
    (hwrite : ∀ t, Writing c (fieldBits x w.toNat) t → CompletesAppending (exec wr t) t more)
    (hread : ∀ t, ReadingAt w.toNat more t → CompletesConsuming (exec rd t) t more result bout) :
    ∃ t, converse [issue (.bind .writer c), issue (.wbits w x), issue wr, issue .wflush, issue (.bind .reader c),
        issue (.rbits w), issue rd] s =
      some ([okReply 0 [], okReply 0 [], okReply 0 [], okReply 0 [], okReply 0 [], okReply (x &&& mask w.toNat) [],
        okReply result bout], t) := by
  obtain ⟨t₀, hbind, h₀⟩ := converse_bind_writer hinv hc
  have hfits : t₀.writePos + w.toNat ≤ 32 * t₀.cap.toNat := by rw [h₀.writePos, h₀.cap, List.length_nil]; omega
  obtain ⟨t₁, hfield, (h₁ : Writing c (fieldBits x w.toNat) t₁)⟩ :=
    h₀.converse_appending rfl (wbitsAppendsItsField t₀ w x h₀.ready hw hfits)
  obtain ⟨t₂, hcode, h₂⟩ := h₁.converse_appending hwr (hwrite t₁ h₁)
  obtain ⟨t₃, hflush, h₃⟩ := h₂.converse_rewind
  obtain ⟨t₄, hrbits, h₄⟩ := h₃.converse_consuming rfl (h₃.rbits_completes hw)
  rw [Nat.zero_add, length_fieldBits] at h₄
  have h₄' : ReadingAt w.toNat (more ++ []) t₄ := by rwa [List.append_nil]
  obtain ⟨t₅, hlast, -⟩ := h₄'.converse_consuming hrd (hread t₄ h₄)
  exact ⟨t₅, converse_append hbind <| converse_append hfield <| converse_append hcode <| converse_append hflush <|
    converse_append hrbits hlast⟩

/-! ### Integers -/

/-- R203: the code of a value above the lower bound of its range. -/
def intCode (sg : Sign) (v lo : Word) : Word := pat32 (intOperand sg v - intOperand sg lo)

/-- The code of a value that is not below its lower bound is their difference, with no wrap. -/
theorem toNat_intCode {sg : Sign} {v lo : Word} (h : intOperand sg lo ≤ intOperand sg v) :
    ((intCode sg v lo).toNat : Int) = intOperand sg v - intOperand sg lo :=
  pat32_toNat (by omega) (intOperand_bounds sg v lo)

/-- R200: the code of a value in its range fits the width of the range. -/
theorem intCode_lt {sg : Sign} {v lo hi : Word} (hlo : intOperand sg lo ≤ intOperand sg v)
    (hhi : intOperand sg v ≤ intOperand sg hi) :
    (intCode sg v lo).toNat < 2 ^ bitsForRange (intOperand sg lo) (intOperand sg hi) := by
  have hwidth := bitsForRange_spec (hlo.trans hhi)
  have hcode := toNat_intCode hlo
  zify
  omega

/-- R203: the bits of an integer: its code in the width of its range. -/
def intBits (sg : Sign) (v lo hi : Word) : List Bool :=
  fieldBits (intCode sg v lo) (bitsForRange (intOperand sg lo) (intOperand sg hi))

theorem length_intBits (sg : Sign) (v lo hi : Word) :
    (intBits sg v lo hi).length = bitsForRange (intOperand sg lo) (intOperand sg hi) :=
  length_fieldBits _ _

/-- R205: WINT of a value in its range appends its code, if it fits. -/
theorem WriterReady.wint_completes {s : State} {sg : Sign} {v lo hi : Word} (h : WriterReady s)
    (hlo : intOperand sg lo ≤ intOperand sg v) (hhi : intOperand sg v ≤ intOperand sg hi)
    (hroom : s.writePos + bitsForRange (intOperand sg lo) (intOperand sg hi) ≤ 32 * s.cap.toNat) :
    CompletesAppending (Machine.exec (.wint sg v lo hi) s) s (intBits sg v lo hi) := by
  rcases encodeInt_cases h (v := intOperand sg v) (intOperand_bounds sg hi lo) with
    ⟨hempty, -⟩ | ⟨-, hout, -⟩ | ⟨-, -, hover, -⟩ | ⟨-, -, -, t, hrun, hwrote⟩
  · omega
  · omega
  · omega
  · exact h.completes rfl hwrote (by rw [body, hrun, Res.bind_ok])

/-- R206: RINT over the code of a value in its range takes it and answers the value. -/
theorem ReaderReady.rint_completes {s : State} {sg : Sign} {v lo hi : Word} (h : ReaderReady s)
    (hlo : intOperand sg lo ≤ intOperand sg v) (hhi : intOperand sg v ≤ intOperand sg hi)
    (hnext : s.unread.take (intBits sg v lo hi).length = intBits sg v lo hi) :
    CompletesConsuming (Machine.exec (.rint sg lo hi) s) s (intBits sg v lo hi) v [] := by
  rw [length_intBits] at hnext
  obtain ⟨t, htook, hrun⟩ :=
    decodeInt_of_take h (intOperand_bounds sg hi lo) (hlo.trans hhi) (intCode_lt hlo hhi) hnext
  rw [toNat_intCode hlo, Int.sub_add_cancel, if_neg (not_lt.mpr hhi)] at hrun
  exact h.completes rfl htook (by rw [body, hrun, Res.bind_ok, pat32_intOperand])

/-- Settles O57: WINT appends the code of the value, and RINT, standing before that code, answers the value. -/
theorem integersReadBackAsWritten : Obligations.IntegersReadBackAsWritten := by
  intro s c x w sg v lo hi hinv hc hw hlo hhi hroom
  refine converse_field_then (more := intBits sg v lo hi) hinv hc hw (by omega) rfl rfl (fun t ht => ?_) fun t ht => ?_
  · exact ht.ready.wint_completes hlo hhi (by rw [ht.writePos, ht.cap, length_fieldBits]; exact hroom)
  · exact ht.ready.rint_completes hlo hhi ht.take_unread

/-! ### Strings -/

/-- R277: the bits of a string behind a pad of `pad` bits: its length, the pad, and its bytes. -/
def stringBits (len : Word) (pad : Nat) (bs : List Byte) : List Bool :=
  fieldBits len 32 ++ zeroBits pad ++ bs.flatMap byteBits

theorem length_stringBits (len : Word) (pad : Nat) (bs : List Byte) :
    (stringBits len pad bs).length = 32 + pad + 8 * bs.length := by
  rw [stringBits, List.length_append, List.length_append, length_fieldBits, length_zeroBits, length_flatMap_byteBits]

/-- R277: WSTR of a string that fits appends its length, the pad at the current position, and its bytes. -/
theorem WriterReady.wstr_completes {s : State} {len : Word} {bs : List Byte} (h : WriterReady s)
    (hroom : s.writePos + 32 + s.padBits + 8 * bs.length ≤ 32 * s.cap.toNat) :
    CompletesAppending (Machine.exec (.wstr len bs) s) s (stringBits len s.padBits bs) := by
  rcases encodeLength_cases h len with ⟨hover, -⟩ | ⟨-, t, hlen, hwlen⟩
  · omega
  obtain ⟨u, hpad, hwpad⟩ := alignWrite_pads hwlen.ready
  rw [hwlen.padBits_word h (length_fieldBits len 32)] at hwpad
  have hw := hwlen.trans h hwpad
  have hpos : u.writePos = s.writePos + 32 + s.padBits := by
    rw [hw.app.writePos, List.length_append, length_fieldBits, length_zeroBits, Nat.add_assoc]
  rcases writeBlock_cases bs hw.ready with ⟨hover, -⟩ | ⟨-, z, hblock, hwblock⟩
  · rw [hpos, hw.app.cap] at hover; omega
  · exact h.completes rfl (hw.trans h hwblock) (by
      rw [body, hlen, Res.bind_ok, hpad, Res.bind_ok, hblock, Res.bind_ok])

/-- R278: RSTR over a string shorter than its destination takes it, answers its length and delivers its bytes and the
terminator. -/
theorem ReaderReady.rstr_completes {s : State} {dcap len : Word} {bs : List Byte} (h : ReaderReady s)
    (hlen : bs.length = len.toNat) (hdcap : len.toNat < dcap.toNat)
    (hnext : s.unread.take (stringBits len s.padBits bs).length = stringBits len s.padBits bs) :
    CompletesConsuming (Machine.exec (.rstr dcap) s) s (stringBits len s.padBits bs) len (bs ++ [0x00]) := by
  rw [length_stringBits, hlen] at hnext
  obtain ⟨hhead, hbytes⟩ := take_add_eq_append hnext (by rw [List.length_append, length_fieldBits, length_zeroBits])
  obtain ⟨hlength, hzero⟩ := take_add_eq_append hhead (length_fieldBits len 32)
  obtain ⟨t, htlen, hrun⟩ := decodeLength_of_take h hlength
  have hpadt : t.padBits = s.padBits := htlen.padBits_word h (length_fieldBits len 32)
  have hunread : t.unread = s.unread.drop 32 := by rw [htlen.unread_eq, length_fieldBits]
  obtain ⟨u, htpad, hpad⟩ := alignRead_cases htlen.ready
  rw [hpadt, hunread, hzero] at htpad hpad
  rw [if_pos rfl] at hpad
  have htook := htlen.trans htpad
  have hrest : u.unread = s.unread.drop (32 + s.padBits) := by
    rw [htook.unread_eq, List.length_append, length_fieldBits, length_zeroBits]
  obtain ⟨z, hblock, htblock⟩ := readBlock_of_take htook.ready hlen (by rw [hrest]; exact hbytes)
  have hlen32 : pat32 (len.toNat : Int) = len := pat32_intOperand .unsigned len
  exact h.completes rfl (htook.trans htblock) (by
    rw [body, hrun, Res.bind_ok, if_neg (by omega), hpad, Res.bind_ok, Int.toNat_natCast, hblock, Res.bind_ok, hlen32])

/-- Settles O58: WSTR and RSTR stand at the same position after the field, so the pad that WSTR appends is the one that
RSTR skips. -/
theorem stringsReadBackAsWritten : Obligations.StringsReadBackAsWritten := by
  intro s c x w len dcap bs hinv hc hw hlen hdcap hroom
  refine converse_field_then (more := stringBits len ((8 - w.toNat % 8) % 8) bs) hinv hc hw (by omega)
    (decide_eq_true hlen) rfl (fun t ht => ?_) fun t ht => ?_
  · have hpad := ht.padBits
    rw [length_fieldBits] at hpad
    rw [← hpad]
    refine ht.ready.wstr_completes ?_
    rw [ht.writePos, ht.cap, hpad, length_fieldBits, hlen]
    exact hroom
  · rw [← ht.padBits] at ht ⊢
    exact ht.ready.rstr_completes hlen hdcap ht.take_unread

end Sys2Proof.Machine
end

section
/-! PROOFS. The integer commands (spec/43_rangecodec.md): the width of a range, the calculator BFR, and WINT and RINT
with their failures. A width is known by what it bounds (`bitsForRange_le_iff`), and an operand by the pattern that
stands for its value (`intOperand_pat32`); ENCINT and DECINT then give every outcome. -/

namespace Sys2Proof.Machine

/-! ### The width of a range -/

/-- R207: the widths that hold the largest code of a range are those from the range's width on. -/
theorem bitsForRange_le_iff {lo hi : Int} (h : lo ≤ hi) {n : Nat} : bitsForRange lo hi ≤ n ↔ hi - lo < 2 ^ n :=
  ⟨fun hn => (bitsForRange_spec h).trans_le (pow_le_pow_right₀ (by decide) hn), bitsForRange_le_of_lt⟩

/-- R200: a range of one value has an empty code. -/
theorem bitsForRange_self (x : Int) : bitsForRange x x = 0 :=
  Nat.le_zero.mp ((bitsForRange_le_iff le_rfl).mpr (by simp))

/-- R200: `n + 1` bits are the width of a range whose largest code has its highest set bit at `n`. -/
theorem bitsForRange_eq_succ {lo hi : Int} {n : Nat} (hlow : 2 ^ n ≤ hi - lo) (hhigh : hi - lo < 2 ^ (n + 1)) :
    bitsForRange lo hi = n + 1 := by
  have hpow : (0 : Int) < 2 ^ n := by positivity
  have hle : lo ≤ hi := by omega
  refine le_antisymm ((bitsForRange_le_iff hle).mpr hhigh) (Nat.lt_of_not_le fun hn => ?_)
  exact hlow.not_gt ((bitsForRange_le_iff hle).mp hn)

/-- R207: the full range of `n` bits has width `n`. -/
theorem bitsForRange_two_pow_sub_one (n : Nat) : bitsForRange 0 (2 ^ n - 1) = n := by
  cases n with
  | zero => exact bitsForRange_self 0
  | succ n =>
    have hpow : (0 : Int) < 2 ^ n := by positivity
    exact bitsForRange_eq_succ (by rw [pow_succ]; omega) (by omega)

/-- R207: one value more than `n` bits hold takes one bit more. -/
theorem bitsForRange_two_pow (n : Nat) : bitsForRange 0 (2 ^ n) = n + 1 := by
  have hpow : (0 : Int) < 2 ^ n := by positivity
  exact bitsForRange_eq_succ (by omega) (by rw [pow_succ]; omega)

/-- Settles O22: the width of a range is the least of those that hold its largest code. -/
theorem rangeWidthIsSmallest : Obligations.RangeWidthIsSmallest := by
  refine ⟨fun lo hi hle hlt => ⟨bitsForRange_le_of_lt hlt, ?_, fun n hn => ?_⟩, bitsForRange_self,
    fun n _ => bitsForRange_two_pow_sub_one n, bitsForRange_two_pow, ?_⟩
  · exact Int.le_sub_one_of_lt (bitsForRange_spec hle)
  · exact (bitsForRange_le_iff hle).mpr (Int.lt_of_le_sub_one hn)
  · decide

/-! ### WINT and RINT -/

/-- Settles O24: the code is the one that `wint_completes` appends. -/
theorem wintAppendsItsCode : Obligations.WintAppendsItsCode := fun _ sg v lo _ h hlo hhi hroom =>
  ⟨intCode sg v lo, toNat_intCode hlo, h.wint_completes hlo hhi hroom⟩

/-- R201: an integer between two operands is the operand of its pattern. -/
theorem intOperand_pat32 {sg : Sign} {x y : Word} {z : Int} (hx : intOperand sg x ≤ z) (hy : z ≤ intOperand sg y) :
    intOperand sg (pat32 z) = z := by
  have hlt := y.isLt
  cases sg with
  | unsigned =>
    simp only [intOperand] at hx hy ⊢
    exact pat32_toNat (by omega) (by omega)
  | signed =>
    simp only [intOperand, pat32] at hx hy ⊢
    have := BitVec.le_toInt x
    have := BitVec.toInt_lt (x := y)
    exact BitVec.toInt_ofInt_eq_self (by decide) (by omega) (by omega)

/-- R204: a code is the code of the value that it stands for. -/
theorem intCode_eq {sg : Sign} {v lo code : Word} (h : intOperand sg v = intOperand sg lo + code.toNat) :
    intCode sg v lo = code := by
  rw [intCode, h, add_sub_cancel_left]
  exact pat32_intOperand .unsigned code

/-- Settles O25: the value is an operand since it lies in the range, and the code next to read is its code. -/
theorem rintTakesItsCode : Obligations.RintTakesItsCode := by
  intro s sg lo hi code h hle n hcode hnext hhi
  have hlo : intOperand sg lo ≤ intOperand sg lo + code.toNat := by omega
  have hv := intOperand_pat32 hlo hhi
  have hbits : intBits sg (pat32 (intOperand sg lo + code.toNat)) lo hi = fieldBits code n := by
    rw [intBits, intCode_eq hv]
  refine ⟨_, hv, hbits ▸ h.rint_completes (by rwa [hv]) (by rwa [hv]) ?_⟩
  rw [hbits, length_fieldBits, hnext]

/-- R203, R205: what ENCINT raises, WINT fails with, and nothing was appended. -/
theorem WriterReady.wint_fails {s : State} {sg : Sign} {v lo hi : Word} {e : Status} (h : WriterReady s)
    (hrun : encodeInt (intOperand sg v) (intOperand sg lo) (intOperand sg hi) s = .raised e s) :
    FailsFrom (Machine.exec (.wint sg v lo hi) s) s e :=
  h.fails rfl h (by rw [body, hrun, Res.bind_raised])

/-- R204, R206: what DECINT raises, RINT fails with, in the state that DECINT left. -/
theorem ReaderReady.rint_fails {s u : State} {sg : Sign} {lo hi : Word} {e : Status} (h : ReaderReady s)
    (hu : ReaderReady u) (hrun : decodeInt (intOperand sg lo) (intOperand sg hi) s = .raised e u) :
    FailsFrom (Machine.exec (.rint sg lo hi) s) u e :=
  h.fails rfl hu (by rw [body, hrun, Res.bind_raised])

/-- R205, R346: the failures of WINT in their order. -/
theorem WriterReady.wint_failures {s : State} (h : WriterReady s) (sg : Sign) (v lo hi : Word) :
    (intOperand sg hi < intOperand sg lo → FailsFrom (Machine.exec (.wint sg v lo hi) s) s .invalidRange) ∧
    (intOperand sg lo ≤ intOperand sg hi →
      intOperand sg v < intOperand sg lo ∨ intOperand sg hi < intOperand sg v →
      FailsFrom (Machine.exec (.wint sg v lo hi) s) s .outOfRange) ∧
    (intOperand sg lo ≤ intOperand sg v → intOperand sg v ≤ intOperand sg hi →
      32 * s.cap.toNat < s.writePos + bitsForRange (intOperand sg lo) (intOperand sg hi) →
      FailsFrom (Machine.exec (.wint sg v lo hi) s) s .bufferOverrun) := by
  rcases encodeInt_cases h (v := intOperand sg v) (intOperand_bounds sg hi lo) with
    ⟨hempty, hrun⟩ | ⟨hle, hout, hrun⟩ | ⟨hlo, hhi, hover, hrun⟩ | ⟨hlo, hhi, hroom, -⟩
  · exact ⟨fun _ => h.wint_fails hrun, fun _ _ => by omega, fun _ _ _ => by omega⟩
  · exact ⟨fun _ => by omega, fun _ _ => h.wint_fails hrun, fun _ _ _ => by omega⟩
  · exact ⟨fun _ => by omega, fun _ _ => by omega, fun _ _ _ => h.wint_fails hrun⟩
  · exact ⟨fun _ => by omega, fun _ _ => by omega, fun _ _ _ => by omega⟩

/-- R206: RINT of an empty range, and RINT past the end of the stream, take nothing. -/
theorem ReaderReady.rint_failures {s : State} (h : ReaderReady s) (sg : Sign) (lo hi : Word) :
    (intOperand sg hi < intOperand sg lo → FailsFrom (Machine.exec (.rint sg lo hi) s) s .invalidRange) ∧
    (intOperand sg lo ≤ intOperand sg hi → s.budget.toNat < bitsForRange (intOperand sg lo) (intOperand sg hi) →
      FailsFrom (Machine.exec (.rint sg lo hi) s) s .budgetExhausted) := by
  rcases decodeInt_cases h (intOperand_bounds sg hi lo) with
    ⟨hempty, hrun⟩ | ⟨hle, hend, hrun⟩ | ⟨hle, hbudget, -⟩
  · exact ⟨fun _ => h.rint_fails h hrun, fun _ _ => by omega⟩
  · exact ⟨fun _ => by omega, fun _ _ => h.rint_fails h hrun⟩
  · exact ⟨fun _ => by omega, fun _ _ => by omega⟩

/-- R204, R343: RINT over a code beyond the range fails with the code consumed. -/
theorem ReaderReady.rint_outOfRange {s : State} {sg : Sign} {lo hi code : Word} (h : ReaderReady s)
    (hle : intOperand sg lo ≤ intOperand sg hi)
    (hcode : code.toNat < 2 ^ bitsForRange (intOperand sg lo) (intOperand sg hi))
    (hnext : s.unread.take (bitsForRange (intOperand sg lo) (intOperand sg hi)) =
      fieldBits code (bitsForRange (intOperand sg lo) (intOperand sg hi)))
    (hout : intOperand sg hi < intOperand sg lo + code.toNat) :
    ∃ u, Consumed s u (fieldBits code (bitsForRange (intOperand sg lo) (intOperand sg hi))) ∧
      FailsFrom (Machine.exec (.rint sg lo hi) s) u .outOfRange := by
  obtain ⟨u, htook, hrun⟩ := decodeInt_of_take h (intOperand_bounds sg hi lo) hle hcode hnext
  rw [if_pos (by omega)] at hrun
  exact ⟨u, htook.con, h.rint_fails htook.ready hrun⟩

/-- Settles O26: the failures of WINT, and those of RINT before and after its code is taken. -/
theorem integerCommandsFail : Obligations.IntegerCommandsFail := by
  intro s sg v lo hi code n
  refine ⟨fun h => h.wint_failures sg v lo hi, fun h => ?_⟩
  obtain ⟨hrange, hbudget⟩ := h.rint_failures sg lo hi
  exact ⟨hrange, hbudget, h.rint_outOfRange⟩

/-! ### BFR -/

/-- R201: a signed operand as the rule reads it, from the number of its pattern. -/
theorem intOperand_signed (x : Word) :
    intOperand .signed x = if x.toNat < 2 ^ 31 then (x.toNat : Int) else (x.toNat : Int) - 2 ^ 32 := by
  rw [intOperand, BitVec.toInt_eq_toNat_cond]
  split <;> split <;> omega

/-- R202: BFR answers the width of its range, in any state. -/
theorem exec_bfr_answers (s : State) {sg : Sign} {lo hi : Word} (h : intOperand sg lo ≤ intOperand sg hi) :
    exec (.bfr sg lo hi) s =
      .next (s.answer .ok (BitVec.ofNat 32 (bitsForRange (intOperand sg lo) (intOperand sg hi))) []) :=
  if_neg (not_lt.mpr h)

/-- R202, R344: BFR refuses an empty range, in any state. -/
theorem exec_bfr_refuses (s : State) {sg : Sign} {lo hi : Word} (h : intOperand sg hi < intOperand sg lo) :
    exec (.bfr sg lo hi) s = .next (s.respond .invalidRange) :=
  if_pos h

/-- Settles O23: no gate stands before BFR, and its operands are read as R201 says. -/
theorem bfrCalculatesInEveryPhase : Obligations.BfrCalculatesInEveryPhase := by
  intro s sg lo hi int
  have hint : int = intOperand sg := by
    funext x
    cases sg with
    | unsigned => rfl
    | signed => exact (intOperand_signed x).symm
  rw [hint]
  exact ⟨exec_bfr_answers s, exec_bfr_refuses s⟩

end Sys2Proof.Machine
end

section
/-! PROOFS. The FloatCodec commands (spec/44_floatcodec.md): the passthrough of 32 bits, the numbers of a quantization
spec, the quantizer's ends, and the quantized commands with their failures. Rounding is monotone on patterns without
sign, so what lies beyond an end of the range has a normalized value at or beyond 0 or 1, and the clamp takes it there;
the step count is exact in binary32, so 1 scales to it and rounds to no less. -/

namespace Sys2Proof.Machine

/-! ### Passthrough -/

/-- Settles O27: the body of either command is one WB or one RB of 32 bits. -/
theorem floatPassthroughIsVerbatim : Obligations.FloatPassthroughIsVerbatim := by
  intro s x
  refine ⟨fun h hroom => ?_, fun h hnext => ?_⟩
  · obtain ⟨t, hrun, hwrote⟩ := writeBits_appends h x le_rfl hroom
    exact h.completes rfl hwrote (by rw [body, hrun, Res.bind_ok])
  · obtain ⟨t, hrun, htook⟩ := readBits_of_take h le_rfl x.isLt hnext
    exact h.completes rfl htook (by rw [body, hrun, Res.bind_ok])

/-- Settles O28: that WB or RB raises before it changes anything. -/
theorem floatPassthroughFails : Obligations.FloatPassthroughFails := by
  intro s x
  refine ⟨fun h hroom => ?_, fun h hbudget => ?_⟩
  · exact h.fails rfl h (by rw [body, writeBits_overrun x le_rfl hroom, Res.bind_raised])
  · exact h.fails rfl h (by rw [body, readBits_past_end le_rfl hbudget, Res.bind_raised])

/-! ### The numbers of a quantization spec -/

namespace Spec

variable {mn mx res delta : Word} {steps : Nat}

/-- R231: `delta` is 0 exactly when the bounds are equal as numbers. -/
theorem value_delta_eq_zero (h : Spec mn mx res delta steps) : F32.value delta = 0 ↔ F32.value mn = F32.value mx :=
  F32.mag_eq_zero.symm.trans h.mag_delta_eq_zero

/-- R231: the step count is the ceiling itself, which is not negative, for neither is the quotient. -/
theorem ceil_eq_steps (h : Spec mn mx res delta steps) : (steps : Int) = F32.ceil (F32.div delta res) := by
  rw [h.stepsEq, Int.toNat_of_nonneg]
  rw [F32.ceil, h.value_quotient.1]
  omega

/-- R231: equal bounds give no steps. -/
theorem steps_eq_zero (h : Spec mn mx res delta steps) (heq : F32.value mn = F32.value mx) : steps = 0 := by
  have hquot := h.value_quotient.1
  rw [h.mag_delta_eq_zero.mpr heq, Nat.zero_mul, F32.roundPattern_zero h.res_pos.1, patMag_eq_zero.mpr rfl] at hquot
  rw [h.stepsEq, F32.ceil, hquot]
  rfl

/-- R231: steps need bounds that differ. -/
theorem lt_of_steps_ne_zero (h : Spec mn mx res delta steps) (hsteps : steps ≠ 0) : F32.value mn < F32.value mx :=
  lt_of_le_of_ne h.le fun heq => hsteps (h.steps_eq_zero heq)

/-- R231: the largest code of a spec that passes is below `2^32`, so that its width is at most 32. -/
theorem range_lt (h : Spec mn mx res delta steps) : (steps : Int) - 0 < 2 ^ 32 := by
  have := h.steps_lt
  omega

end Spec

/-- Settles O33: `Spec` lists what QParams checks, with the step count as a natural. -/
theorem quantizationSpecGivesItsSteps : Obligations.QuantizationSpecGivesItsSteps := by
  refine fun mn mx res => ⟨fun delta steps => qParams_eq_some.trans ⟨fun h => ?_, ?_⟩, fun delta steps hq => ?_⟩
  · exact ⟨h.mnFinite, h.mxFinite, h.resFinite, h.resPos, h.ordered, h.deltaEq, h.deltaFits, h.quotFits, h.stepsFit,
      h.ceil_eq_steps⟩
  · rintro ⟨hmn, hmx, hres, hpos, hle, hdelta, hdfits, hqfits, hfit, hsteps⟩
    exact ⟨hmn, hmx, hres, hpos, hle, hdelta, hdfits, hqfits, hfit, by rw [← hsteps, Int.toNat_natCast]⟩
  · have h := qParams_eq_some.mp hq
    exact ⟨bitsForRange_le_of_lt h.range_lt, h.value_delta_eq_zero, h.steps_eq_zero⟩

/-! ### Values beyond an end of the range -/

/-- R11: an infinity is told by its sign. -/
theorem F32.eq_pack_of_inf {x : Word} (h : F32.isInf x = true) : x = F32.pack (F32.sign x) 0x7F800000 := by
  rw [F32.isInf_iff] at h
  have := x.isLt
  refine BitVec.eq_of_toNat_eq ?_
  rw [F32.toNat_pack (by decide), F32.sign_eq]
  simp only [decide_eq_true_eq]
  split <;> omega

/-- R11: an infinity lies on the side of every finite value that its sign says. -/
theorem F32.sign_of_inf {x y : Word} (hx : F32.isInf x = true) (hy : F32.isFinite y = true) :
    F32.sign x = decide (F32.value x < F32.value y) := by
  have hmagx := F32.mag_of_inf hx
  have hmagy := F32.mag_lt_of_finite hy
  have habsx := F32.natAbs_value x
  have habsy := F32.natAbs_value y
  rw [F32.sign_of_value_ne_zero (by omega), decide_eq_decide]
  omega

/-- R11: the difference of two finite values that differ is the exact difference rounded, with its sign. -/
theorem F32.sub_of_finite_ne {x y : Word} (hx : F32.isFinite x = true) (hy : F32.isFinite y = true)
    (hne : F32.value x ≠ F32.value y) :
    F32.sub x y = F32.pack (decide (F32.value x < F32.value y))
      (F32.roundPattern (F32.value x - F32.value y).natAbs 1) := by
  rw [F32.sub_finite hx hy, F32.add_finite hx ((F32.isFinite_neg y).trans hy), F32.value_neg, ← sub_eq_add_neg,
    if_neg (sub_ne_zero.mpr hne)]
  simp only [sub_neg]

/-- R11: also where the first value is infinite the difference has the exact difference's sign, and is no nearer to
zero than the exact difference rounded. -/
theorem F32.sub_eq_pack_of_ne {x y : Word} (hx : F32.isNaN x = false) (hy : F32.isFinite y = true)
    (hne : F32.value x ≠ F32.value y) :
    ∃ p ≤ 0x7F800000, F32.sub x y = F32.pack (decide (F32.value x < F32.value y)) p ∧
      F32.roundPattern (F32.value x - F32.value y).natAbs 1 ≤ p := by
  rcases F32.finite_or_inf hx with hfin | hinf
  · exact ⟨_, F32.roundPattern_le _ _, F32.sub_of_finite_ne hfin hy hne, le_rfl⟩
  · refine ⟨0x7F800000, le_rfl, ?_, F32.roundPattern_le _ _⟩
    rw [F32.sub_of_inf hinf hx hy, ← F32.sign_of_inf hinf hy]
    exact F32.eq_pack_of_inf hinf

theorem patMag_one : patMag 0x3F800000 = 2 ^ 149 := by rfl

/-- R11: a magnitude divided by itself is 1. -/
theorem F32.roundPattern_self {q : Nat} (hq : 0 < q) : F32.roundPattern (q * 2 ^ 149) q = 0x3F800000 :=
  F32.roundPattern_exact hq (by decide) (by rw [patMag_one, Nat.mul_comm])

/-- R11: rounded quotients by one divisor rise with the dividend. -/
theorem F32.roundPattern_le_of_le {p p' q : Nat} (hq : 0 < q) (h : p ≤ p') :
    F32.roundPattern (p * 2 ^ 149) q ≤ F32.roundPattern (p' * 2 ^ 149) q :=
  F32.roundPattern_mono hq hq (Nat.mul_le_mul_right q (Nat.mul_le_mul_right _ h))

/-- R11: a quotient by a positive finite value keeps the dividend's sign, also where the dividend is infinite. -/
theorem F32.div_pack (neg : Bool) {p : Nat} {y : Word} (hp : p ≤ 0x7F800000) (hy : F32.isFinite y = true)
    (hsign : F32.sign y = false) (hmag : 0 < F32.mag y) :
    ∃ q ≤ 0x7F800000, F32.div (F32.pack neg p) y = F32.pack neg q ∧ (F32.mag y ≤ patMag p → 0x3F800000 ≤ q) := by
  have hp31 : p < 2 ^ 31 := by omega
  rcases hp.lt_or_eq with hlt | rfl
  · refine ⟨_, F32.roundPattern_le _ _, ?_, fun hle =>
      (F32.roundPattern_self hmag).ge.trans (F32.roundPattern_le_of_le hmag hle)⟩
    rw [F32.div_finite (F32.isFinite_pack hlt neg) hy hmag.ne', F32.sign_pack hp31, F32.mag_pack hp31, hsign,
      Bool.bne_false]
  · refine ⟨0x7F800000, le_rfl, ?_, fun _ => by decide⟩
    have hinf : F32.isInf (F32.pack neg 0x7F800000) = true := (F32.isInf_iff _).mpr (F32.pattern_pack hp31 neg)
    rw [F32.div_of_inf hinf (F32.isNaN_pack le_rfl neg) hy, F32.sign_pack hp31, hsign, Bool.bne_false]

namespace Spec

variable {mn mx res delta : Word} {steps : Nat}

theorem mag_delta_pos (h : Spec mn mx res delta steps) (hsteps : steps ≠ 0) : 0 < F32.mag delta :=
  Nat.pos_of_ne_zero fun hzero => hsteps (h.steps_eq_zero (h.mag_delta_eq_zero.mp hzero))

/-- R232: the normalized value is negative for a value below `min`, and at least 1 for one as far from `min` as `max`
or further. -/
theorem normalized_eq_pack (h : Spec mn mx res delta steps) (hsteps : steps ≠ 0) {v : Word} (hv : F32.isNaN v = false)
    (hne : F32.value v ≠ F32.value mn) :
    ∃ q ≤ 0x7F800000, F32.div (F32.sub v mn) delta = F32.pack (decide (F32.value v < F32.value mn)) q ∧
      (F32.value mx ≤ F32.value v → 0x3F800000 ≤ q) := by
  have hlt := h.lt_of_steps_ne_zero hsteps
  obtain ⟨p, hp, hsub, hround⟩ := F32.sub_eq_pack_of_ne hv h.mnFinite hne
  obtain ⟨q, hq, hdiv, hone⟩ := F32.div_pack (decide (F32.value v < F32.value mn)) hp h.delta_finite
    (h.delta_sign hlt.ne) (h.mag_delta_pos hsteps)
  refine ⟨q, hq, by rw [hsub, hdiv], fun hle => hone ?_⟩
  rw [h.mag_delta]
  exact patMag_strictMono.monotone (le_trans (F32.roundPattern_mono Nat.one_pos Nat.one_pos (by omega)) hround)

/-- R232: a value below `min` is clamped to a zero. -/
theorem clampUnit_of_lt (h : Spec mn mx res delta steps) (hsteps : steps ≠ 0) {v : Word} (hv : F32.isNaN v = false)
    (hlt : F32.value v < F32.value mn) :
    F32.isFinite (clampUnit (F32.div (F32.sub v mn) delta)) = true ∧
      F32.mag (clampUnit (F32.div (F32.sub v mn) delta)) = 0 := by
  obtain ⟨q, hq, hnorm, -⟩ := h.normalized_eq_pack hsteps hv hlt.ne
  rw [hnorm, decide_eq_true hlt]
  refine clampUnit_nonpos (F32.isNaN_pack hq true) ?_
  rw [F32.value_pack (by omega), if_pos rfl]
  omega

/-- R232: a value above `max` is clamped to 1. -/
theorem clampUnit_of_gt (h : Spec mn mx res delta steps) (hsteps : steps ≠ 0) {v : Word} (hv : F32.isNaN v = false)
    (hgt : F32.value mx < F32.value v) : clampUnit (F32.div (F32.sub v mn) delta) = F32.one := by
  have hmn := h.le.trans_lt hgt
  obtain ⟨q, hq, hnorm, hone⟩ := h.normalized_eq_pack hsteps hv hmn.ne'
  rw [hnorm, decide_eq_false hmn.not_gt]
  exact clampUnit_ge_one hq (hone hgt.le)

/-- R231: the step count is a finite value of binary32. -/
theorem ofNat_steps (h : Spec mn mx res delta steps) :
    ∃ u < 0x7F800000, F32.ofNat steps = F32.pack false u ∧ patMag u = steps * 2 ^ 149 := by
  obtain ⟨u, hu, hlt⟩ := h.steps_exact
  exact ⟨u, hlt, F32.ofNat_exact hu hlt, hu⟩

end Spec

/-! ### Rounding to a code -/

theorem patMag_half : patMag 0x3F000000 = 2 ^ 148 := by rfl

/-- R232: one half, added to a finite value that is not negative, is `2^148` units more. -/
theorem F32.add_half {p : Nat} (hp : p < 0x7F800000) (neg : Bool) (hneg : neg = true → p = 0) :
    F32.add (F32.pack neg p) F32.half = F32.pack false (F32.roundPattern (patMag p + 2 ^ 148) 1) := by
  have hhalf : F32.value F32.half = 2 ^ 148 := by rfl
  have hval : F32.value (F32.pack neg p) = patMag p := by
    rw [F32.value_pack (by omega)]
    split
    case isTrue h => rw [hneg h]; rfl
    case isFalse => rfl
  rw [F32.add_finite (F32.isFinite_pack hp neg) (by decide), hval, hhalf, if_neg (by omega),
    decide_eq_false (by omega)]
  rfl

theorem F32.floor_pack_round (p q : Nat) :
    F32.floor (F32.pack false (F32.roundPattern p q)) = (patMag (F32.roundPattern p q) / 2 ^ 149 : Nat) := by
  rw [F32.floor, F32.value_pack (F32.roundPattern_lt p q)]
  rfl

/-- R232: a zero rounds to code 0. -/
theorem floor_add_half_zero (neg : Bool) : F32.floor (F32.add (F32.pack neg 0) F32.half) = 0 := by
  rw [F32.add_half (by decide) neg fun _ => rfl, F32.floor_pack_round,
    F32.roundPattern_exact (u := 0x3F000000) Nat.one_pos (by decide) (by rw [patMag_half]; rfl), patMag_half]
  rfl

/-- R232: adding one half and rounding down does not lower a number of steps. -/
theorem le_floor_add_half {n u : Nat} (hu : u < 0x7F800000) (hn : patMag u = n * 2 ^ 149) :
    (n : Int) ≤ F32.floor (F32.add (F32.pack false u) F32.half) := by
  have hmono : F32.roundPattern (patMag u) 1 ≤ F32.roundPattern (patMag u + 2 ^ 148) 1 :=
    F32.roundPattern_mono Nat.one_pos Nat.one_pos (by omega)
  rw [F32.roundPattern_exact Nat.one_pos hu.le (Nat.mul_one _).symm] at hmono
  rw [F32.add_half hu false nofun, F32.floor_pack_round]
  have hmag := patMag_strictMono.monotone hmono
  rw [hn] at hmag ⊢
  exact_mod_cast (Nat.le_div_iff_mul_le (Nat.two_pow_pos 149)).mpr hmag

theorem F32.mul_of_mag_zero {x y : Word} (hx : F32.isFinite x = true) (hy : F32.isFinite y = true)
    (hzero : F32.mag x = 0) : F32.mul x y = F32.pack (F32.sign x != F32.sign y) 0 := by
  rw [F32.mul_finite hx hy, hzero, Nat.zero_mul, F32.roundPattern_zero (Nat.two_pow_pos 149)]

theorem F32.one_mul_pack {u : Nat} (hu : u < 0x7F800000) : F32.mul F32.one (F32.pack false u) = F32.pack false u := by
  have hone : F32.mag F32.one = 2 ^ 149 := by rfl
  rw [F32.mul_finite (by decide) (F32.isFinite_pack hu false), F32.sign_pack (by omega), F32.mag_pack (by omega), hone,
    F32.roundPattern_exact (Nat.two_pow_pos 149) hu.le (Nat.mul_comm _ _)]
  rfl

/-- R232: the code under a spec with steps. -/
theorem qEncode_of_ne_zero (v mn delta : Word) {steps : Nat} (hsteps : steps ≠ 0) :
    qEncode v mn delta steps =
      min (F32.floor (F32.add (F32.mul (clampUnit (F32.div (F32.sub v mn) delta)) (F32.ofNat steps)) F32.half)).toNat
        steps :=
  if_neg hsteps

namespace Spec

variable {mn mx res delta : Word} {steps : Nat}

/-- R232: a value below `min` has code 0. -/
theorem qEncode_of_lt (h : Spec mn mx res delta steps) {v : Word} (hv : F32.isNaN v = false)
    (hlt : F32.value v < F32.value mn) : qEncode v mn delta steps = 0 := by
  rcases eq_or_ne steps 0 with rfl | hsteps
  · exact Nat.le_zero.mp (qEncode_le v mn delta 0)
  obtain ⟨hfin, hzero⟩ := h.clampUnit_of_lt hsteps hv hlt
  obtain ⟨u, hu, hof, -⟩ := h.ofNat_steps
  rw [qEncode_of_ne_zero v mn delta hsteps, hof, F32.mul_of_mag_zero hfin (F32.isFinite_pack hu false) hzero,
    floor_add_half_zero, Int.toNat_zero, Nat.zero_min]

/-- R232: a value above `max` has code `steps`. -/
theorem qEncode_of_gt (h : Spec mn mx res delta steps) {v : Word} (hv : F32.isNaN v = false)
    (hgt : F32.value mx < F32.value v) : qEncode v mn delta steps = steps := by
  rcases eq_or_ne steps 0 with rfl | hsteps
  · exact Nat.le_zero.mp (qEncode_le v mn delta 0)
  obtain ⟨u, hu, hof, hmag⟩ := h.ofNat_steps
  have hfloor := le_floor_add_half hu hmag
  rw [qEncode_of_ne_zero v mn delta hsteps, h.clampUnit_of_gt hsteps hv hgt, hof, F32.one_mul_pack hu]
  omega

end Spec

/-- Settles O34: the clamp takes what lies beyond an end of the range to 0 or to 1. -/
theorem quantizerClampsTheValue : Obligations.QuantizerClampsTheValue := by
  intro v mn mx res delta steps hq hv
  have h := qParams_eq_some.mp hq
  refine ⟨qEncode_le v mn delta steps, fun hlt => ?_, fun hgt => ?_⟩
  · exact h.qEncode_of_lt hv ((F32.lt_iff hv (F32.not_nan_of_finite h.mnFinite)).mp hlt)
  · exact h.qEncode_of_gt hv ((F32.lt_iff (F32.not_nan_of_finite h.mxFinite) hv).mp hgt)

/-! ### Decoded values -/

namespace Spec

variable {mn mx res delta : Word} {steps : Nat}

/-- R233: a code is a finite value, no larger than the step count. -/
theorem ofNat_code (h : Spec mn mx res delta steps) {code : Nat} (hle : code ≤ steps) :
    ∃ c < 0x7F800000, F32.ofNat code = F32.pack false c ∧ patMag c ≤ steps * 2 ^ 149 := by
  obtain ⟨u, hu, -, hmag⟩ := h.ofNat_steps
  have hround : F32.roundPattern (code * 2 ^ 149) 1 ≤ u := by
    rw [← F32.roundPattern_exact (u := u) (q := 1) Nat.one_pos hu.le (by rw [Nat.mul_one]), hmag]
    exact F32.roundPattern_mono Nat.one_pos Nat.one_pos (Nat.mul_le_mul_right 1 (Nat.mul_le_mul_right _ hle))
  exact ⟨_, hround.trans_lt hu, rfl, (patMag_strictMono.monotone hround).trans hmag.le⟩

/-- R233: a code divided by the step count is finite, for it is at most 1. -/
theorem isFinite_code_div_steps (h : Spec mn mx res delta steps) (hsteps : steps ≠ 0) {code : Nat}
    (hle : code ≤ steps) : F32.isFinite (F32.div (F32.ofNat code) (F32.ofNat steps)) = true := by
  obtain ⟨u, hu, hofu, hmagu⟩ := h.ofNat_steps
  obtain ⟨c, hc, hofc, hmagc⟩ := h.ofNat_code hle
  have hpos : 0 < patMag u := hmagu ▸ Nat.mul_pos (Nat.pos_of_ne_zero hsteps) (Nat.two_pow_pos 149)
  have hmag := F32.mag_pack (p := u) (by omega) false
  rw [hofc, hofu, F32.div_finite (F32.isFinite_pack hc false) (F32.isFinite_pack hu false) (hmag ▸ hpos.ne'), hmag,
    F32.mag_pack (by omega)]
  have hround : F32.roundPattern (patMag c * 2 ^ 149) (patMag u) ≤ 0x3F800000 :=
    (F32.roundPattern_le_of_le hpos (hmagc.trans hmagu.ge)).trans (F32.roundPattern_self hpos).le
  exact F32.isFinite_pack (by omega) _

/-- R233, R238: what a code decodes to lies between the bounds. -/
theorem qDecode_between (h : Spec mn mx res delta steps) {code : Nat} (hle : code ≤ steps) :
    F32.le mn (qDecode code mn mx delta steps) = true ∧ F32.le (qDecode code mn mx delta steps) mx = true := by
  unfold qDecode
  split
  case isTrue =>
    have hmn := F32.not_nan_of_finite h.mnFinite
    rw [F32.le_iff hmn hmn, F32.le_iff hmn (F32.not_nan_of_finite h.mxFinite)]
    exact ⟨le_rfl, h.le⟩
  case isFalse hsteps =>
    have hscaled := F32.isNaN_mul_finite (h.isFinite_code_div_steps hsteps hle) h.delta_finite
    exact clampInto_between (F32.isNaN_add_finite hscaled h.mnFinite) h.mnFinite h.mxFinite h.le

end Spec

/-! ### WQF and RQF -/

/-- R231, R236: WQF of a spec that fails raises before anything else is looked at. -/
theorem quantizeOut_of_none {mn mx res : Word} (hq : qParams mn mx res = none) (v : Word) (s : State) :
    quantizeOut v mn mx res s = .raised .invalidRange s := by
  simp only [quantizeOut, hq]

/-- R231, R237: so does RQF. -/
theorem quantizeIn_of_none {mn mx res : Word} (hq : qParams mn mx res = none) (s : State) :
    quantizeIn mn mx res s = .raised .invalidRange s := by
  simp only [quantizeIn, hq]

section
variable {mn mx res delta : Word} {steps : Nat} (hq : qParams mn mx res = some (delta, steps))
include hq

/-- R236: the body of WQF under a spec that passes. -/
theorem quantizeOut_of_some (v : Word) (s : State) :
    quantizeOut v mn mx res s =
      if F32.isNaN v then .raised .outOfRange s else encodeInt (qEncode v mn delta steps : Nat) 0 (steps : Nat) s := by
  simp only [quantizeOut, hq]

/-- R237: the body of RQF under a spec that passes. -/
theorem quantizeIn_of_some (s : State) :
    quantizeIn mn mx res s =
      (decodeInt 0 (steps : Nat) s).bind fun code t => .ok (qDecode code.toNat mn mx delta steps) t := by
  simp only [quantizeIn, hq]

/-- R236: all that the body of WQF can do with a number under a spec that passes. -/
theorem quantizeOut_cases {s : State} (h : WriterReady s) {v : Word} (hv : F32.isNaN v = false) :
    (32 * s.cap.toNat < s.writePos + bitsForRange 0 steps ∧ quantizeOut v mn mx res s = .raised .bufferOverrun s) ∨
    (s.writePos + bitsForRange 0 steps ≤ 32 * s.cap.toNat ∧ ∃ t, quantizeOut v mn mx res s = .ok () t ∧
      Wrote s t (fieldBits (pat32 (qEncode v mn delta steps)) (bitsForRange 0 steps))) := by
  have hcode := qEncode_le v mn delta steps
  rw [quantizeOut_of_some hq, hv, if_neg Bool.false_ne_true]
  rcases encodeInt_cases h (v := qEncode v mn delta steps) (qParams_eq_some.mp hq).range_lt with
    ⟨hempty, -⟩ | ⟨-, hout, -⟩ | ⟨-, -, hover, hrun⟩ | ⟨-, -, hroom, hrun⟩
  · omega
  · omega
  · exact .inl ⟨hover, hrun⟩
  · rw [sub_zero] at hrun
    exact .inr ⟨hroom, hrun⟩

/-- R237: RQF over a code of the spec's width takes it, and looks only then whether it is a code of the spec. -/
theorem quantizeIn_of_take {s : State} (h : ReaderReady s) {code : Word}
    (hcode : code.toNat < 2 ^ bitsForRange 0 steps)
    (hnext : s.unread.take (bitsForRange 0 steps) = fieldBits code (bitsForRange 0 steps)) :
    ∃ t, Took s t (fieldBits code (bitsForRange 0 steps)) ∧
      quantizeIn mn mx res s =
        if steps < code.toNat then .raised .outOfRange t else .ok (qDecode code.toNat mn mx delta steps) t := by
  obtain ⟨t, htook, hrun⟩ := decodeInt_of_take h (qParams_eq_some.mp hq).range_lt (by omega) hcode hnext
  refine ⟨t, htook, ?_⟩
  rw [quantizeIn_of_some hq, hrun, add_zero]
  simp only [Int.ofNat_lt]
  split <;> rfl

/-- R237: RQF past the end of the stream takes nothing. -/
theorem quantizeIn_past_end {s : State} (h : ReaderReady s) (hbudget : s.budget.toNat < bitsForRange 0 steps) :
    quantizeIn mn mx res s = .raised .budgetExhausted s := by
  rw [quantizeIn_of_some hq]
  rcases decodeInt_cases h (qParams_eq_some.mp hq).range_lt with ⟨hempty, -⟩ | ⟨-, -, hrun⟩ | ⟨-, henough, -⟩
  · omega
  · rw [hrun, Res.bind_raised]
  · omega

end

/-- Settles O35: the code is at most `steps`, so 32 bits hold it. -/
theorem wqfAppendsItsCode : Obligations.WqfAppendsItsCode := by
  intro s v mn mx res delta steps h hq hv hroom
  have hle := qEncode_le v mn delta steps
  have hlt := (qParams_eq_some.mp hq).steps_lt
  have hcode : (pat32 (qEncode v mn delta steps)).toNat = qEncode v mn delta steps := by
    exact_mod_cast pat32_toNat (v := qEncode v mn delta steps) (by omega) (by omega)
  refine ⟨pat32 (qEncode v mn delta steps), hcode, hcode.trans_le hle, ?_⟩
  rcases quantizeOut_cases hq h hv with ⟨hover, -⟩ | ⟨-, t, hrun, hwrote⟩
  · omega
  · exact h.completes rfl hwrote (by rw [body, hrun, Res.bind_ok])

/-- Settles O36: a code of the spec has the spec's width, and decodes into the range. -/
theorem rqfTakesACodeIntoTheRange : Obligations.RqfTakesACodeIntoTheRange := by
  intro s mn mx res delta code steps h hq hle hnext
  have hcode : code.toNat < 2 ^ bitsForRange 0 steps := by
    have hwidth := bitsForRange_spec (lo := 0) (hi := steps) (by omega)
    zify
    omega
  obtain ⟨hlo, hhi⟩ := (qParams_eq_some.mp hq).qDecode_between hle
  obtain ⟨t, htook, hrun⟩ := quantizeIn_of_take hq h hcode hnext
  rw [if_neg hle.not_gt] at hrun
  exact ⟨_, rfl, hlo, hhi, h.completes rfl htook (by rw [body, hrun, Res.bind_ok])⟩

/-- R236: what the body of WQF raises, WQF fails with, and nothing was appended. -/
theorem WriterReady.wqf_fails {s : State} {v mn mx res : Word} {e : Status} (h : WriterReady s)
    (hrun : quantizeOut v mn mx res s = .raised e s) : FailsFrom (Machine.exec (.wqf v mn mx res) s) s e :=
  h.fails rfl h (by rw [body, hrun, Res.bind_raised])

/-- R237: what the body of RQF raises, RQF fails with, in the state that it left. -/
theorem ReaderReady.rqf_fails {s u : State} {mn mx res : Word} {e : Status} (h : ReaderReady s) (hu : ReaderReady u)
    (hrun : quantizeIn mn mx res s = .raised e u) : FailsFrom (Machine.exec (.rqf mn mx res) s) u e :=
  h.fails rfl hu (by rw [body, hrun, Res.bind_raised])

/-- Settles O37: the spec is checked first, then the value or the budget, and a code only once it is taken. -/
theorem quantizedCommandsFail : Obligations.QuantizedCommandsFail := by
  intro s v mn mx res
  refine ⟨fun h => ⟨fun hq => h.wqf_fails (quantizeOut_of_none hq v s), fun delta steps hq => ⟨fun hnan => ?_,
      fun hv hover => ?_⟩⟩,
    fun h => ⟨fun hq => h.rqf_fails h (quantizeIn_of_none hq s), fun delta steps hq => ⟨fun hbudget => ?_,
      fun code hcode hout hnext => ?_⟩⟩⟩
  · exact h.wqf_fails (by rw [quantizeOut_of_some hq, if_pos hnan])
  · rcases quantizeOut_cases hq h hv with ⟨-, hrun⟩ | ⟨hroom, -⟩
    · exact h.wqf_fails hrun
    · omega
  · exact h.rqf_fails h (quantizeIn_past_end hq h hbudget)
  · obtain ⟨t, htook, hrun⟩ := quantizeIn_of_take hq h hcode hnext
    rw [if_pos hout] at hrun
    exact ⟨t, htook.con, h.rqf_fails htook.ready hrun⟩

end Sys2Proof.Machine
end

section
/-! PROOFS. The ByteBlockCodec commands (spec/45_byteblock.md): alignment, strings, and the failures of byte blocks and
strings. Every failure is one primitive that raises after others that completed: the pad, and before it the length
prefix of a string. What those completed is what the command leaves written or consumed (R343). -/

namespace Sys2Proof.Machine

/-! ### Alignment -/

/-- Settles O38: the body is the alignment of a writer, which a ready writer always has room for. -/
theorem walignPadsToAByte : Obligations.WalignPadsToAByte := by
  intro s h
  obtain ⟨t, hrun, hwrote⟩ := alignWrite_pads h
  refine ⟨h.completes rfl hwrote (by rw [body, hrun, Res.bind_ok]), s.padBits_lt, ?_⟩
  rw [h.pad_eq]; omega

/-- R270: a reader's pad ends at a byte boundary. -/
theorem ReaderReady.pos_add_pad {s : State} (h : ReaderReady s) : (s.pos + s.padBits) % 8 = 0 := by
  have := h.budget_le
  unfold State.padBits; rw [h.pos_eq]; omega

/-- R272: over a pad of zeros the alignment takes it and completes. -/
theorem alignRead_of_zero {s : State} (h : ReaderReady s) (hzero : s.unread.take s.padBits = zeroBits s.padBits) :
    ∃ t, Took s t (zeroBits s.padBits) ∧ alignRead s = .ok () t := by
  obtain ⟨t, htook, hrun⟩ := alignRead_cases h
  rw [if_pos hzero] at hrun
  exact ⟨t, hzero ▸ htook, hrun⟩

/-- R272: over a pad with a 1 in it the alignment takes it and then raises. -/
theorem alignRead_of_nonzero {s : State} (h : ReaderReady s)
    (hpad : s.unread.take s.padBits ≠ zeroBits s.padBits) :
    ∃ t, Took s t (s.unread.take s.padBits) ∧ alignRead s = .raised .alignmentFault t := by
  obtain ⟨t, htook, hrun⟩ := alignRead_cases h
  rw [if_neg hpad] at hrun
  exact ⟨t, htook, hrun⟩

/-- Settles O39: the body is the alignment of a reader. -/
theorem ralignSkipsAZeroPad : Obligations.RalignSkipsAZeroPad := by
  intro s h
  refine ⟨h.pad_le, h.pos_add_pad, fun hzero => ?_⟩
  obtain ⟨t, htook, hrun⟩ := alignRead_of_zero h hzero
  exact h.completes rfl htook (by rw [body, hrun, Res.bind_ok])

/-- Settles O40: the alignment raises once the pad is taken. -/
theorem ralignFailsOnANonzeroPad : Obligations.RalignFailsOnANonzeroPad := by
  intro s h hpad
  obtain ⟨t, htook, hrun⟩ := alignRead_of_nonzero h hpad
  exact ⟨t, htook.con, h.fails rfl htook.ready (by rw [body, hrun, Res.bind_raised])⟩

/-! ### Blocks behind a pad -/

/-- R271, R273: before a block that does not fit behind it, the pad is written; the block then raises. -/
theorem writeBlock_overruns_after_pad {s : State} (h : WriterReady s) {bs : List Byte}
    (hover : 32 * s.cap.toNat < s.writePos + s.padBits + 8 * bs.length) :
    ∃ t, Wrote s t (zeroBits s.padBits) ∧ alignWrite s = .ok () t ∧ writeBlock bs t = .raised .bufferOverrun t := by
  obtain ⟨t, hpad, hwrote⟩ := alignWrite_pads h
  have hpos : t.writePos = s.writePos + s.padBits := by rw [hwrote.app.writePos, length_zeroBits]
  have hcap := hwrote.app.cap
  rcases writeBlock_cases bs hwrote.ready with ⟨-, hblock⟩ | ⟨hroom, -⟩
  · exact ⟨t, hwrote, hpad, hblock⟩
  · rw [hpos, hcap] at hroom; omega

/-- R272, R274: before a block that lies beyond the budget, a pad of zeros is taken; the block then raises. -/
theorem readBlock_past_end_after_pad {s : State} (h : ReaderReady s) {n : Nat}
    (hzero : s.unread.take s.padBits = zeroBits s.padBits) (hbudget : s.budget.toNat < s.padBits + 8 * n) :
    ∃ t, Took s t (zeroBits s.padBits) ∧ alignRead s = .ok () t ∧ readBlock n t = .raised .budgetExhausted t := by
  obtain ⟨t, htook, hpad⟩ := alignRead_of_zero h hzero
  have hleft := htook.con.budget
  rw [length_zeroBits] at hleft
  rcases readBlock_cases n htook.ready with ⟨-, hblock⟩ | ⟨henough, -⟩
  · exact ⟨t, htook, hpad, hblock⟩
  · omega

/-- Settles O43: a block raises behind the pad, and a pad with a 1 in it raises before the block is looked at. -/
theorem byteCommandsFail : Obligations.ByteCommandsFail := by
  intro s len bs
  refine ⟨fun h _ hover => ?_, fun h => ⟨fun hpad => ?_, fun hzero hbudget => ?_⟩⟩
  · obtain ⟨t, hwrote, hrun, hblock⟩ := writeBlock_overruns_after_pad h hover
    exact ⟨t, hwrote.app, h.fails rfl hwrote.ready (by rw [body, hrun, Res.bind_ok, hblock, Res.bind_raised])⟩
  · obtain ⟨t, htook, hrun⟩ := alignRead_of_nonzero h hpad
    exact ⟨t, htook.con, h.fails rfl htook.ready (by rw [body, hrun, Res.bind_raised])⟩
  · obtain ⟨t, htook, hrun, hblock⟩ := readBlock_past_end_after_pad h hzero hbudget
    exact ⟨t, htook.con, h.fails rfl htook.ready (by rw [body, hrun, Res.bind_ok, hblock, Res.bind_raised])⟩

/-! ### Strings -/

/-- Settles O44: the bits are those of `stringBits`. -/
theorem wstrAppendsLengthAndBytes : Obligations.WstrAppendsLengthAndBytes :=
  fun _ _ _ h _ hroom => h.wstr_completes hroom

/-- Settles O45: the length prefix raises first; once it is written, the pad behind it is that of the position before
it, and only the block can raise. -/
theorem wstrFails : Obligations.WstrFails := by
  intro s len bs h _
  rcases encodeLength_cases h len with ⟨hshort, hlen⟩ | ⟨hroom, t, hlen, hwlen⟩
  · exact ⟨fun _ => h.fails rfl h (by rw [body, hlen, Res.bind_raised]), fun hfits _ => by omega⟩
  · refine ⟨fun hover => by omega, fun _ hover => ?_⟩
    have hpad := hwlen.padBits_word h (length_fieldBits len 32)
    have hpos : t.writePos = s.writePos + 32 := by rw [hwlen.app.writePos, length_fieldBits]
    obtain ⟨u, hwpad, hrun, hblock⟩ := writeBlock_overruns_after_pad hwlen.ready (bs := bs) (by
      rw [hpos, hpad, hwlen.app.cap]; exact hover)
    rw [hpad] at hwpad
    exact ⟨u, (hwlen.trans h hwpad).app, h.fails rfl hwpad.ready (by
      rw [body, hlen, Res.bind_ok, hrun, Res.bind_ok, hblock, Res.bind_raised])⟩

/-- Settles O46: the bits are those of `stringBits`. -/
theorem rstrDeliversStringAndTerminator : Obligations.RstrDeliversStringAndTerminator := by
  intro s dcap len bs h hlen hdcap hnext
  refine h.rstr_completes hlen hdcap ?_
  rw [length_stringBits, hlen]
  exact hnext

/-- R278 step 1: a length prefix beyond the budget is not taken. -/
theorem decodeLength_past_end {s : State} (h : ReaderReady s) (hbudget : s.budget.toNat < 32) :
    decodeInt 0 uint32Max s = .raised .budgetExhausted s := by
  have hwidth : bitsForRange 0 uint32Max = 32 := by decide
  rcases decodeInt_cases h (lo := 0) (hi := uint32Max) (by decide) with ⟨hempty, -⟩ | ⟨-, -, hrun⟩ | ⟨-, henough, -⟩
  · exact absurd hempty (by decide)
  · exact hrun
  · omega

/-- R278: behind a length below the destination capacity, RSTR is an alignment and a block. -/
theorem body_rstr_of_lt {s t : State} {dcap len : Word} (hlen : decodeInt 0 uint32Max s = .ok (len.toNat : Int) t)
    (hlt : len.toNat < dcap.toNat) :
    body (.rstr dcap) s = (alignRead t).bind fun _ u =>
      (readBlock len.toNat u).bind fun bs w => .ok (len, bs ++ [0x00]) w := by
  rw [body, hlen, Res.bind_ok, if_neg (by omega), Int.toNat_natCast,
    show pat32 (len.toNat : Int) = len from pat32_intOperand .unsigned len]

/-- R278, R346: the failures of RSTR over a length `len`, from the state behind the length prefix. -/
theorem ReaderReady.rstr_fails_after_length {s t : State} {dcap len : Word} (h : ReaderReady s)
    (htlen : Took s t (fieldBits len 32)) (hlen : decodeInt 0 uint32Max s = .ok (len.toNat : Int) t) :
    (dcap.toNat ≤ len.toNat → FailsFrom (Machine.exec (.rstr dcap) s) t .stringCapacity) ∧
    (len.toNat < dcap.toNat → t.unread.take t.padBits ≠ zeroBits t.padBits →
      ∃ u, Consumed s u (fieldBits len 32 ++ t.unread.take t.padBits) ∧
        FailsFrom (Machine.exec (.rstr dcap) s) u .alignmentFault) ∧
    (len.toNat < dcap.toNat → t.unread.take t.padBits = zeroBits t.padBits →
      t.budget.toNat < t.padBits + 8 * len.toNat →
      ∃ u, Consumed s u (fieldBits len 32 ++ zeroBits t.padBits) ∧
        FailsFrom (Machine.exec (.rstr dcap) s) u .budgetExhausted) := by
  refine ⟨fun hcap => ?_, fun hlt hpad => ?_, fun hlt hzero hbudget => ?_⟩
  · exact h.fails rfl htlen.ready (by rw [body, hlen, Res.bind_ok, if_pos (by omega)])
  · obtain ⟨u, htpad, hrun⟩ := alignRead_of_nonzero htlen.ready hpad
    exact ⟨u, (htlen.trans htpad).con, h.fails rfl htpad.ready (by
      rw [body_rstr_of_lt hlen hlt, hrun, Res.bind_raised])⟩
  · obtain ⟨u, htpad, hrun, hblock⟩ := readBlock_past_end_after_pad htlen.ready hzero hbudget
    exact ⟨u, (htlen.trans htpad).con, h.fails rfl htpad.ready (by
      rw [body_rstr_of_lt hlen hlt, hrun, Res.bind_ok, hblock, Res.bind_raised])⟩

/-- Settles O47: the length prefix is 32 bits, so the pad behind it is that of the position before it, and what is next
to read is what the stream holds from bit 32 on. -/
theorem rstrFails : Obligations.RstrFails := by
  intro s dcap len h
  refine ⟨fun hbudget => h.fails rfl h (by rw [body, decodeLength_past_end h hbudget, Res.bind_raised]), fun hnext => ?_⟩
  obtain ⟨t, htlen, hlen⟩ := decodeLength_of_take h hnext
  obtain ⟨hcapacity, halign, hblock⟩ := h.rstr_fails_after_length (dcap := dcap) htlen hlen
  have hleft := htlen.con.budget
  rw [length_fieldBits] at hleft
  rw [htlen.padBits_word h (length_fieldBits len 32), htlen.unread_eq, length_fieldBits] at halign hblock
  exact ⟨fun hcap => ⟨t, htlen.con, hcapacity hcap⟩, halign, fun hlt hzero hbudget => hblock hlt hzero (by omega)⟩

end Sys2Proof.Machine
end

section
/-! PROOFS. The command cycle and the host's ports (spec/46_stream_control.md). A command is decoded and meets the gates
(R312 to R314); BIND over capacity leaves a FAILED binding (R316); the CSR port shows the map of spec/10_state.md R45
(R317), and the buffer port moves whole words (R318, R319). The map has one lemma per address, in any state; under the
invariants the bit position and the live scratch bits are numbers of 32 bits, so that the map shows them whole. -/

namespace Sys2Proof.Machine

/-! ### Responses of the command cycle -/

/-- R344: a response that is not latched refuses the command. -/
theorem refusesWith_respond (s : State) (e : Status) : RefusesWith (.next (s.respond e)) s e := rfl

/-- R316, R342: what a BIND over `BUF_WORDS` leaves is the failure entry, whether or not a failure stood before. -/
theorem failsFrom_refuseBinding (s : State) : FailsFrom (.next s.refuseBinding) s .illegalCommand :=
  ⟨Config.failResult s.draws, rfl⟩

/-- Settles O7: the step takes the event, and serving a command that decodes is its meaning. -/
theorem stepRunsTheDecodedCommand : Obligations.StepRunsTheDecodedCommand := by
  intro s c rest i hport hdec
  rw [step_event s hport, serve_legal _ hdec]

/-- R312, D31: while ACTIVE an Illegal command is a failure of the binding. -/
theorem failsFrom_illegal {s : State} (hactive : s.phase = .active) (herr : s.err = .ok) :
    FailsFrom (.next s.illegal) s .illegalCommand := by
  rw [s.illegal_active hactive]
  exact failsFrom_fail herr

/-- R312, D31: outside ACTIVE there is no stream for an Illegal command to harm. -/
theorem refusesWith_illegal {s : State} (hinactive : s.phase ≠ .active) :
    RefusesWith (.next s.illegal) s .illegalCommand := by
  rw [s.illegal_inactive hinactive]
  exact refusesWith_respond s .illegalCommand

/-- Settles O8: serving an Illegal command asks for the phase only. -/
theorem illegalCommandByPhase : Obligations.IllegalCommandByPhase := by
  intro s c rest e hport hdec
  rw [step_event s hport, serve_illegal _ hdec]
  exact ⟨fun hp herr => failsFrom_illegal hp herr, fun hp => refusesWith_illegal hp⟩

/-- Settles O12: every stream command meets the phase gate first. -/
theorem phaseGateAnswersNotReady : Obligations.PhaseGateAnswersNotReady := by
  intro i s hside hinactive
  rw [exec_inactive hside hinactive]
  exact refusesWith_respond s .notReady

/-- Settles O13: the direction gate stands before the body, so the failure starts from the state of the command. -/
theorem directionGateFails : Obligations.DirectionGateFails := by
  intro i d s hside hactive herr hdir
  rw [exec_misdirected hside hactive hdir]
  exact failsFrom_fail herr

/-- Settles O15: no gate stands before BIND. -/
theorem bindOverCapacityFails : Obligations.BindOverCapacityFails := by
  intro d c s hcap
  rw [exec_bind_over d hcap]
  exact failsFrom_refuseBinding s

/-! ### The buffer port -/

section
variable {s : State} {i : Nat}

theorem serve_hostRead_accepted (h : i < s.bufWords.val) :
    serve (.hostRead i) s = .next { s with reply := some (.bufferRead (s.buf.readWord i) true) } :=
  congrArg Host.Outcome.next (if_pos h)

theorem serve_hostRead_refused (h : s.bufWords.val ≤ i) :
    serve (.hostRead i) s = .next { s with reply := some (.bufferRead 0 false) } :=
  congrArg Host.Outcome.next (if_neg (not_lt.mpr h))

/-- R318: an admitted write replaces its word and no other lane. -/
theorem serve_hostWrite_admitted (v : Word) (h : i < s.bufWords.val) (hp : s.phase ≠ .active) :
    ∃ m : Memory, serve (.hostWrite i v) s = .next { s with buf := m, reply := some (.bufferWrite true) } ∧
      m.readWord i = v ∧ ∀ a, a < 4 * i ∨ 4 * i + 4 ≤ a → m.readByte a = s.buf.readByte a := by
  rw [serve_hostWrite, s.hostWrite_admitted v h hp]
  exact ⟨s.buf.writeWord i v, rfl, s.buf.readWord_writeWord_same i v,
    fun a ha => s.buf.readByte_writeWord_other v (by omega)⟩

/-- R319: the two reasons to refuse a write. -/
theorem serve_hostWrite_refused (v : Word) (h : s.bufWords.val ≤ i ∨ s.phase = .active) :
    serve (.hostWrite i v) s = .next { s with reply := some (.bufferWrite false) } := by
  have hnot : ¬ (i < s.bufWords.val ∧ s.phase ≠ .active) := fun ⟨hi, hp⟩ => h.elim (not_le.mpr hi) hp
  rw [serve_hostWrite, s.hostWrite_refused v hnot]

end

/-- Settles O10: the cases of the two accesses, in the state whose next event has been taken. -/
theorem bufferPortReadsAndWrites : Obligations.BufferPortReadsAndWrites := by
  intro s i v rest
  refine ⟨fun hport => ?_, fun hport => ?_⟩ <;> rw [step_event s hport]
  · exact ⟨fun hi => serve_hostRead_accepted hi, fun hi => serve_hostRead_refused hi⟩
  · exact ⟨fun hi hp => serve_hostWrite_admitted v hi hp, fun h => serve_hostWrite_refused v h⟩

/-! ### The CSR map (R45) -/

section
variable {s : State} {a : Word}

theorem State.toNat_csr_state (h : a.toNat = 0x0) :
    (s.csr a).toNat = s.phase.code.toNat + if s.dir = .reader then 4 else 0 := by
  simp only [State.csr, h]
  cases s.phase <;> cases s.dir <;> rfl

theorem State.toNat_csr_err (h : a.toNat = 0x1) : (s.csr a).toNat = s.err.code.toNat := by
  simp only [State.csr, h]
  exact BitVec.toNat_setWidth_of_le (by decide)

theorem State.csr_cap (h : a.toNat = 0x2) : s.csr a = s.cap := by simp only [State.csr, h]

theorem State.csr_cursor (h : a.toNat = 0x3) : s.csr a = s.cursor := by simp only [State.csr, h]

theorem State.toNat_csr_scratchLow (h : a.toNat = 0x4) : (s.csr a).toNat = s.scratch.toNat % 2 ^ 32 := by
  simp [State.csr, h]

theorem State.toNat_csr_scratchHigh (h : a.toNat = 0x5) : (s.csr a).toNat = s.scratch.toNat / 2 ^ 32 := by
  have := s.scratch.isLt
  simp only [State.csr, h, BitVec.extractLsb'_toNat, Nat.shiftRight_eq_div_pow]
  omega

theorem State.toNat_csr_sbits (h : a.toNat = 0x6) : (s.csr a).toNat = s.sbits.toNat := by
  simp only [State.csr, h]
  exact BitVec.toNat_setWidth_of_le (by decide)

theorem State.csr_budget (h : a.toNat = 0x7) : s.csr a = s.budget := by simp only [State.csr, h]

theorem State.csr_bitPos (h : a.toNat = 0x8) : s.csr a = if s.phase = .unbound then 0 else pat32 s.pos := by
  simp only [State.csr, h]

theorem State.toNat_csr_bufWords (h : a.toNat = 0x9) : (s.csr a).toNat = s.bufWords.val := by
  have := s.bufWords.isLt
  simp only [Config.maxBufWords] at this
  simp only [State.csr, h, BitVec.toNat_ofNat]
  omega

theorem State.csr_reserved (h : 0xA ≤ a.toNat) : s.csr a = 0 := by
  obtain ⟨n, hn⟩ := Nat.exists_eq_add_of_le' h
  simp only [State.csr, hn]

end

/-! ### The CSR map under the invariants -/

section
variable {s : State}

/-- R41: with the invariants the bit position lies between 0 and `32·CAP`. -/
theorem Inv.pos_bounds (h : Inv s) : 0 ≤ s.pos ∧ s.pos ≤ 32 * s.cap.toNat := by
  cases hd : s.dir with
  | writer =>
    have := h.writer_room hd
    rw [State.pos_writer hd, State.writePos]
    omega
  | reader =>
    have := h.reader_pos hd
    have := h.reader_cursor hd
    rw [State.pos_reader hd]
    omega

/-- R33: an unbound engine stands at bit 0. -/
theorem Inv.pos_unbound (h : Inv s) (hp : s.phase = .unbound) : s.pos = 0 := by
  obtain ⟨hdir, -, hcursor, -, hsbits, -⟩ := h.unbound_zero hp
  rw [State.pos_writer hdir, State.writePos, hcursor, hsbits]
  rfl

/-- R42 (2), R43 (2): the live scratch bits lie in its low half. -/
theorem Inv.scratch_lt_word (h : Inv s) : s.scratch.toNat < 2 ^ 32 :=
  h.scratch_lt.trans_le (Nat.pow_le_pow_right (by decide) (h.sbits_le.trans (by decide)))

/-- R45: `BITPOS` is the bit position as a number, and 0 in an unbound engine. -/
theorem Inv.toNat_csr_bitPos (h : Inv s) {a : Word} (ha : a.toNat = 0x8) : ((s.csr a).toNat : Int) = s.pos := by
  rw [State.csr_bitPos ha]
  split
  · rename_i hp
    exact (h.pos_unbound hp).symm
  · obtain ⟨h0, hcap⟩ := h.pos_bounds
    have hbound := h.cap_le.trans (Nat.lt_succ_iff.mp s.bufWords.isLt)
    simp only [Config.maxBufWords] at hbound
    exact pat32_toNat h0 (by omega)

end

/-- Settles O9: one lemma of the map per address; the invariants keep the bit position and the scratch in 32 bits. -/
theorem csrPortShowsTheRegisters : Obligations.CsrPortShowsTheRegisters := by
  intro s a rest hport hinv
  refine ⟨s.csr a, by rw [step_event s hport, serve_csrRead]; rfl, fun ha => ?_, fun ha => ?_, State.csr_cap,
    State.csr_cursor, fun ha => ?_, fun ha => ⟨?_, ?_⟩, State.toNat_csr_sbits, State.csr_budget,
    fun ha => ⟨hinv.toNat_csr_bitPos ha, fun hp => ?_⟩, State.toNat_csr_bufWords, State.csr_reserved⟩
  · rw [State.toNat_csr_state ha]
    cases s.phase <;> cases s.dir <;> rfl
  · rw [State.toNat_csr_err ha]
    cases s.err <;> rfl
  · rw [State.toNat_csr_scratchLow ha, Nat.mod_eq_of_lt hinv.scratch_lt_word]
  · exact BitVec.eq_of_toNat_eq
      ((State.toNat_csr_scratchHigh ha).trans (Nat.div_eq_of_lt hinv.scratch_lt_word))
  · exact Nat.div_eq_of_lt hinv.scratch_lt_word
  · rw [State.csr_bitPos ha, if_pos hp]

end Sys2Proof.Machine
end

section
/-! PROOFS. Reset (spec/70_reset_and_hazards.md). The reset input clears the registers, so each address of the CSR map but
`BUFWORDS` shows 0 (R380); the power-on state has the same registers and a buffer that nothing has written (R381), and
it meets the invariants that every step keeps. -/

namespace Sys2Proof.Machine

/-! ### The CSR map after reset -/

/-- R380: every CSR but `BUFWORDS` reads 0 after reset, address by address of the map of R45. -/
theorem State.csr_applyReset (s : State) {a : Word} (ha : a.toNat ≠ 0x9) : s.applyReset.csr a = 0 := by
  have haddr : a.toNat = 0x0 ∨ a.toNat = 0x1 ∨ a.toNat = 0x2 ∨ a.toNat = 0x3 ∨ a.toNat = 0x4 ∨ a.toNat = 0x5 ∨
      a.toNat = 0x6 ∨ a.toNat = 0x7 ∨ a.toNat = 0x8 ∨ 0xA ≤ a.toNat := by omega
  rcases haddr with h | h | h | h | h | h | h | h | h | h
  · exact BitVec.eq_of_toNat_eq (State.toNat_csr_state h)
  · exact BitVec.eq_of_toNat_eq (State.toNat_csr_err h)
  · exact State.csr_cap h
  · exact State.csr_cursor h
  · exact BitVec.eq_of_toNat_eq (State.toNat_csr_scratchLow h)
  · exact BitVec.eq_of_toNat_eq ((State.toNat_csr_scratchHigh h).trans (Nat.zero_div _))
  · exact BitVec.eq_of_toNat_eq (State.toNat_csr_sbits h)
  · exact State.csr_budget h
  · exact (State.csr_bitPos h).trans (if_pos rfl)
  · exact State.csr_reserved h

/-- Settles O11: the step takes the event and serves it by the reset, which leaves the events after it alone; with
none left the engine idles (R356). -/
theorem resetInputClearsTheRegisters : Obligations.ResetInputClearsTheRegisters := by
  intro s rest hport
  have hstep : step s = .next { s with port := rest }.applyReset := by rw [step_event s hport, serve_reset]
  refine ⟨_, hstep, rfl, rfl, rfl, rfl, rfl, rfl, rfl, rfl, rfl, rfl, rfl, fun a ha => ?_,
    State.toNat_csr_bufWords rfl, fun hrest => step_idle _ hrest⟩
  exact State.csr_applyReset _ fun haddr => ha (BitVec.eq_of_toNat_eq haddr)

/-! ### The power-on state -/

/-- R380, R381: no register holds a bit and no lane is listed, so every bound is one on 0, whatever `BUF_WORDS` is. -/
theorem inv_reset : Inv State.reset where
  cap_le := Nat.zero_le _
  sbits_le := Nat.zero_le _
  scratch_lt := Nat.one_pos
  writer_room _ := le_rfl
  writer_budget _ := rfl
  reader_budget := nofun
  reader_cursor := nofun
  reader_pos := nofun
  done_empty := nofun
  unbound_zero _ := ⟨rfl, rfl, rfl, rfl, rfl, rfl⟩
  err_ok := iff_of_true rfl nofun
  err_latched := nofun
  buf_wf := rfl
  buf_within := rfl

/-- Settles O50: an unbound engine has no scratch to mirror. -/
theorem resetSatisfiesTheInvariants : Obligations.ResetSatisfiesTheInvariants :=
  ⟨inv_reset, scratchMirrors_of_inactive nofun⟩

end Sys2Proof.Machine
end
